-- ==== Sys2Proof/Word.lean ====
section
/-! DEFINITION. The words CORE moves: a memory element of spaces 1 to 5 is a byte (10_state.md R30), a command
word and a value the host reads are 32 bits (30_encoding.md R80, 10_state.md R22). -/

namespace Sys2Proof

/-- One element of spaces 1 to 5 (10_state.md R30). -/
abbrev Byte := BitVec 8

/-- A command word, or a register as the host reads it (30_encoding.md R80, 10_state.md R22): the type that carries the
two widths of 00_scope.md R8, both 32. -/
abbrev Word := BitVec 32

end Sys2Proof
end

