-- ==== Sys2Proof/Syntax.lean ====
section
/-! DEFINITION. The 21 commands of 30_encoding.md R82, one constructor per row of spec/opcode_table.json, each with
the operands of its row at their field's width (R81). -/

namespace Sys2Proof

/-- A command. Byte operands are fields A, B, C in that order; a 16-bit operand is the field IMM (30_encoding.md R80). -/
inductive Instr where
  | gfBuild
  | gfExp (e : Byte)
  | gfLog (v : Byte)
  | gfExpadd (a b : Byte)
  | rsGenpoly (ecCount : Byte)
  | rsGenerate (ecCount : Byte) (msgLen : BitVec 16)
  | fmtGenerate (version ecLevel maskId : Byte)
  | flavorSelect (len : BitVec 16)
  | msgPack
  | mtxInit (version alignCenter : Byte)
  | mtxFinder
  | mtxSeparator
  | mtxAlign
  | mtxTiming
  | mtxDark
  | mtxReserve
  | mtxPlace (nbits : BitVec 16)
  | mtxMask
  | mtxFormat
  | mtxBuild
  | encode (len : BitVec 16)
  deriving DecidableEq, Repr

end Sys2Proof
end

