-- ==== Sys2Proof/Decode.lean ====
section
/-! DEFINITION. Decoding and encoding of command words (30_encoding.md R80 to R85). A word is presented whole by the
host (20_memory.md R63: no byte order), so the decoder reads one 32-bit word. -/

namespace Sys2Proof

/-- Why a word is no command (30_encoding.md R83). CORE answers both with `IllegalCommand` (R84). -/
inductive DecodeError where
  /-- bits 31..24 are none of the 21 opcodes -/
  | unusedOpcode (opcode : Byte)
  /-- a field the command does not use is not 0 -/
  | reservedFieldNotZero (opcode : Byte)
  deriving DecidableEq, Repr

/-- `word[31:24]` (R81). -/
def opcodeOf (w : Word) : Byte := w.extractLsb' 24 8

/-- `word[23:16]` (R81). -/
def fieldA (w : Word) : Byte := w.extractLsb' 16 8

/-- `word[15:8]` (R81). -/
def fieldB (w : Word) : Byte := w.extractLsb' 8 8

/-- `word[7:0]` (R81). -/
def fieldC (w : Word) : Byte := w.extractLsb' 0 8

/-- `word[15:0]` (R81). -/
def fieldImm (w : Word) : BitVec 16 := w.extractLsb' 0 16

/-- The command `i`, if the fields it does not use are 0; else the word is illegal (R83). -/
def acceptIf (w : Word) (unusedZero : Bool) (i : Instr) : Except DecodeError Instr :=
  if unusedZero then .ok i else .error (.reservedFieldNotZero (opcodeOf w))

/-- Format N: no operand. -/
def formatN (w : Word) (i : Instr) : Except DecodeError Instr :=
  acceptIf w (fieldA w == 0 && fieldB w == 0 && fieldC w == 0) i

/-- Format R with the one operand A. -/
def formatR1 (w : Word) (i : Byte → Instr) : Except DecodeError Instr :=
  acceptIf w (fieldB w == 0 && fieldC w == 0) (i (fieldA w))

/-- Format R with the operands A and B. -/
def formatR2 (w : Word) (i : Byte → Byte → Instr) : Except DecodeError Instr :=
  acceptIf w (fieldC w == 0) (i (fieldA w) (fieldB w))

/-- Format R with the operands A, B and C. -/
def formatR3 (w : Word) (i : Byte → Byte → Byte → Instr) : Except DecodeError Instr :=
  .ok (i (fieldA w) (fieldB w) (fieldC w))

/-- Format I without A. -/
def formatI (w : Word) (i : BitVec 16 → Instr) : Except DecodeError Instr :=
  acceptIf w (fieldA w == 0) (i (fieldImm w))

/-- Format I with A. -/
def formatAI (w : Word) (i : Byte → BitVec 16 → Instr) : Except DecodeError Instr :=
  .ok (i (fieldA w) (fieldImm w))

/-- The command a word is, or why it is none (R82, R83): total on every word. -/
def decode (w : Word) : Except DecodeError Instr :=
  match (opcodeOf w).toNat with
  | 0x10 => formatN w .gfBuild
  | 0x11 => formatR1 w .gfExp
  | 0x12 => formatR1 w .gfLog
  | 0x13 => formatR2 w .gfExpadd
  | 0x20 => formatR1 w .rsGenpoly
  | 0x21 => formatAI w .rsGenerate
  | 0x30 => formatR3 w .fmtGenerate
  | 0x40 => formatI w .flavorSelect
  | 0x41 => formatN w .msgPack
  | 0x50 => formatR2 w .mtxInit
  | 0x51 => formatN w .mtxFinder
  | 0x52 => formatN w .mtxSeparator
  | 0x53 => formatN w .mtxAlign
  | 0x54 => formatN w .mtxTiming
  | 0x55 => formatN w .mtxDark
  | 0x56 => formatN w .mtxReserve
  | 0x57 => formatI w .mtxPlace
  | 0x58 => formatN w .mtxMask
  | 0x59 => formatN w .mtxFormat
  | 0x5F => formatN w .mtxBuild
  | 0x60 => formatI w .encode
  | _ => .error (.unusedOpcode (opcodeOf w))

/-- The decoder on an instruction numbered as spec/opcode_table.json numbers it: one 32-bit word, bit 0 the least
significant; the bits from `nbits` up are 0. -/
def decodeTableWord (nbits w : Nat) : Option Instr :=
  match decode (BitVec.ofNat 32 (w % 2 ^ nbits)) with
  | .ok i => some i
  | .error _ => none

/-- A word of format R (and N, with zeros): opcode, A, B, C from the top (R80). -/
def wordR (opcode a b c : Byte) : Word := opcode ++ a ++ b ++ c

/-- A word of format I: opcode, A, IMM from the top (R80). -/
def wordI (opcode a : Byte) (imm : BitVec 16) : Word := opcode ++ a ++ imm

/-- The word of a command (R82). -/
def encode : Instr → Word
  | .gfBuild => wordR 0x10 0 0 0
  | .gfExp e => wordR 0x11 e 0 0
  | .gfLog v => wordR 0x12 v 0 0
  | .gfExpadd a b => wordR 0x13 a b 0
  | .rsGenpoly ecCount => wordR 0x20 ecCount 0 0
  | .rsGenerate ecCount msgLen => wordI 0x21 ecCount msgLen
  | .fmtGenerate version ecLevel maskId => wordR 0x30 version ecLevel maskId
  | .flavorSelect len => wordI 0x40 0 len
  | .msgPack => wordR 0x41 0 0 0
  | .mtxInit version alignCenter => wordR 0x50 version alignCenter 0
  | .mtxFinder => wordR 0x51 0 0 0
  | .mtxSeparator => wordR 0x52 0 0 0
  | .mtxAlign => wordR 0x53 0 0 0
  | .mtxTiming => wordR 0x54 0 0 0
  | .mtxDark => wordR 0x55 0 0 0
  | .mtxReserve => wordR 0x56 0 0 0
  | .mtxPlace nbits => wordI 0x57 0 nbits
  | .mtxMask => wordR 0x58 0 0 0
  | .mtxFormat => wordR 0x59 0 0 0
  | .mtxBuild => wordR 0x5F 0 0 0
  | .encode len => wordI 0x60 0 len

end Sys2Proof
end

