-- ==== Sys2Proof/Config.lean ====
section
/-! DEFINITION. The parameters of 00_scope.md R8, the flavor table of 43_msg.md R160, R161 and R168 (the one OPEN
parameter), and the free value of the memories after reset. -/

namespace Sys2Proof

/-- One flavor (43_msg.md R160): capacity, version, error-correction level (0 L, 1 M, 2 Q, 3 H), number of
error-correction codewords, alignment centre (0 = none). The widths are those of the flavor registers, 10_state.md R27. -/
structure Flavor where
  capacity    : BitVec 8
  version     : BitVec 3
  ecLevel     : BitVec 2
  ecCount     : BitVec 8
  alignCenter : BitVec 6
  deriving DecidableEq, Repr

namespace Config

/-- `GF_POLY`, x^8 + x^4 + x^3 + x^2 + 1. -/
def gfPoly : BitVec 9 := 0x11D

/-- `GF_TABLE_LEN`, entries of each of the two tables. -/
def gfTableLen : Nat := 256

/-- `EC_MIN`. -/
def ecMin : Nat := 7

/-- `EC_MAX`. -/
def ecMax : Nat := 254

/-- `MSG_MAX`, bytes per division. -/
def msgMax : Nat := 256

/-- `FMT_GEN15`. -/
def fmtGen15 : BitVec 18 := 0b10100110111

/-- `FMT_MASK15`. -/
def fmtMask15 : BitVec 18 := 0b101010000010010

/-- `FMT_GEN18`. -/
def fmtGen18 : BitVec 18 := 0b1111100100101

/-- `FMT_VERSION_MAX`. -/
def fmtVersionMax : Nat := 40

/-- `MODE_BYTE`, the byte-mode indicator; CSR `MODE` is hard-wired to it (10_state.md R29). -/
def modeByte : Nat := 4

/-- `PAD0`. -/
def pad0 : Byte := 0xEC

/-- `PAD1`. -/
def pad1 : Byte := 0x11

/-- `MAX_PAYLOAD`, bytes of the longest text. -/
def maxPayload : Nat := 106

/-- `MASK_ID`; CSR `MASK_ID` is hard-wired to it (10_state.md R29). -/
def maskId : Nat := 6

/-- `VERSION_MIN` of the matrix builder. -/
def mtxVersionMin : Nat := 1

/-- `VERSION_MAX` of the matrix builder. -/
def mtxVersionMax : Nat := 5

/-- `SIZE(v)` = 21 + 4 × (v − 1). -/
def symbolSize (version : Nat) : Nat := 21 + 4 * (version - 1)

/-- `SIZE_MAX` = `SIZE(VERSION_MAX)`, the side of the largest symbol (90_conflicts.md C4). -/
def sizeMax : Nat := symbolSize mtxVersionMax

/-- `N_FLAVORS`. -/
def flavorCount : Nat := 11

/-- The free cells of a symbol of each version before placement (43_msg.md R168 (i), 44_matrix.md R193). -/
def freeCells : Nat → Nat
  | 1 => 208
  | 2 => 359
  | 3 => 567
  | 4 => 807
  | 5 => 1079
  | _ => 0

/-- 43_msg.md R168 (e) to (i) for one row; (f) holds of every two-bit level. -/
def flavorOk (f : Flavor) : Bool :=
  decide (mtxVersionMin ≤ f.version.toNat ∧ f.version.toNat ≤ mtxVersionMax) &&
  decide (f.alignCenter = 0 ∨
    2 ≤ f.alignCenter.toNat ∧ f.alignCenter.toNat + 3 ≤ symbolSize f.version.toNat) &&
  decide (ecMin ≤ f.ecCount.toNat ∧ f.ecCount.toNat ≤ ecMax) &&
  decide (8 * (f.capacity.toNat + 2 + f.ecCount.toNat) ≤ freeCells f.version.toNat)

/-- 43_msg.md R168 (b): the capacities strictly ascend. -/
def ascending : List Flavor → Bool
  | a :: b :: rest => decide (a.capacity.toNat < b.capacity.toNat) && ascending (b :: rest)
  | _ => true

/-- 43_msg.md R168, all of it: (a) eleven rows, (b) ascending, (c) row 0, (d) row 10, (e) to (i) every row. -/
def flavorTableOk (rows : List Flavor) : Bool :=
  decide (rows.length = flavorCount) && ascending rows &&
  decide (rows.head?.map (fun f => (f.capacity, f.ecCount)) = some (7, 17)) &&
  decide (rows.getLast?.map (fun f => f.capacity.toNat) = some maxPayload) &&
  rows.all flavorOk

end Config

/-- `FLAVOR_TABLE`, the open parameter, with the proof that it is admissible, as 93 U3 asks
("the model's configuration type should carry rule R168 as a well-formedness proof"). -/
structure FlavorTable where
  rows       : List Flavor
  admissible : Config.flavorTableOk rows = true
  deriving DecidableEq, Repr

namespace Config

/-- The default rows of 43_msg.md R161. PRESUMED: the spec marks them as general knowledge (93 G5);
unsafe for a claim about the source repository that rests on a row (notes/assumptions/5.md). -/
def defaultRows : List Flavor :=
  [⟨7, 1, 3, 17, 0⟩, ⟨11, 1, 2, 13, 0⟩, ⟨14, 1, 1, 10, 0⟩, ⟨17, 1, 0, 7, 0⟩] ++
  [⟨20, 2, 2, 22, 18⟩, ⟨26, 2, 1, 16, 18⟩, ⟨32, 2, 0, 10, 18⟩] ++
  [⟨42, 3, 1, 26, 22⟩, ⟨53, 3, 0, 15, 22⟩] ++
  [⟨78, 4, 0, 20, 26⟩, ⟨106, 5, 0, 26, 30⟩]

/-- The default table (43_msg.md R161: "The default table of rule R161 satisfies all nine", R168). -/
def defaultTable : FlavorTable := ⟨defaultRows, by decide⟩

/-- FREE VALUE: the byte that an element of a memory holds between a reset and the first write to it. The arguments
are the number of the reset, the memory and the index, so the byte "stays what it is until written" and the next
reset draws another (93 U1, 10_state.md R43). It has no body: nothing can be proved of it (notes/assumptions/3.md). -/
opaque freeByte : Nat → Nat → Nat → Byte

end Config
end Sys2Proof
end

