-- ==== Sys2Proof/Machine/State.lean ====
section
/-! DEFINITION. The state of CORE (10_state.md), the reasons a step can stop, and the state after reset. -/

namespace Sys2Proof.Machine

/-- The completion codes of 60_exceptions.md R240. `outOfMemory` and `ioError` are never produced (R242, R243) and are
kept so that the register can be read by name. -/
inductive Status where
  | ok
  | invalidParameter
  | outOfMemory
  | textTooLong
  | ioError
  | illegalCommand
  deriving DecidableEq, Repr

/-- `FLAGS` (10_state.md R25): bit 0, bit 1, bit 2. -/
structure Flags where
  gfValid     : Bool
  flavorValid : Bool
  mtxDone     : Bool
  deriving DecidableEq, Repr

/-- The vertical direction of the walk, `CUR_DIR`: 0 Up, 1 Down (10_state.md R40). -/
inductive Direction where
  | up
  | down
  deriving DecidableEq, Repr

/-- The placement cursor (10_state.md R40). `col` is the 6-bit register, 63 standing for −1, exhausted (R41); `onLeft`
is `CUR_FLAG`: the cursor stands on the left column of its pair. -/
structure Cursor where
  row    : BitVec 6
  col    : BitVec 6
  dir    : Direction
  onLeft : Bool
  deriving DecidableEq, Repr

/-- One module of the matrix: the three Booleans by name (10_state.md R36). -/
structure QrModule where
  value  : Bool
  taken  : Bool
  isData : Bool
  deriving DecidableEq, Repr

/-- A memory of bytes: the elements written since reset, by index, the indices strictly rising. An element that is not
listed has not been written since reset (notes/assumptions/4.md). -/
abbrev Memory := List Host.Cell

/-- The matrix: the modules that are not zero, by index row × 64 + col, the indices strictly rising (10_state.md R35). -/
abbrev Grid := List (Nat × QrModule)

/-- The memories of bytes (10_state.md R30): spaces 1 to 5, and the hidden scratch `REM` (R38). -/
inductive Space where
  | payload
  | cw
  | gen
  | gfExp
  | gfLog
  | rem
  deriving DecidableEq, Repr

/-- What the outside does to CORE: the three host actions of 20_memory.md R60 and reset (70_reset_and_hazards.md R260). -/
inductive HostAction where
  | write (space index : Nat) (value : Byte)
  | read (space index : Nat)
  | command (word : Word)
  | reset
  deriving DecidableEq, Repr

/-- CORE never faults: a command that cannot run is refused by a status code and CORE goes on (60_exceptions.md R247).
The type has no constructor, so that no step can end in a fault. -/
inductive Fault where
  deriving DecidableEq, Repr

/-- Why the model gives a step no meaning. -/
inductive Refusal where
  /-- Raised by an arm of `exec` whose instruction has no meaning yet; no arm raises it. Safe: the model stops. -/
  | notModelled (mnemonic : String)
  deriving DecidableEq, Repr

/-- Everything 10_state.md gives CORE (R22 to R42), then the model's own fields. `MASK_ID` and `MODE` are hard-wired
(R22) and have no storage: `csrRead` gives them. -/
structure State where
  /-- CSR 0x00 `STATUS` -/
  status     : Status
  /-- CSR 0x01 `RESULT` -/
  result     : Byte
  /-- CSR 0x02 `FLAGS` -/
  flags      : Flags
  /-- CSR 0x03 `PAYLOAD_LEN` -/
  payloadLen : BitVec 8
  /-- CSR 0x04 `FLAVOR_IDX` -/
  flavorIdx  : BitVec 4
  /-- CSR 0x05 to 0x09: `CAPACITY`, `VERSION`, `EC_LEVEL`, `EC_COUNT`, `ALIGN_CENTER` -/
  flavor     : Flavor
  /-- CSR 0x0A `CW_DATA_LEN` -/
  cwDataLen  : BitVec 9
  /-- CSR 0x0B `CW_TOTAL_LEN` -/
  cwTotalLen : BitVec 10
  /-- CSR 0x0C `GEN_LEN` -/
  genLen     : BitVec 8
  /-- CSR 0x0D `FORMAT` -/
  format     : BitVec 18
  /-- CSR 0x10 `MTX_VERSION` -/
  mtxVersion : BitVec 3
  /-- CSR 0x11 `MTX_SIZE` -/
  mtxSize    : BitVec 6
  /-- CSR 0x12 `MTX_ALIGN` -/
  mtxAlign   : BitVec 6
  /-- CSR 0x13 to 0x16: `CUR_ROW`, `CUR_COL`, `CUR_DIR`, `CUR_FLAG` -/
  cursor     : Cursor
  /-- CSR 0x17 `STREAM_BITPOS` -/
  bitpos     : BitVec 13
  /-- space 1 `PAYLOAD` -/
  payload    : Memory
  /-- space 2 `CW` -/
  cw         : Memory
  /-- space 3 `GEN` -/
  gen        : Memory
  /-- space 4 `GF_EXP` -/
  gfExp      : Memory
  /-- space 5 `GF_LOG` -/
  gfLog      : Memory
  /-- hidden scratch `REM` (R38) -/
  rem        : Memory
  /-- space 6 `MATRIX` -/
  matrix     : Grid
  /-- the argument `FLAVOR_TABLE` (00_scope.md R8); no action changes it -/
  flavors    : FlavorTable
  /-- the number of resets so far: the memories' free bytes are drawn anew by each (notes/assumptions/3.md) -/
  resets     : Nat
  /-- the host actions still to come, the next one first (notes/assumptions/1.md) -/
  inbox      : List HostAction
  /-- what the host's reads have returned, oldest first (20_memory.md R60) -/
  reads      : List Word
  deriving DecidableEq, Repr

/-- The state after reset (10_state.md R43, 70_reset_and_hazards.md R261): every register 0, no element written. -/
def State.reset : State where
  status     := .ok
  result     := 0
  flags      := ⟨false, false, false⟩
  payloadLen := 0
  flavorIdx  := 0
  flavor     := ⟨0, 0, 0, 0, 0⟩
  cwDataLen  := 0
  cwTotalLen := 0
  genLen     := 0
  format     := 0
  mtxVersion := 0
  mtxSize    := 0
  mtxAlign   := 0
  cursor     := ⟨0, 0, .up, false⟩
  bitpos     := 0
  payload    := []
  cw         := []
  gen        := []
  gfExp      := []
  gfLog      := []
  rem        := []
  matrix     := []
  flavors    := Config.defaultTable
  resets     := 0
  inbox      := []
  reads      := []

end Sys2Proof.Machine
end

