-- ==== Sys2Proof/Machine/Ops.lean ====
section
/-! DEFINITION. The operations every command shares: the sparse lists under the memories and the matrix, reading and
writing one element (00_scope.md R10, 20_memory.md R62, R69), a block of elements, one module (10_state.md R35), and the
two ways a command ends (00_scope.md R11). -/

namespace Sys2Proof.Machine

/-! ### Sparse lists: entries by index, the indices strictly rising -/

/-- The entry at an index, if one is listed. -/
def Sparse.find {α : Type} : List (Nat × α) → Nat → Option α
  | [], _ => none
  | (k, v) :: rest, i => if k = i then some v else Sparse.find rest i

/-- Store an entry, in its place in the rising order. -/
def Sparse.put {α : Type} : List (Nat × α) → Nat → α → List (Nat × α)
  | [], i, v => [(i, v)]
  | (k, w) :: rest, i, v =>
    if i < k then (i, v) :: (k, w) :: rest
    else if i = k then (i, v) :: rest
    else (k, w) :: Sparse.put rest i v

/-- Remove the entry at an index. -/
def Sparse.drop {α : Type} : List (Nat × α) → Nat → List (Nat × α)
  | [], _ => []
  | (k, w) :: rest, i => if k = i then Sparse.drop rest i else (k, w) :: Sparse.drop rest i

/-- The indices strictly rise, the first of them at least `lo`. -/
def Sparse.risingFrom {α : Type} (lo : Nat) : List (Nat × α) → Bool
  | [] => true
  | (k, _) :: rest => decide (lo ≤ k) && Sparse.risingFrom (k + 1) rest

/-! ### Memories of bytes -/

/-- The number of elements (10_state.md R30; `REM`: R38). -/
def Space.elements : Space → Nat
  | .payload => Config.maxPayload
  | .cw => 512
  | .gen => 255
  | .gfExp => Config.gfTableLen
  | .gfLog => Config.gfTableLen
  | .rem => 510

/-- A number for each memory: its space number (R30), and 0 for `REM`, which is in no host space. It only tells the
memories' free bytes apart. -/
def Space.number : Space → Nat
  | .payload => 1
  | .cw => 2
  | .gen => 3
  | .gfExp => 4
  | .gfLog => 5
  | .rem => 0

/-- The canonical form of a memory of `n` elements: the indices strictly rise and lie inside the memory. An unlisted
element has no listed value, so no entry can equal what an unlisted index holds (notes/assumptions/4.md). -/
def Memory.wf (n : Nat) (m : Memory) : Bool :=
  Sparse.risingFrom 0 m && m.all fun cell => decide (cell.1 < n)

/-- Write one element of a memory of `n`; outside it the write is ignored (20_memory.md R62). -/
def Memory.put (n : Nat) (m : Memory) (i : Nat) (v : Byte) : Memory :=
  if i < n then Sparse.put m i v else m

/-- Write bytes at consecutive indices. -/
def Memory.store (n : Nat) (m : Memory) (base : Nat) : List Byte → Memory
  | [] => m
  | b :: rest => Memory.store n (Memory.put n m base b) (base + 1) rest

/-- The memory of a space. -/
def State.bank (s : State) : Space → Memory
  | .payload => s.payload
  | .cw => s.cw
  | .gen => s.gen
  | .gfExp => s.gfExp
  | .gfLog => s.gfLog
  | .rem => s.rem

/-- The state with another memory for a space. -/
def State.withBank (s : State) (sp : Space) (m : Memory) : State :=
  match sp with
  | .payload => { s with payload := m }
  | .cw => { s with cw := m }
  | .gen => { s with gen := m }
  | .gfExp => { s with gfExp := m }
  | .gfLog => { s with gfLog := m }
  | .rem => { s with rem := m }

/-- `MemRead(SPACE, i)` (00_scope.md R10): the last value written since reset, else the free byte that the reset left
there (10_state.md R43, 93 U1); 0 outside the memory (20_memory.md R62). -/
def State.read (s : State) (sp : Space) (i : Nat) : Byte :=
  if i < sp.elements then (Sparse.find (s.bank sp) i).getD (Config.freeByte s.resets sp.number i) else 0

/-- `MemWrite(SPACE, i, v)` (00_scope.md R10). -/
def State.write (s : State) (sp : Space) (i : Nat) (v : Byte) : State :=
  s.withBank sp (Memory.put sp.elements (s.bank sp) i v)

/-- `MemWrite` of bytes at consecutive indices from `base`. -/
def State.store (s : State) (sp : Space) (base : Nat) (bytes : List Byte) : State :=
  s.withBank sp (Memory.store sp.elements (s.bank sp) base bytes)

/-- `MemRead` of `n` consecutive elements from `base`. -/
def State.block (s : State) (sp : Space) (base n : Nat) : List Byte :=
  (List.range n).map fun k => s.read sp (base + k)

/-! ### The matrix -/

/-- The module of a freshly initialised cell: light, free, not data (44_matrix.md R181). -/
def QrModule.zero : QrModule := ⟨false, false, false⟩

/-- The index of a cell (10_state.md R35). -/
def gridIndex (row col : Nat) : Nat := row * 64 + col

/-- `M[r][c]` in a symbol of `size`: outside the symbol it reads 0 (10_state.md R35). -/
def Grid.get (size : Nat) (g : Grid) (row col : Nat) : QrModule :=
  if row < size ∧ col < size then (Sparse.find g (gridIndex row col)).getD QrModule.zero else QrModule.zero

/-- `M[r][c] <- m` in a symbol of `size`: outside the symbol nothing is ever written (10_state.md R35). A zero module is
not listed. -/
def Grid.set (size : Nat) (g : Grid) (row col : Nat) (m : QrModule) : Grid :=
  if row < size ∧ col < size then
    if m = QrModule.zero then Sparse.drop g (gridIndex row col) else Sparse.put g (gridIndex row col) m
  else g

/-- Change one module. -/
def Grid.update (size : Nat) (g : Grid) (cell : Nat × Nat) (f : QrModule → QrModule) : Grid :=
  Grid.set size g cell.1 cell.2 (f (Grid.get size g cell.1 cell.2))

/-- The canonical form of the matrix of a symbol of `size`: indices strictly rising, all inside the symbol, and no
listed module zero. -/
def Grid.wf (size : Nat) (g : Grid) : Bool :=
  Sparse.risingFrom 0 g &&
    g.all fun e => decide (e.1 / 64 < size) && decide (e.1 % 64 < size) && decide (e.2 ≠ QrModule.zero)

/-- `CSR.MTX_SIZE` as a number. -/
def State.size (s : State) : Nat := s.mtxSize.toNat

/-- `M[r][c]` of the current symbol. -/
def State.cell (s : State) (row col : Nat) : QrModule := Grid.get s.size s.matrix row col

/-! ### The end of a command -/

/-- `raise <Status>`: the command is refused; `STATUS` takes the code and nothing else changes (00_scope.md R11,
60_exceptions.md R247). This is CORE's one exceptional mechanism; the return from it is the host's next command, which
needs no preparation (R247). -/
def State.raise (code : Status) (s : State) : State := { s with status := code }

/-- A command that reaches its end: `CSR.STATUS <- OK` (00_scope.md R11). -/
def State.complete (s : State) : State := { s with status := .ok }

/-- The code of a status (60_exceptions.md R240). -/
def Status.code : Status → BitVec 3
  | .ok => 0
  | .invalidParameter => 1
  | .outOfMemory => 2
  | .textTooLong => 3
  | .ioError => 4
  | .illegalCommand => 5

/-- The code of a direction (10_state.md R40). -/
def Direction.code : Direction → BitVec 1
  | .up => 0
  | .down => 1

end Sys2Proof.Machine
end

