-- ==== Sys2Proof/Machine/Flags.lean ====
section
/-! DEFINITION. The three status flags (10_state.md R25): the word `FLAGS` reads as, and the writes commands make. CORE
has no condition codes; no command reads a flag except as a precondition. -/

namespace Sys2Proof.Machine

/-- `FLAGS`: bit 0 `GF_VALID`, bit 1 `FLAVOR_VALID`, bit 2 `MTX_DONE`. -/
def Flags.word (f : Flags) : BitVec 3 :=
  BitVec.ofBool f.mtxDone ++ BitVec.ofBool f.flavorValid ++ BitVec.ofBool f.gfValid

/-- `FLAGS.GF_VALID <- 1`: set by `GF_BUILD` and `ENCODE`. -/
def State.setGfValid (s : State) : State := { s with flags := { s.flags with gfValid := true } }

/-- `FLAGS.FLAVOR_VALID <- 1`: set by a successful `FLAVOR_SELECT` or `ENCODE`. -/
def State.setFlavorValid (s : State) : State := { s with flags := { s.flags with flavorValid := true } }

/-- `FLAGS.MTX_DONE <- b`: set by `MTX_BUILD` and `ENCODE`, cleared by `MTX_INIT` and every step command. -/
def State.setMtxDone (s : State) (b : Bool) : State := { s with flags := { s.flags with mtxDone := b } }

end Sys2Proof.Machine
end

