-- ==== Sys2Proof/Machine/Operands.lean ====
section
/-! DEFINITION. The operand checks of the commands (60_exceptions.md R241, R244), each on the operand zero-extended to a
number (30_encoding.md R81). Operand fields themselves are assembled in Decode.lean. -/

namespace Sys2Proof.Machine

/-- `ec_count` in [7, 254] (41_rs.md R126, R127). -/
def ecCountLegal (ecCount : Nat) : Bool := decide (Config.ecMin ≤ ecCount ∧ ecCount ≤ Config.ecMax)

/-- `msg_len` at most 256 (41_rs.md R127). -/
def msgLenLegal (msgLen : Nat) : Bool := decide (msgLen ≤ Config.msgMax)

/-- `version` in 1..40, the format encoder's range (42_fmt.md R140). -/
def fmtVersionLegal (version : Nat) : Bool := decide (1 ≤ version ∧ version ≤ Config.fmtVersionMax)

/-- `ec_level` in 0..3 (42_fmt.md R140). -/
def ecLevelLegal (ecLevel : Nat) : Bool := decide (ecLevel ≤ 3)

/-- `mask_id` in 0..7 (42_fmt.md R140). -/
def maskIdLegal (maskId : Nat) : Bool := decide (maskId ≤ 7)

/-- `version` in 1..5, the matrix builder's range (44_matrix.md R181). -/
def mtxVersionLegal (version : Nat) : Bool := decide (Config.mtxVersionMin ≤ version ∧ version ≤ Config.mtxVersionMax)

/-- `align_center` is 0 or lies in 2..size−3 (44_matrix.md R181). -/
def alignCenterLegal (size alignCenter : Nat) : Bool :=
  decide (alignCenter = 0 ∨ 2 ≤ alignCenter ∧ alignCenter + 3 ≤ size)

end Sys2Proof.Machine
end

