-- ==== Sys2Proof/Machine/FormatEncoder.lean ====
section
/-! DEFINITION. bch_format_encoder (42_fmt.md): the binary polynomial reduction, the 15-bit and 18-bit strings, and
FMT_GENERATE. -/

namespace Sys2Proof.Machine

/-- `bitlen(v)` (00_scope.md R9): the number of significant bits, 0 of 0. -/
def bitlen (v : Nat) : Nat := if v = 0 then 0 else Nat.log2 v + 1

/-- `polydiv` (42_fmt.md R141) for at most `fuel` passes. Each pass clears the top set bit and sets none above it, so
`bitlen(field)` passes are enough. -/
def polydivLoop (gen : BitVec 18) (target : Nat) : Nat → BitVec 18 → BitVec 18
  | 0, field => field
  | fuel + 1, field =>
    if target < bitlen field.toNat then
      polydivLoop gen target fuel (field ^^^ (gen <<< (bitlen field.toNat - bitlen gen.toNat)))
    else field

/-- `polydiv(field, gen, target)` (R141). -/
def polydiv (field gen : BitVec 18) (target : Nat) : BitVec 18 :=
  polydivLoop gen target (bitlen field.toNat) field

/-- `fmt15(ec_level, mask_id)` (R142), with the level remapped by `xor 1` (R143). -/
def fmt15 (ecLevel maskId : BitVec 18) : BitVec 18 :=
  let data := ((ecLevel ^^^ 1) <<< 3) ||| maskId
  let field := data <<< 10
  (field ||| polydiv field Config.fmtGen15 10) ^^^ Config.fmtMask15

/-- `fmt18(version)` (R144). -/
def fmt18 (version : BitVec 18) : BitVec 18 :=
  let field := version <<< 12
  field ||| polydiv field Config.fmtGen18 12

/-- `fmt_generate(version, ec_level, mask_id)` (R140); `none` where it raises `InvalidParameter`. -/
def fmtGenerate (version ecLevel maskId : Nat) : Option (BitVec 18) :=
  if !fmtVersionLegal version then none
  else if !ecLevelLegal ecLevel then none
  else if !maskIdLegal maskId then none
  else if version < 7 then some (fmt15 (BitVec.ofNat 18 ecLevel) (BitVec.ofNat 18 maskId))
  else some (fmt18 (BitVec.ofNat 18 version))

/-- `CSR.FORMAT <- v`. -/
def State.setFormat (s : State) (v : BitVec 18) : State := { s with format := v }

/-- `FMT_GENERATE version, ec_level, mask_id` (R145). -/
def execFmtGenerate (version ecLevel maskId : Byte) (s : State) : Host.Outcome State Fault Refusal :=
  match fmtGenerate version.toNat ecLevel.toNat maskId.toNat with
  | some v => .next (s.setFormat v).complete
  | none => .next (s.raise .invalidParameter)

end Sys2Proof.Machine
end

