-- ==== Sys2Proof/Machine/GaloisField.lean ====
section
/-! DEFINITION. galois_field_lut (40_gf.md): the tables, the exponent-domain product, and GF_BUILD, GF_EXP, GF_LOG,
GF_EXPADD. -/

namespace Sys2Proof.Machine

/-- One step of the running value of 40_gf.md R101: double, and reduce by `GF_POLY` when above 255. -/
def gfDouble (v : BitVec 9) : BitVec 9 :=
  let d := v <<< 1
  if 255 < d.toNat then d ^^^ Config.gfPoly else d

/-- The loop of `gf_build()` (R101) for `n` more exponents from `e`, where the running value is `v`, over the two
tables. -/
def gfFill : Nat → Nat → BitVec 9 → Memory → Memory → Memory × Memory
  | 0, _, _, expTable, logTable => (expTable, logTable)
  | n + 1, e, v, expTable, logTable =>
    gfFill n (e + 1) (gfDouble v)
      (Memory.put Space.gfExp.elements expTable e (v.setWidth 8))
      (Memory.put Space.gfLog.elements logTable v.toNat (BitVec.ofNat 8 e))

/-- `gf_build()` (R101): the loop over 0..255, then `GF_LOG[0] <- 0` and `GF_LOG[1] <- 0` (90_conflicts.md C1). -/
def gfBuild (s : State) : State :=
  let tables := gfFill Config.gfTableLen 0 1 s.gfExp s.gfLog
  let logTable := Memory.put Space.gfLog.elements tables.2 0 0
  { s with gfExp := tables.1, gfLog := Memory.put Space.gfLog.elements logTable 1 0 }

/-- `expadd(a, b)` (R104): the 8-bit sum with its carry added back in. -/
def expadd (a b : Byte) : Byte :=
  let sum := a.toNat + b.toNat
  if 255 < sum then BitVec.ofNat 8 sum + 1 else BitVec.ofNat 8 sum

/-- `GF_EXP[e]`. -/
def State.expAt (s : State) (e : Byte) : Byte := s.read .gfExp e.toNat

/-- `GF_LOG[v]`. -/
def State.logAt (s : State) (v : Byte) : Byte := s.read .gfLog v.toNat

/-- `CSR.RESULT <- v`. -/
def State.setResult (s : State) (v : Byte) : State := { s with result := v }

/-- `GF_BUILD` (R106): no refusal. -/
def execGfBuild (s : State) : Host.Outcome State Fault Refusal :=
  .next (gfBuild s).setGfValid.complete

/-- `GF_EXP e` (R107). -/
def execGfExp (e : Byte) (s : State) : Host.Outcome State Fault Refusal :=
  if s.flags.gfValid then .next (s.setResult (s.expAt e)).complete
  else .next (s.raise .invalidParameter)

/-- `GF_LOG v` (R108): `v` = 0 is not refused. -/
def execGfLog (v : Byte) (s : State) : Host.Outcome State Fault Refusal :=
  if s.flags.gfValid then .next (s.setResult (s.logAt v)).complete
  else .next (s.raise .invalidParameter)

/-- `GF_EXPADD a, b` (R109): no refusal, and no table needed. -/
def execGfExpadd (a b : Byte) (s : State) : Host.Outcome State Fault Refusal :=
  .next (s.setResult (expadd a b)).complete

end Sys2Proof.Machine
end

