-- ==== Sys2Proof/Machine/MatrixBuilder.lean ====
section
/-! DEFINITION. qr_matrix_builder (44_matrix.md): initialisation, the structural stamps (steps 1 to 6), the mask
(mask_applier, step 8) and the format stamping (step 9), with their commands. The templates and cell lists are the ones
the spec marks as general knowledge (93 G6 to G10, G12; notes/assumptions/13.md). -/

namespace Sys2Proof.Machine

/-! ### Initialisation -/

/-- `mtx_init(version, align_center)` (R181): the geometry registers, the zero grid, the cursor in the bottom-right
corner, the stream position 0, `MTX_DONE` cleared. The grid is emptied whole (notes/assumptions/7.md). -/
def mtxInit (version alignCenter : Nat) (s : State) : State :=
  let size := Config.symbolSize version
  let corner := BitVec.ofNat 6 (size - 1)
  { s.setMtxDone false with
    mtxVersion := BitVec.ofNat 3 version
    mtxSize := BitVec.ofNat 6 size
    mtxAlign := BitVec.ofNat 6 alignCenter
    matrix := []
    cursor := ⟨corner, corner, .up, false⟩
    bitpos := 0 }

/-- The operand checks of `MTX_INIT` (R181). -/
def mtxInitLegal (version alignCenter : Nat) : Bool :=
  mtxVersionLegal version && alignCenterLegal (Config.symbolSize version) alignCenter

/-- `MTX_INIT version, align_center` (R181). -/
def execMtxInit (version alignCenter : Byte) (s : State) : Host.Outcome State Fault Refusal :=
  if mtxInitLegal version.toNat alignCenter.toNat then
    .next (mtxInit version.toNat alignCenter.toNat s).complete
  else .next (s.raise .invalidParameter)

/-! ### What every step command shares -/

/-- The common part of the step commands (R183): refused while there is no matrix; else `MTX_DONE` is cleared and the
step's body runs. -/
def matrixStep (body : State → State) (s : State) : Host.Outcome State Fault Refusal :=
  if s.mtxSize = 0 then .next (s.raise .invalidParameter)
  else .next (body (s.setMtxDone false)).complete

/-! ### Structural stamps -/

/-- `stamp` of a value on a module (R182): `is_data` stays. -/
def stampModule (v : Bool) (m : QrModule) : QrModule := { m with value := v, taken := true }

/-- `stamp(r, c, v)` (R182) for a list of cells and values, in order. -/
def stampAll (size : Nat) : List ((Nat × Nat) × Bool) → Grid → Grid
  | [], g => g
  | (cell, v) :: rest, g => stampAll size rest (Grid.update size g cell (stampModule v))

/-- The distance of two numbers. -/
def distance (a b : Nat) : Nat := (a - b) + (b - a)

/-- The finder template `F[i][j]` (R184). -/
def finderDark (i j : Nat) : Bool := decide (max (distance i 3) (distance j 3) ≠ 2)

/-- The alignment template `A[i][j]` (R187). -/
def alignDark (i j : Nat) : Bool := decide (max (distance i 2) (distance j 2) ≠ 1)

/-- The cells of an `n` × `n` square whose top-left cell is `(r0, c0)`, with a template. -/
def squareStamps (n r0 c0 : Nat) (dark : Nat → Nat → Bool) : List ((Nat × Nat) × Bool) :=
  (List.range n).flatMap fun i => (List.range n).map fun j => ((r0 + i, c0 + j), dark i j)

/-- The stamps of `MTX_FINDER` (R185): top-left, top-right, bottom-left. -/
def finderStamps (size : Nat) : List ((Nat × Nat) × Bool) :=
  squareStamps 7 0 0 finderDark ++ squareStamps 7 0 (size - 7) finderDark ++ squareStamps 7 (size - 7) 0 finderDark

/-- The stamps of `MTX_SEPARATOR` (R186). -/
def separatorStamps (size : Nat) : List ((Nat × Nat) × Bool) :=
  (List.range 8).flatMap fun k =>
    [((7, k), false), ((k, 7), false),
     ((7, size - 8 + k), false), ((k, size - 8), false),
     ((size - 8, k), false), ((size - 8 + k, 7), false)]

/-- The stamps of `MTX_ALIGN` (R188): none for the centre 0. -/
def alignStamps (center : Nat) : List ((Nat × Nat) × Bool) :=
  if center = 0 then [] else squareStamps 5 (center - 2) (center - 2) alignDark

/-- The stamps of `MTX_TIMING` (R189): indices 8 to size−9 of row 6 and column 6, dark at even ones. -/
def timingStamps (size : Nat) : List ((Nat × Nat) × Bool) :=
  (List.range (size - 16)).flatMap fun k =>
    [((6, 8 + k), decide ((8 + k) % 2 = 0)), ((8 + k, 6), decide ((8 + k) % 2 = 0))]

/-- The stamp of `MTX_DARK` (R190). -/
def darkStamps (version : Nat) : List ((Nat × Nat) × Bool) := [((4 * version + 9, 8), true)]

/-- The 33 cells of the format bands (R191). -/
def bandCells (size : Nat) : List (Nat × Nat) :=
  (List.range 9).map (fun c => (8, c)) ++ (List.range 8).map (fun r => (r, 8)) ++
  (List.range 8).map (fun k => (8, size - 8 + k)) ++ (List.range 8).map (fun k => (size - 8 + k, 8))

/-- Reserving one module (R192): `taken` is set where it is not, the rest stays. -/
def reserveModule (m : QrModule) : QrModule := if m.taken then m else { m with taken := true }

/-- Change every cell of a list, in order. -/
def updateAll (size : Nat) (f : Nat × Nat → QrModule → QrModule) : List (Nat × Nat) → Grid → Grid
  | [], g => g
  | cell :: rest, g => updateAll size f rest (Grid.update size g cell (f cell))

/-- The state with the stamps made. -/
def State.stamped (s : State) (stamps : List ((Nat × Nat) × Bool)) : State :=
  { s with matrix := stampAll s.size stamps s.matrix }

/-- The body of `MTX_FINDER` (R185). -/
def mtxFinder (s : State) : State := s.stamped (finderStamps s.size)

/-- The body of `MTX_SEPARATOR` (R186). -/
def mtxSeparator (s : State) : State := s.stamped (separatorStamps s.size)

/-- The body of `MTX_ALIGN` (R188). -/
def mtxAlign (s : State) : State := s.stamped (alignStamps s.mtxAlign.toNat)

/-- The body of `MTX_TIMING` (R189). -/
def mtxTiming (s : State) : State := s.stamped (timingStamps s.size)

/-- The body of `MTX_DARK` (R190). -/
def mtxDark (s : State) : State := s.stamped (darkStamps s.mtxVersion.toNat)

/-- The body of `MTX_RESERVE` (R192). -/
def mtxReserve (s : State) : State :=
  { s with matrix := updateAll s.size (fun _ => reserveModule) (bandCells s.size) s.matrix }

/-- `MTX_FINDER` (R185). -/
def execMtxFinder (s : State) : Host.Outcome State Fault Refusal := matrixStep mtxFinder s

/-- `MTX_SEPARATOR` (R186). -/
def execMtxSeparator (s : State) : Host.Outcome State Fault Refusal := matrixStep mtxSeparator s

/-- `MTX_ALIGN` (R188). -/
def execMtxAlign (s : State) : Host.Outcome State Fault Refusal := matrixStep mtxAlign s

/-- `MTX_TIMING` (R189). -/
def execMtxTiming (s : State) : Host.Outcome State Fault Refusal := matrixStep mtxTiming s

/-- `MTX_DARK` (R190). -/
def execMtxDark (s : State) : Host.Outcome State Fault Refusal := matrixStep mtxDark s

/-- `MTX_RESERVE` (R192). -/
def execMtxReserve (s : State) : Host.Outcome State Fault Refusal := matrixStep mtxReserve s

/-! ### The mask (mask_applier) -/

/-- `maskbit(r, c)` (R200), mask id 6. -/
def maskbit (row col : Nat) : Bool := decide (((row * col) % 2 + (row * col) % 3) % 2 = 0)

/-- Masking one module (R201): data cells and free cells only. -/
def maskModule (cell : Nat × Nat) (m : QrModule) : QrModule :=
  if m.isData || !m.taken then { m with value := xor m.value (maskbit cell.1 cell.2) } else m

/-- Every cell of a symbol, row by row. -/
def symbolCells (size : Nat) : List (Nat × Nat) :=
  (List.range size).flatMap fun r => (List.range size).map fun c => (r, c)

/-- The body of `MTX_MASK` (R201). -/
def mtxMask (s : State) : State :=
  { s with matrix := updateAll s.size maskModule (symbolCells s.size) s.matrix }

/-- `MTX_MASK` (R201). -/
def execMtxMask (s : State) : Host.Outcome State Fault Refusal := matrixStep mtxMask s

/-! ### Format stamping -/

/-- The copy-1 cell of format bit `i` (R203), round the top-left finder. -/
def formatCell1 (i : Nat) : Nat × Nat :=
  if i ≤ 5 then (i, 8)
  else if i = 6 then (7, 8)
  else if i = 7 then (8, 8)
  else if i = 8 then (8, 7)
  else (8, 14 - i)

/-- The copy-2 cell of format bit `i` (R203), beside the other two finders. -/
def formatCell2 (size i : Nat) : Nat × Nat :=
  if i ≤ 7 then (8, size - 1 - i) else (size - 15 + i, 8)

/-- Writing a format bit on a module (R204): `taken` and `is_data` stay. -/
def formatModule (b : Bool) (m : QrModule) : QrModule := { m with value := b }

/-- Writing format bits `i`, `i + 1`, ... , `n` of them (R204). -/
def writeFormat (size : Nat) (format : BitVec 18) : Nat → Nat → Grid → Grid
  | 0, _, g => g
  | n + 1, i, g =>
    let b := format.getLsbD i
    let g1 := Grid.update size g (formatCell1 i) (formatModule b)
    writeFormat size format n (i + 1) (Grid.update size g1 (formatCell2 size i) (formatModule b))

/-- The body of `MTX_FORMAT` (R204): `FORMAT[14:0]`. -/
def mtxFormat (s : State) : State := { s with matrix := writeFormat s.size s.format 15 0 s.matrix }

/-- `MTX_FORMAT` (R204). -/
def execMtxFormat (s : State) : Host.Outcome State Fault Refusal := matrixStep mtxFormat s

end Sys2Proof.Machine
end

