-- ==== Sys2Proof/Machine/ReedSolomon.lean ====
section
/-! DEFINITION. reed_solomon_encoder (41_rs.md): the generator polynomial, the division, and RS_GENPOLY, RS_GENERATE. The
polynomials are computed as lists of bytes, highest-degree coefficient first (20_memory.md R67), and stored whole: a
command is indivisible (20_memory.md R70), so no order of its inner writes can be observed (notes/assumptions/10.md). -/

namespace Sys2Proof.Machine

/-- The coefficients after the first of one pass of `genpoly` (41_rs.md R121). `prev` is the old coefficient to the left
of the list, `expOf` and `logOf` are the tables: the new middle coefficient is
`GF_LOG[GF_EXP[GEN[j]] xor GF_EXP[expadd(GEN[j-1], i)]]`, and the new constant term `expadd(GEN[d], i)`. -/
def genTail (expOf logOf : Byte → Byte) (i : Byte) : Byte → List Byte → List Byte
  | prev, [] => [expadd prev i]
  | prev, c :: rest => logOf (expOf c ^^^ expOf (expadd prev i)) :: genTail expOf logOf i c rest

/-- One pass of `genpoly` (R121): multiply the running polynomial by (x + 2^i), in the exponent domain. The leading
coefficient stays. -/
def genPass (expOf logOf : Byte → Byte) (i : Byte) : List Byte → List Byte
  | [] => []
  | c :: rest => c :: genTail expOf logOf i c rest

/-- The passes for `n` more roots from `i`. -/
def genPasses (expOf logOf : Byte → Byte) : Nat → Nat → List Byte → List Byte
  | 0, _, p => p
  | n + 1, i, p => genPasses expOf logOf n (i + 1) (genPass expOf logOf (BitVec.ofNat 8 i) p)

/-- The coefficients of the generator of degree `n` (R121): x + 1, then the roots 2^1 .. 2^(n−1). -/
def generator (expOf logOf : Byte → Byte) (n : Nat) : List Byte :=
  genPasses expOf logOf (n - 1) 1 [0, 0]

/-- `genpoly(n)` (R121): `GEN[0..n]` and `GEN_LEN`; the entries above keep what they hold. -/
def genpoly (n : Nat) (s : State) : State :=
  { s.store .gen 0 (generator s.expAt s.logAt n) with genLen := BitVec.ofNat 8 (n + 1) }

/-- `xor` the scaled generator into the front of the remainder. -/
def xorFront (expOf : Byte → Byte) (le : Byte) : List Byte → List Byte → List Byte
  | g :: gs, r :: rs => (r ^^^ expOf (expadd g le)) :: xorFront expOf le gs rs
  | _, rs => rs

/-- One step of `rs_divide` (41_rs.md R123): the lead term is discarded; unless it is zero, the generator's other
coefficients scaled by it are `xor`ed into what follows (R124: a zero lead is passed over). -/
def divideStep (expOf logOf : Byte → Byte) (gen : List Byte) : List Byte → List Byte
  | [] => []
  | lead :: rest => if lead = 0 then rest else xorFront expOf (logOf lead) gen rest

/-- `len` steps of the division. -/
def divideSteps (expOf logOf : Byte → Byte) (gen : List Byte) : Nat → List Byte → List Byte
  | 0, r => r
  | len + 1, r => divideSteps expOf logOf gen len (divideStep expOf logOf gen r)

/-- The EC codewords that `rs_divide(n, len)` computes from `CW[0..len-1]` and `GEN[1..n]` (R123): the message padded
with `n` zeros, after exactly `len` steps. -/
def ecCodewords (n len : Nat) (s : State) : List Byte :=
  divideSteps s.expAt s.logAt (s.block .gen 1 n) len (s.block .cw 0 len ++ List.replicate n 0)

/-- `rs_divide(n, len)` (R123): the EC codewords go to `CW[len..len+n-1]`; `REM` is left with the terms that became the
forced zero leads, then the remainder. -/
def rsDivide (n len : Nat) (s : State) : State :=
  let ec := ecCodewords n len s
  (s.store .cw len ec).store .rem 0 (List.replicate len 0 ++ ec)

/-- `CSR.CW_DATA_LEN` and `CSR.CW_TOTAL_LEN`. -/
def State.setStreamLen (s : State) (data total : Nat) : State :=
  { s with cwDataLen := BitVec.ofNat 9 data, cwTotalLen := BitVec.ofNat 10 total }

/-- `RS_GENPOLY ec_count` (R126). -/
def execRsGenpoly (ecCount : Byte) (s : State) : Host.Outcome State Fault Refusal :=
  if !s.flags.gfValid then .next (s.raise .invalidParameter)
  else if !ecCountLegal ecCount.toNat then .next (s.raise .invalidParameter)
  else .next (genpoly ecCount.toNat s).complete

/-- `RS_GENERATE ec_count, msg_len` (R127). -/
def execRsGenerate (ecCount : Byte) (msgLen : BitVec 16) (s : State) : Host.Outcome State Fault Refusal :=
  if !s.flags.gfValid then .next (s.raise .invalidParameter)
  else if !ecCountLegal ecCount.toNat then .next (s.raise .invalidParameter)
  else if !msgLenLegal msgLen.toNat then .next (s.raise .invalidParameter)
  else
    .next ((rsDivide ecCount.toNat msgLen.toNat (genpoly ecCount.toNat s)).setStreamLen
      msgLen.toNat (msgLen.toNat + ecCount.toNat)).complete

end Sys2Proof.Machine
end

