-- ==== Sys2Proof/Machine/MessagePacker.lean ====
section
/-! DEFINITION. message_stream_packer (43_msg.md): the choice of the flavor, the data codewords, and FLAVOR_SELECT,
MSG_PACK. -/

namespace Sys2Proof.Machine

/-- Row `i` of the flavor table (R160); an admissible table has the rows 0 to 10 (R168 (a)). -/
def flavorRow (t : FlavorTable) (i : Nat) : Flavor := t.rows.getD i ⟨0, 0, 0, 0, 0⟩

/-- "the least row index with FLAVOR_TABLE[i].capacity >= len" (R162). -/
def leastRow (t : FlavorTable) (len : Nat) : Nat :=
  t.rows.findIdx fun f => decide (len ≤ f.capacity.toNat)

/-- `flavor_select(len)` (R162); `none` where it raises `TextTooLong`. -/
def flavorSelect (len : Nat) (s : State) : Option State :=
  if (flavorRow s.flavors 10).capacity.toNat < len then none
  else
    let i := leastRow s.flavors len
    some { s with
      payloadLen := BitVec.ofNat 8 len
      flavorIdx := BitVec.ofNat 4 i
      flavor := flavorRow s.flavors i
      flags := { s.flags with flavorValid := true } }

/-- `v[7:4]`. -/
def highNibble (v : Byte) : Byte := v >>> 4

/-- `v[3:0] << 4`, on 8 bits. -/
def lowNibbleUp (v : Byte) : Byte := v <<< 4

/-- The payload part of the stream (R164): `len` is `PAYLOAD_LEN`, and each byte joins the low nibble of what came before
it with the high nibble of the next payload byte; the last one ends in the zero terminator nibble. `prev` is what came
before: the length byte, then each payload byte. -/
def packNibbles : Byte → List Byte → List Byte
  | prev, [] => [lowNibbleUp prev]
  | prev, b :: rest => (lowNibbleUp prev ||| highNibble b) :: packNibbles b rest

/-- The pad bytes (R164): 0xEC and 0x11 by turns, 0xEC first. -/
def padBytes (n : Nat) : List Byte :=
  (List.range n).map fun k => if k % 2 = 0 then Config.pad0 else Config.pad1

/-- The data codewords of `msg_pack()` (R164). -/
def dataCodewords (s : State) : List Byte :=
  let len := s.payloadLen
  let first : Byte := (BitVec.ofNat 8 Config.modeByte <<< 4) ||| highNibble len
  first :: packNibbles len (s.block .payload 0 len.toNat) ++ padBytes (s.flavor.capacity.toNat - len.toNat)

/-- `msg_pack()` (R164). -/
def msgPack (s : State) : State :=
  (s.store .cw 0 (dataCodewords s)).setStreamLen (s.flavor.capacity.toNat + 2) (s.flavor.capacity.toNat + 2)

/-- `FLAVOR_SELECT len` (R166). -/
def execFlavorSelect (len : BitVec 16) (s : State) : Host.Outcome State Fault Refusal :=
  match flavorSelect len.toNat s with
  | some t => .next t.complete
  | none => .next (s.raise .textTooLong)

/-- `MSG_PACK` (R167). -/
def execMsgPack (s : State) : Host.Outcome State Fault Refusal :=
  if s.flags.flavorValid then .next (msgPack s).complete
  else .next (s.raise .invalidParameter)

end Sys2Proof.Machine
end

