-- ==== Sys2Proof/Machine/Placement.lean ====
section
/-! DEFINITION. zig_zag_placement_fsm (44_matrix.md R194 to R199): the cursor's transition, the search for the next free
cell, and MTX_PLACE. -/

namespace Sys2Proof.Machine

/-- `CUR_COL` = −1, shown as 63: every column pair has been traversed (10_state.md R41). -/
def Cursor.exhausted (c : Cursor) : Bool := c.col == 63

/-- The next row in the direction of the walk, if it is inside the symbol (R195). -/
def nextRow (size : Nat) (d : Direction) (row : Nat) : Option Nat :=
  match d with
  | .up => if 0 < row ∧ row - 1 < size then some (row - 1) else none
  | .down => if row + 1 < size then some (row + 1) else none

/-- The other direction. -/
def Direction.reverse : Direction → Direction
  | .up => .down
  | .down => .up

/-- The right column of the pair to the left of column `col`'s pair, column 6 skipped (R195). -/
def nextPair (col : BitVec 6) : BitVec 6 := if col - 1 = 6 then 5 else col - 1

/-- `advance()` (R195): the transition of the walk in a symbol of `size`. -/
def Cursor.advance (size : Nat) (c : Cursor) : Cursor :=
  if c.onLeft then
    match nextRow size c.dir c.row.toNat with
    | some r => { c with row := BitVec.ofNat 6 r, col := c.col + 1, onLeft := false }
    | none => { c with dir := c.dir.reverse, col := nextPair c.col, onLeft := false }
  else { c with col := c.col - 1, onLeft := true }

/-- An upper bound on the cells one search passes over: the cells of the largest symbol, more than any walk has
(notes/assumptions/9.md). -/
def walkBound : Nat := Config.sizeMax * Config.sizeMax

/-- `next_free()` (R196) for at most `fuel` cells: the next free cell, if any, and the cursor on the cell after it. -/
def nextFree (size : Nat) (g : Grid) : Nat → Cursor → Option (Nat × Nat) × Cursor
  | 0, c => (none, c)
  | fuel + 1, c =>
    if c.exhausted then (none, c)
    else if (Grid.get size g c.row.toNat c.col.toNat).taken then nextFree size g fuel (c.advance size)
    else (some (c.row.toNat, c.col.toNat), c.advance size)

/-- What the walk changes: the matrix, the cursor and `STREAM_BITPOS`. -/
structure Walk where
  grid   : Grid
  cursor : Cursor
  bitpos : BitVec 13
  deriving DecidableEq, Repr

/-- The loop of `MTX_PLACE` (R197): at most `n` bits, stopping when the stream of `limit` bits is used up or the walk is
exhausted. `bit p` is stream bit `p`. -/
def placeBits (size limit : Nat) (bit : Nat → Bool) : Nat → Walk → Walk
  | 0, w => w
  | n + 1, w =>
    if limit ≤ w.bitpos.toNat then w
    else
      match nextFree size w.grid walkBound w.cursor with
      | (none, c) => { w with cursor := c }
      | (some cell, c) =>
        placeBits size limit bit n
          { grid := Grid.set size w.grid cell.1 cell.2 ⟨bit w.bitpos.toNat, true, true⟩
            cursor := c
            bitpos := w.bitpos + 1 }

/-- Stream bit `p`: `CW[p div 8][7 - (p mod 8)]` (20_memory.md R64). -/
def State.streamBit (s : State) (p : Nat) : Bool := (s.read .cw (p / 8)).getLsbD (7 - p % 8)

/-- The body of `MTX_PLACE nbits` (R197). -/
def mtxPlace (nbits : Nat) (s : State) : State :=
  let w := placeBits s.size (8 * s.cwTotalLen.toNat) s.streamBit nbits ⟨s.matrix, s.cursor, s.bitpos⟩
  { s with matrix := w.grid, cursor := w.cursor, bitpos := w.bitpos }

/-- `MTX_PLACE nbits` (R197): every operand is legal; stopping early is no error. -/
def execMtxPlace (nbits : BitVec 16) (s : State) : Host.Outcome State Fault Refusal :=
  matrixStep (mtxPlace nbits.toNat) s

end Sys2Proof.Machine
end

