-- ==== Sys2Proof/Machine/Pipeline.lean ====
section
/-! DEFINITION. The composite commands: MTX_BUILD (44_matrix.md R205) and ENCODE (45_pipeline.md R230). The inner commands
run as procedures, without their own `STATUS` and `MTX_DONE` writes. -/

namespace Sys2Proof.Machine

/-- Steps 1 to 9 in order (44_matrix.md R180, R205), for the whole stream. -/
def buildSteps (s : State) : State :=
  let structural := mtxReserve (mtxDark (mtxTiming (mtxAlign (mtxSeparator (mtxFinder s)))))
  mtxFormat (mtxMask (mtxPlace (8 * s.cwTotalLen.toNat) structural))

/-- The body of `MTX_BUILD` (R205): the format string first, then steps 0 to 9, then `MTX_DONE`; `none` where
`fmt_generate` or `mtx_init` raises `InvalidParameter`, which is before any write. -/
def buildSymbol (s : State) : Option State :=
  let f := s.flavor
  match fmtGenerate f.version.toNat f.ecLevel.toNat Config.maskId with
  | none => none
  | some format =>
    if mtxInitLegal f.version.toNat f.alignCenter.toNat then
      some ((buildSteps (mtxInit f.version.toNat f.alignCenter.toNat (s.setFormat format))).setMtxDone true)
    else none

/-- `MTX_BUILD` (R205). -/
def execMtxBuild (s : State) : Host.Outcome State Fault Refusal :=
  if !s.flags.flavorValid then .next (s.raise .invalidParameter)
  else
    match buildSymbol s with
    | some t => .next t.complete
    | none => .next (s.raise .invalidParameter)

/-- The stream of `ENCODE` (45_pipeline.md R230): fresh tables, the data codewords, the generator, the division, the
lengths. -/
def encodeStream (s : State) : State :=
  let packed := msgPack (gfBuild s).setGfValid
  let n := packed.flavor.ecCount.toNat
  let len := packed.flavor.capacity.toNat + 2
  (rsDivide n len (genpoly n packed)).setStreamLen len (len + n)

/-- `ENCODE len` (R230). Its one refusal is `TextTooLong` (R232); the last case cannot occur with an admissible table
(R233). -/
def execEncode (len : BitVec 16) (s : State) : Host.Outcome State Fault Refusal :=
  match flavorSelect len.toNat s with
  | none => .next (s.raise .textTooLong)
  | some selected =>
    match buildSymbol (encodeStream selected) with
    | some t => .next t.complete
    | none => .next (s.raise .invalidParameter)

end Sys2Proof.Machine
end

