-- ==== Sys2Proof/Machine/Dispatch.lean ====
section
/-! DEFINITION. The meaning of every command (30_encoding.md R82), one arm per constructor. -/

namespace Sys2Proof.Machine

def exec (i : Instr) (s : State) : Host.Outcome State Fault Refusal :=
  match i with
  | .gfBuild => Sys2Proof.Machine.execGfBuild s
  | .gfExp e => Sys2Proof.Machine.execGfExp e s
  | .gfLog v => Sys2Proof.Machine.execGfLog v s
  | .gfExpadd a b => Sys2Proof.Machine.execGfExpadd a b s
  | .rsGenpoly ecCount => Sys2Proof.Machine.execRsGenpoly ecCount s
  | .rsGenerate ecCount msgLen => Sys2Proof.Machine.execRsGenerate ecCount msgLen s
  | .fmtGenerate version ecLevel maskId => Sys2Proof.Machine.execFmtGenerate version ecLevel maskId s
  | .flavorSelect len => Sys2Proof.Machine.execFlavorSelect len s
  | .msgPack => Sys2Proof.Machine.execMsgPack s
  | .mtxInit version alignCenter => Sys2Proof.Machine.execMtxInit version alignCenter s
  | .mtxFinder => Sys2Proof.Machine.execMtxFinder s
  | .mtxSeparator => Sys2Proof.Machine.execMtxSeparator s
  | .mtxAlign => Sys2Proof.Machine.execMtxAlign s
  | .mtxTiming => Sys2Proof.Machine.execMtxTiming s
  | .mtxDark => Sys2Proof.Machine.execMtxDark s
  | .mtxReserve => Sys2Proof.Machine.execMtxReserve s
  | .mtxPlace nbits => Sys2Proof.Machine.execMtxPlace nbits s
  | .mtxMask => Sys2Proof.Machine.execMtxMask s
  | .mtxFormat => Sys2Proof.Machine.execMtxFormat s
  | .mtxBuild => Sys2Proof.Machine.execMtxBuild s
  | .encode len => Sys2Proof.Machine.execEncode len s

end Sys2Proof.Machine
end

