-- ==== Sys2Proof/Machine/HostPort.lean ====
section
/-! DEFINITION. What the host reaches (20_memory.md R60 to R62): the register map of 10_state.md R44, the spaces of R30,
commands, and reset (70_reset_and_hazards.md R260). -/

namespace Sys2Proof.Machine

/-- A value read as a 32-bit number, the bits above its width 0 (10_state.md R22). -/
def zext {n : Nat} (v : BitVec n) : Word := v.setWidth 32

/-- The register of a number (R44); 0x18 and above do not exist and read 0. `MASK_ID` and `MODE` are hard-wired (R29). -/
def csrRead (s : State) : Nat → Word
  | 0x00 => zext s.status.code
  | 0x01 => zext s.result
  | 0x02 => zext s.flags.word
  | 0x03 => zext s.payloadLen
  | 0x04 => zext s.flavorIdx
  | 0x05 => zext s.flavor.capacity
  | 0x06 => zext s.flavor.version
  | 0x07 => zext s.flavor.ecLevel
  | 0x08 => zext s.flavor.ecCount
  | 0x09 => zext s.flavor.alignCenter
  | 0x0A => zext s.cwDataLen
  | 0x0B => zext s.cwTotalLen
  | 0x0C => zext s.genLen
  | 0x0D => zext s.format
  | 0x0E => BitVec.ofNat 32 Config.maskId
  | 0x0F => BitVec.ofNat 32 Config.modeByte
  | 0x10 => zext s.mtxVersion
  | 0x11 => zext s.mtxSize
  | 0x12 => zext s.mtxAlign
  | 0x13 => zext s.cursor.row
  | 0x14 => zext s.cursor.col
  | 0x15 => zext s.cursor.dir.code
  | 0x16 => zext (BitVec.ofBool s.cursor.onLeft)
  | 0x17 => zext s.bitpos
  | _ => 0

/-- A module as the host reads it (10_state.md R36): bit 0 `value`, bit 1 `taken`, bit 2 `is_data`. -/
def QrModule.word (m : QrModule) : BitVec 3 :=
  BitVec.ofBool m.isData ++ BitVec.ofBool m.taken ++ BitVec.ofBool m.value

/-- `MATRIX[index]` (10_state.md R35): row = index div 64, column = index mod 64; outside the symbol 0. -/
def matrixRead (s : State) (index : Nat) : Word := zext (s.cell (index / 64) (index % 64)).word

/-- `host_read(space, index)` (20_memory.md R60 to R62): any space; what does not exist reads 0. -/
def hostRead (s : State) (space index : Nat) : Word :=
  match space with
  | 0 => csrRead s index
  | 1 => zext (s.read .payload index)
  | 2 => zext (s.read .cw index)
  | 3 => zext (s.read .gen index)
  | 4 => zext (s.read .gfExp index)
  | 5 => zext (s.read .gfLog index)
  | 6 => matrixRead s index
  | _ => 0

/-- `host_write(space, index, value)` (R61, R62): `PAYLOAD` and `CW` only; every other write is ignored. -/
def hostWrite (space index : Nat) (value : Byte) (s : State) : State :=
  match space with
  | 1 => s.write .payload index value
  | 2 => s.write .cw index value
  | _ => s

/-- A host read: the value joins what the host has seen; nothing else changes (20_memory.md R69). -/
def recordRead (space index : Nat) (s : State) : State := { s with reads := s.reads ++ [hostRead s space index] }

/-- Reset (70_reset_and_hazards.md R260, R261): the reset state, with memories drawn anew. The flavor table is no state of
the spec's and stays; so do the host's further actions and what it has seen (notes/assumptions/14.md). -/
def resetAgain (s : State) : State :=
  { State.reset with flavors := s.flavors, resets := s.resets + 1, inbox := s.inbox, reads := s.reads }

/-- `host_command(word)` (20_memory.md R60): a word that is no command is refused with `IllegalCommand` before anything
else about it is looked at (60_exceptions.md R245, R248). -/
def runWord (w : Word) (s : State) : Host.Outcome State Fault Refusal :=
  match decode w with
  | .ok i => exec i s
  | .error _ => .next (s.raise .illegalCommand)

/-- The effect of a host action. -/
def perform (a : HostAction) (s : State) : Host.Outcome State Fault Refusal :=
  match a with
  | .write space index value => .next (hostWrite space index value s)
  | .read space index => .next (recordRead space index s)
  | .command w => runWord w s
  | .reset => .next (resetAgain s)

end Sys2Proof.Machine
end

