-- ==== Sys2Proof/Machine/Step.lean ====
section
/-! DEFINITION. One step: the next host action, whole (20_memory.md R60, R70, R74). -/

namespace Sys2Proof.Machine

/-- One step takes the host's next action; with none queued CORE waits for the host (70_reset_and_hazards.md R261). -/
def step (s : State) : Host.Outcome State Fault Refusal :=
  match s.inbox with
  | [] => .next s
  | a :: rest => perform a { s with inbox := rest }

/-- The host presents a command word next: the bits from `nbits` up are 0. CORE fetches nothing (10_state.md R21), so this
is `host_command` put before the host's other actions (notes/assumptions/2.md). -/
def State.withFetchWord (s : State) (nbits w : Nat) : State :=
  { s with inbox := .command (BitVec.ofNat 32 (w % 2 ^ nbits)) :: s.inbox }

end Sys2Proof.Machine
end

