-- ==== Sys2Proof/Safety/Reference.lean ====
section
/-! DEFINITION. Reference data and reference functions for the claims, written from the spec apart from the machine: the
printed tables, the opcode table, the field GF(256) and its polynomials, the nibble stream, the cells of the symbol. The
machine uses none of them. -/

namespace Sys2Proof.Reference

/-! ### The command table -/

/-- The mnemonic of a command (30_encoding.md R82). -/
def mnemonic : Instr → String
  | .gfBuild => "GF_BUILD"
  | .gfExp _ => "GF_EXP"
  | .gfLog _ => "GF_LOG"
  | .gfExpadd _ _ => "GF_EXPADD"
  | .rsGenpoly _ => "RS_GENPOLY"
  | .rsGenerate _ _ => "RS_GENERATE"
  | .fmtGenerate _ _ _ => "FMT_GENERATE"
  | .flavorSelect _ => "FLAVOR_SELECT"
  | .msgPack => "MSG_PACK"
  | .mtxInit _ _ => "MTX_INIT"
  | .mtxFinder => "MTX_FINDER"
  | .mtxSeparator => "MTX_SEPARATOR"
  | .mtxAlign => "MTX_ALIGN"
  | .mtxTiming => "MTX_TIMING"
  | .mtxDark => "MTX_DARK"
  | .mtxReserve => "MTX_RESERVE"
  | .mtxPlace _ => "MTX_PLACE"
  | .mtxMask => "MTX_MASK"
  | .mtxFormat => "MTX_FORMAT"
  | .mtxBuild => "MTX_BUILD"
  | .encode _ => "ENCODE"

/-- A row of spec/opcode_table.json: mnemonic, mask, match. -/
structure OpcodeRow where
  mnemonic : String
  mask     : Word
  pattern  : Word
  deriving DecidableEq, Repr

/-- `(word and mask) = match` (30_encoding.md R83). -/
def OpcodeRow.accepts (r : OpcodeRow) (w : Word) : Bool := w &&& r.mask == r.pattern

/-- The rows of spec/opcode_table.json. -/
def opcodeRows : List OpcodeRow :=
  [⟨"GF_BUILD", 0xFFFFFFFF, 0x10000000⟩,
   ⟨"GF_EXP", 0xFF00FFFF, 0x11000000⟩,
   ⟨"GF_LOG", 0xFF00FFFF, 0x12000000⟩,
   ⟨"GF_EXPADD", 0xFF0000FF, 0x13000000⟩] ++
  [⟨"RS_GENPOLY", 0xFF00FFFF, 0x20000000⟩,
   ⟨"RS_GENERATE", 0xFF000000, 0x21000000⟩,
   ⟨"FMT_GENERATE", 0xFF000000, 0x30000000⟩,
   ⟨"FLAVOR_SELECT", 0xFFFF0000, 0x40000000⟩,
   ⟨"MSG_PACK", 0xFFFFFFFF, 0x41000000⟩] ++
  [⟨"MTX_INIT", 0xFF0000FF, 0x50000000⟩,
   ⟨"MTX_FINDER", 0xFFFFFFFF, 0x51000000⟩,
   ⟨"MTX_SEPARATOR", 0xFFFFFFFF, 0x52000000⟩,
   ⟨"MTX_ALIGN", 0xFFFFFFFF, 0x53000000⟩,
   ⟨"MTX_TIMING", 0xFFFFFFFF, 0x54000000⟩,
   ⟨"MTX_DARK", 0xFFFFFFFF, 0x55000000⟩,
   ⟨"MTX_RESERVE", 0xFFFFFFFF, 0x56000000⟩] ++
  [⟨"MTX_PLACE", 0xFFFF0000, 0x57000000⟩,
   ⟨"MTX_MASK", 0xFFFFFFFF, 0x58000000⟩,
   ⟨"MTX_FORMAT", 0xFFFFFFFF, 0x59000000⟩,
   ⟨"MTX_BUILD", 0xFFFFFFFF, 0x5F000000⟩,
   ⟨"ENCODE", 0xFFFF0000, 0x60000000⟩]

/-! ### GF(256) -/

/-- `GF_EXP` as printed in 40_gf.md R102. -/
def expTable : List Byte :=
  [0x01, 0x02, 0x04, 0x08, 0x10, 0x20, 0x40, 0x80, 0x1D, 0x3A, 0x74, 0xE8, 0xCD, 0x87, 0x13, 0x26] ++
  [0x4C, 0x98, 0x2D, 0x5A, 0xB4, 0x75, 0xEA, 0xC9, 0x8F, 0x03, 0x06, 0x0C, 0x18, 0x30, 0x60, 0xC0] ++
  [0x9D, 0x27, 0x4E, 0x9C, 0x25, 0x4A, 0x94, 0x35, 0x6A, 0xD4, 0xB5, 0x77, 0xEE, 0xC1, 0x9F, 0x23] ++
  [0x46, 0x8C, 0x05, 0x0A, 0x14, 0x28, 0x50, 0xA0, 0x5D, 0xBA, 0x69, 0xD2, 0xB9, 0x6F, 0xDE, 0xA1] ++
  [0x5F, 0xBE, 0x61, 0xC2, 0x99, 0x2F, 0x5E, 0xBC, 0x65, 0xCA, 0x89, 0x0F, 0x1E, 0x3C, 0x78, 0xF0] ++
  [0xFD, 0xE7, 0xD3, 0xBB, 0x6B, 0xD6, 0xB1, 0x7F, 0xFE, 0xE1, 0xDF, 0xA3, 0x5B, 0xB6, 0x71, 0xE2] ++
  [0xD9, 0xAF, 0x43, 0x86, 0x11, 0x22, 0x44, 0x88, 0x0D, 0x1A, 0x34, 0x68, 0xD0, 0xBD, 0x67, 0xCE] ++
  [0x81, 0x1F, 0x3E, 0x7C, 0xF8, 0xED, 0xC7, 0x93, 0x3B, 0x76, 0xEC, 0xC5, 0x97, 0x33, 0x66, 0xCC] ++
  [0x85, 0x17, 0x2E, 0x5C, 0xB8, 0x6D, 0xDA, 0xA9, 0x4F, 0x9E, 0x21, 0x42, 0x84, 0x15, 0x2A, 0x54] ++
  [0xA8, 0x4D, 0x9A, 0x29, 0x52, 0xA4, 0x55, 0xAA, 0x49, 0x92, 0x39, 0x72, 0xE4, 0xD5, 0xB7, 0x73] ++
  [0xE6, 0xD1, 0xBF, 0x63, 0xC6, 0x91, 0x3F, 0x7E, 0xFC, 0xE5, 0xD7, 0xB3, 0x7B, 0xF6, 0xF1, 0xFF] ++
  [0xE3, 0xDB, 0xAB, 0x4B, 0x96, 0x31, 0x62, 0xC4, 0x95, 0x37, 0x6E, 0xDC, 0xA5, 0x57, 0xAE, 0x41] ++
  [0x82, 0x19, 0x32, 0x64, 0xC8, 0x8D, 0x07, 0x0E, 0x1C, 0x38, 0x70, 0xE0, 0xDD, 0xA7, 0x53, 0xA6] ++
  [0x51, 0xA2, 0x59, 0xB2, 0x79, 0xF2, 0xF9, 0xEF, 0xC3, 0x9B, 0x2B, 0x56, 0xAC, 0x45, 0x8A, 0x09] ++
  [0x12, 0x24, 0x48, 0x90, 0x3D, 0x7A, 0xF4, 0xF5, 0xF7, 0xF3, 0xFB, 0xEB, 0xCB, 0x8B, 0x0B, 0x16] ++
  [0x2C, 0x58, 0xB0, 0x7D, 0xFA, 0xE9, 0xCF, 0x83, 0x1B, 0x36, 0x6C, 0xD8, 0xAD, 0x47, 0x8E, 0x01]

/-- `GF_LOG` as printed in 40_gf.md R102. -/
def logTable : List Byte :=
  [0x00, 0x00, 0x01, 0x19, 0x02, 0x32, 0x1A, 0xC6, 0x03, 0xDF, 0x33, 0xEE, 0x1B, 0x68, 0xC7, 0x4B] ++
  [0x04, 0x64, 0xE0, 0x0E, 0x34, 0x8D, 0xEF, 0x81, 0x1C, 0xC1, 0x69, 0xF8, 0xC8, 0x08, 0x4C, 0x71] ++
  [0x05, 0x8A, 0x65, 0x2F, 0xE1, 0x24, 0x0F, 0x21, 0x35, 0x93, 0x8E, 0xDA, 0xF0, 0x12, 0x82, 0x45] ++
  [0x1D, 0xB5, 0xC2, 0x7D, 0x6A, 0x27, 0xF9, 0xB9, 0xC9, 0x9A, 0x09, 0x78, 0x4D, 0xE4, 0x72, 0xA6] ++
  [0x06, 0xBF, 0x8B, 0x62, 0x66, 0xDD, 0x30, 0xFD, 0xE2, 0x98, 0x25, 0xB3, 0x10, 0x91, 0x22, 0x88] ++
  [0x36, 0xD0, 0x94, 0xCE, 0x8F, 0x96, 0xDB, 0xBD, 0xF1, 0xD2, 0x13, 0x5C, 0x83, 0x38, 0x46, 0x40] ++
  [0x1E, 0x42, 0xB6, 0xA3, 0xC3, 0x48, 0x7E, 0x6E, 0x6B, 0x3A, 0x28, 0x54, 0xFA, 0x85, 0xBA, 0x3D] ++
  [0xCA, 0x5E, 0x9B, 0x9F, 0x0A, 0x15, 0x79, 0x2B, 0x4E, 0xD4, 0xE5, 0xAC, 0x73, 0xF3, 0xA7, 0x57] ++
  [0x07, 0x70, 0xC0, 0xF7, 0x8C, 0x80, 0x63, 0x0D, 0x67, 0x4A, 0xDE, 0xED, 0x31, 0xC5, 0xFE, 0x18] ++
  [0xE3, 0xA5, 0x99, 0x77, 0x26, 0xB8, 0xB4, 0x7C, 0x11, 0x44, 0x92, 0xD9, 0x23, 0x20, 0x89, 0x2E] ++
  [0x37, 0x3F, 0xD1, 0x5B, 0x95, 0xBC, 0xCF, 0xCD, 0x90, 0x87, 0x97, 0xB2, 0xDC, 0xFC, 0xBE, 0x61] ++
  [0xF2, 0x56, 0xD3, 0xAB, 0x14, 0x2A, 0x5D, 0x9E, 0x84, 0x3C, 0x39, 0x53, 0x47, 0x6D, 0x41, 0xA2] ++
  [0x1F, 0x2D, 0x43, 0xD8, 0xB7, 0x7B, 0xA4, 0x76, 0xC4, 0x17, 0x49, 0xEC, 0x7F, 0x0C, 0x6F, 0xF6] ++
  [0x6C, 0xA1, 0x3B, 0x52, 0x29, 0x9D, 0x55, 0xAA, 0xFB, 0x60, 0x86, 0xB1, 0xBB, 0xCC, 0x3E, 0x5A] ++
  [0xCB, 0x59, 0x5F, 0xB0, 0x9C, 0xA9, 0xA0, 0x51, 0x0B, 0xF5, 0x16, 0xEB, 0x7A, 0x75, 0x2C, 0xD7] ++
  [0x4F, 0xAE, 0xD5, 0xE9, 0xE6, 0xE7, 0xAD, 0xE8, 0x74, 0xD6, 0xF4, 0xEA, 0xA8, 0x50, 0x58, 0xAF]

/-- The product with the element 2, the polynomial x, modulo x^8 + x^4 + x^3 + x^2 + 1 (40_gf.md R100). -/
def times2 (a : Byte) : Byte := if a.msb then (a <<< 1) ^^^ 0x1D else a <<< 1

/-- 2^e (40_gf.md R100). -/
def power : Nat → Byte
  | 0 => 1
  | e + 1 => times2 (power e)

/-- The sum of `2^i · a` over the set bits `i ≥ from` of `b`, for `n` bits, where `a` is already scaled. -/
def mulBits (b : Byte) : Nat → Nat → Byte → Byte
  | 0, _, _ => 0
  | n + 1, i, a => (if b.getLsbD i then a else 0) ^^^ mulBits b n (i + 1) (times2 a)

/-- The product in GF(256) (40_gf.md R100), bit by bit and without the tables. -/
def mul (a b : Byte) : Byte := mulBits b 8 0 a

/-- The value at `x` of the polynomial whose coefficients, highest degree first, are the list (20_memory.md R67). -/
def eval (x : Byte) (p : List Byte) : Byte := p.foldl (fun acc c => mul acc x ^^^ c) 0

/-- The coefficients of p(x) · (x + root), `prev` being the coefficient of p before the list. -/
def timesLinearTail (root : Byte) : Byte → List Byte → List Byte
  | prev, [] => [mul prev root]
  | prev, c :: rest => (c ^^^ mul prev root) :: timesLinearTail root c rest

/-- p(x) · (x + root), values, highest degree first. -/
def timesLinear (root : Byte) : List Byte → List Byte
  | [] => []
  | c :: rest => c :: timesLinearTail root c rest

/-- (x + 2^0)(x + 2^1) ... (x + 2^(n−1)), values, highest degree first (41_rs.md R121). -/
def rootProduct : Nat → List Byte
  | 0 => [1]
  | n + 1 => timesLinear (power n) (rootProduct n)

/-- The generators as printed in 41_rs.md R130: `GEN[0..n]` for each of ten degrees. -/
def generators : List (List Byte) :=
  [[0, 87, 229, 146, 149, 238, 102, 21]] ++
  [[0, 251, 67, 46, 61, 118, 70, 64, 94, 32, 45]] ++
  [[0, 74, 152, 176, 100, 86, 100, 106, 104, 130, 218, 206, 140, 78]] ++
  [[0, 8, 183, 61, 91, 202, 37, 51, 58, 58, 237, 140, 124, 5, 99, 105]] ++
  [[0, 120, 104, 107, 109, 102, 161, 76, 3, 91, 191, 147, 169, 182, 194, 225, 120]] ++
  [[0, 43, 139, 206, 78, 43, 239, 123, 206, 214, 147, 24, 99, 150, 39, 243, 163, 136]] ++
  [[0, 17, 60, 79, 50, 61, 163, 26, 187, 202, 180, 221, 225, 83, 239, 156, 164, 212, 212, 188, 190]] ++
  [[0, 210, 171, 247, 242, 93, 230, 14, 109, 221, 53, 200, 74, 8, 172, 98, 80, 219, 134, 160, 105, 165, 231]] ++
  [[0, 173, 125, 158, 2, 103, 182, 118, 17, 145, 201, 111, 28, 165, 53, 161, 21, 245, 142, 13, 102, 48, 227, 153, 145, 218, 70]] ++
  [[0, 168, 223, 200, 104, 224, 234, 108, 180, 110, 190, 195, 147, 205, 27, 232, 201, 21, 43, 245, 87, 42, 195, 212, 119, 242, 37, 9, 123]]

/-! ### The format encoder -/

/-- The 15-bit strings as printed in 42_fmt.md R146, eight mask ids for each level. -/
def format15 : List (List (BitVec 18)) :=
  [[0x77C4, 0x72F3, 0x7DAA, 0x789D, 0x662F, 0x6318, 0x6C41, 0x6976],
   [0x5412, 0x5125, 0x5E7C, 0x5B4B, 0x45F9, 0x40CE, 0x4F97, 0x4AA0],
   [0x355F, 0x3068, 0x3F31, 0x3A06, 0x24B4, 0x2183, 0x2EDA, 0x2BED],
   [0x1689, 0x13BE, 0x1CE7, 0x19D0, 0x0762, 0x0255, 0x0D0C, 0x083B]]

/-- The 18-bit strings as printed in 42_fmt.md R147, versions 7 to 40. -/
def format18 : List (BitVec 18) :=
  [0x07C94, 0x085BC, 0x09A99, 0x0A4D3, 0x0BBF6, 0x0C762, 0x0D847] ++
  [0x0E60D, 0x0F928, 0x10B78, 0x1145D, 0x12A17, 0x13532, 0x149A6] ++
  [0x15683, 0x168C9, 0x177EC, 0x18EC4, 0x191E1, 0x1AFAB, 0x1B08E] ++
  [0x1CC1A, 0x1D33F, 0x1ED75, 0x1F250, 0x209D5, 0x216F0, 0x228BA] ++
  [0x2379F, 0x24B0B, 0x2542E, 0x26A64, 0x27541, 0x28C69]

/-- The format string of legal operands (42_fmt.md R140). -/
def formatString (version ecLevel maskId : Nat) : BitVec 18 :=
  if version < 7 then (format15.getD ecLevel []).getD maskId 0 else format18.getD (version - 7) 0

/-! ### The packer -/

/-- The two nibbles of a byte, high first (20_memory.md R65). -/
def nibbles (b : Byte) : List (BitVec 4) := [b.extractLsb' 4 4, b.extractLsb' 0 4]

/-- Bytes from nibbles, high first. -/
def pairUp : List (BitVec 4) → List Byte
  | hi :: lo :: rest => (hi ++ lo : BitVec 8) :: pairUp rest
  | _ => []

/-- The nibble sequence of the data stream (43_msg.md R164): mode, length high, length low, the payload's nibbles in
order, one zero nibble. -/
def nibbleStream (payload : List Byte) : List (BitVec 4) :=
  [4] ++ nibbles (BitVec.ofNat 8 payload.length) ++ payload.flatMap nibbles ++ [0]

/-- `n` pad bytes: 0xEC, 0x11, 0xEC, ... (43_msg.md R164). -/
def pads : Nat → List Byte
  | 0 => []
  | 1 => [0xEC]
  | n + 2 => 0xEC :: 0x11 :: pads n

/-- The data codewords of a payload in a flavor of capacity `cap` (43_msg.md R164). -/
def packed (cap : Nat) (payload : List Byte) : List Byte :=
  pairUp (nibbleStream payload) ++ pads (cap - payload.length)

/-! ### The cells of a symbol: what each structural step leaves in a cell, `none` where it leaves the cell alone -/

/-- A 7 × 7 finder at `(r0, c0)` (44_matrix.md R184): light on the ring at distance 2 from the centre. -/
def finderSquare (r0 c0 r c : Nat) : Option Bool :=
  if r0 ≤ r ∧ r ≤ r0 + 6 ∧ c0 ≤ c ∧ c ≤ c0 + 6 then
    let i : Int := (r : Int) - r0 - 3
    let j : Int := (c : Int) - c0 - 3
    some (decide (max i.natAbs j.natAbs ≠ 2))
  else none

/-- The three finders (44_matrix.md R185). -/
def finderAt (size r c : Nat) : Option Bool :=
  (finderSquare 0 0 r c).or ((finderSquare 0 (size - 7) r c).or (finderSquare (size - 7) 0 r c))

/-- The separators (44_matrix.md R186): row or column 7 counted from the finder's corner, light. -/
def separatorAt (size r c : Nat) : Option Bool :=
  if (r = 7 ∧ c ≤ 7) ∨ (c = 7 ∧ r ≤ 7) ∨
     (r = 7 ∧ size - 8 ≤ c ∧ c < size) ∨ (c = size - 8 ∧ r ≤ 7) ∨
     (r = size - 8 ∧ c ≤ 7) ∨ (c = 7 ∧ size - 8 ≤ r ∧ r < size) then some false else none

/-- The alignment pattern (44_matrix.md R187, R188): light on the ring at distance 1 from the centre. -/
def alignAt (a r c : Nat) : Option Bool :=
  if a ≠ 0 ∧ a ≤ r + 2 ∧ r ≤ a + 2 ∧ a ≤ c + 2 ∧ c ≤ a + 2 then
    let i : Int := (r : Int) - a
    let j : Int := (c : Int) - a
    some (decide (max i.natAbs j.natAbs ≠ 1))
  else none

/-- The timing patterns (44_matrix.md R189): dark at even indices. -/
def timingAt (size r c : Nat) : Option Bool :=
  if r = 6 ∧ 8 ≤ c ∧ c ≤ size - 9 then some (decide (c % 2 = 0))
  else if c = 6 ∧ 8 ≤ r ∧ r ≤ size - 9 then some (decide (r % 2 = 0))
  else none

/-- The dark module (44_matrix.md R190). -/
def darkAt (version r c : Nat) : Option Bool :=
  if r = 4 * version + 9 ∧ c = 8 then some true else none

/-- The format bands (44_matrix.md R191). -/
def inBand (size r c : Nat) : Bool :=
  decide ((r = 8 ∧ c ≤ 8) ∨ (c = 8 ∧ r ≤ 8) ∨ (r = 8 ∧ size - 8 ≤ c ∧ c < size) ∨ (c = 8 ∧ size - 8 ≤ r ∧ r < size))

/-- The format bit a cell receives (44_matrix.md R203, the printed table read by cells). -/
def formatBitAt (size r c : Nat) : Option Nat :=
  if c = 8 ∧ r ≤ 5 then some r
  else if c = 8 ∧ r = 7 then some 6
  else if c = 8 ∧ r = 8 then some 7
  else if r = 8 ∧ c = 7 then some 8
  else if r = 8 ∧ c ≤ 5 then some (14 - c)
  else if r = 8 ∧ size - 8 ≤ c ∧ c < size then some (size - 1 - c)
  else if c = 8 ∧ size - 7 ≤ r ∧ r < size then some (r + 15 - size)
  else none

/-! ### The placement walk -/

/-- The right column of pair `p` (44_matrix.md R198 (a)): size−1−2p while that is at least 8, then 5, 3, 1. -/
def pairColumn (size p : Nat) : Nat :=
  if 8 ≤ size - 1 - 2 * p then size - 1 - 2 * p else size - 2 - 2 * p

/-- The cells of pair `p` (44_matrix.md R194, R198): row by row, right then left, upward when `p` is even. -/
def pairCells (size p : Nat) : List (Nat × Nat) :=
  (List.range size).flatMap fun k =>
    let r := if p % 2 = 0 then size - 1 - k else k
    [(r, pairColumn size p), (r, pairColumn size p - 1)]

/-- The visiting order of the walk (44_matrix.md R194): (size−1)/2 pairs, column 6 in none of them. -/
def visitOrder (size : Nat) : List (Nat × Nat) :=
  (List.range ((size - 1) / 2)).flatMap (pairCells size)

end Sys2Proof.Reference
end

