-- ==== Sys2Proof/WellFormed.lean ====
section
/-! DEFINITION. Well-formed commands: every operand is inside the legal range 30_encoding.md R82 and
60_exceptions.md R241, R244 give it. A command that is not well-formed still has a word and still decodes (R85); the
machine refuses it. The machine does not use this file: its own checks stand in Machine/Operands.lean. -/

namespace Sys2Proof

/-- Every operand is inside its legal range (60_exceptions.md R241, R244). 106 is the capacity of the last row of every
admissible flavor table (43_msg.md R168 (d)). The bounds stand as the rules print them and not through `Config`, so that
a statement that compares the two also says what the constants are. -/
def Instr.wellFormed : Instr → Bool
  | .gfBuild => true
  | .gfExp _ => true
  | .gfLog _ => true
  | .gfExpadd _ _ => true
  | .rsGenpoly ecCount => decide (7 ≤ ecCount.toNat ∧ ecCount.toNat ≤ 254)
  | .rsGenerate ecCount msgLen =>
    decide (7 ≤ ecCount.toNat ∧ ecCount.toNat ≤ 254) && decide (msgLen.toNat ≤ 256)
  | .fmtGenerate version ecLevel maskId =>
    decide (1 ≤ version.toNat ∧ version.toNat ≤ 40) && decide (ecLevel.toNat ≤ 3) && decide (maskId.toNat ≤ 7)
  | .flavorSelect len => decide (len.toNat ≤ 106)
  | .msgPack => true
  | .mtxInit version alignCenter =>
    decide (1 ≤ version.toNat ∧ version.toNat ≤ 5) &&
    decide (alignCenter.toNat = 0 ∨ 2 ≤ alignCenter.toNat ∧ alignCenter.toNat ≤ 21 + 4 * (version.toNat - 1) - 3)
  | .mtxFinder => true
  | .mtxSeparator => true
  | .mtxAlign => true
  | .mtxTiming => true
  | .mtxDark => true
  | .mtxReserve => true
  | .mtxPlace _ => true
  | .mtxMask => true
  | .mtxFormat => true
  | .mtxBuild => true
  | .encode len => decide (len.toNat ≤ 106)

end Sys2Proof
end

