-- ==== Sys2Proof/Safety.lean ====
section
/-! DEFINITION. What the claims are stated in: the parts of the state a command may write (10_state.md R45), the status a
command must end with (60_exceptions.md R241, R244), and the invariant every action keeps. -/

namespace Sys2Proof.Machine

/-! ### The parts of the state, and which command writes which -/

/-- The parts of the state that commands write, beyond `STATUS`, which every command writes (10_state.md R45), and the
model's own fields. -/
inductive Part where
  | result | gfValid | flavorValid | mtxDone
  | payloadLen | flavorIdx | flavorRow
  | cwDataLen | cwTotalLen | genLen | format
  | mtxVersion | mtxSize | mtxAlign | cursor | bitpos
  | payload | cw | gen | gfExp | gfLog | rem | matrix
  | flavors | resets | inbox | reads
  deriving DecidableEq, Repr

/-- Two states agree on a part. -/
def Part.same (s t : State) : Part → Prop
  | .result => t.result = s.result
  | .gfValid => t.flags.gfValid = s.flags.gfValid
  | .flavorValid => t.flags.flavorValid = s.flags.flavorValid
  | .mtxDone => t.flags.mtxDone = s.flags.mtxDone
  | .payloadLen => t.payloadLen = s.payloadLen
  | .flavorIdx => t.flavorIdx = s.flavorIdx
  | .flavorRow => t.flavor = s.flavor
  | .cwDataLen => t.cwDataLen = s.cwDataLen
  | .cwTotalLen => t.cwTotalLen = s.cwTotalLen
  | .genLen => t.genLen = s.genLen
  | .format => t.format = s.format
  | .mtxVersion => t.mtxVersion = s.mtxVersion
  | .mtxSize => t.mtxSize = s.mtxSize
  | .mtxAlign => t.mtxAlign = s.mtxAlign
  | .cursor => t.cursor = s.cursor
  | .bitpos => t.bitpos = s.bitpos
  | .payload => t.payload = s.payload
  | .cw => t.cw = s.cw
  | .gen => t.gen = s.gen
  | .gfExp => t.gfExp = s.gfExp
  | .gfLog => t.gfLog = s.gfLog
  | .rem => t.rem = s.rem
  | .matrix => t.matrix = s.matrix
  | .flavors => t.flavors = s.flavors
  | .resets => t.resets = s.resets
  | .inbox => t.inbox = s.inbox
  | .reads => t.reads = s.reads

/-- What `RS_GENERATE` writes (10_state.md R45). -/
def divisionParts : List Part := [.gen, .genLen, .rem, .cw, .cwDataLen, .cwTotalLen]

/-- What `MTX_INIT` .. `MTX_FORMAT` write between them (10_state.md R45). -/
def matrixParts : List Part :=
  [.matrix, .mtxVersion, .mtxSize, .mtxAlign, .cursor, .bitpos, .mtxDone]

/-- The column "writes" of 10_state.md R45. -/
def writtenParts : Instr → List Part
  | .gfBuild => [.gfExp, .gfLog, .gfValid]
  | .gfExp _ => [.result]
  | .gfLog _ => [.result]
  | .gfExpadd _ _ => [.result]
  | .rsGenpoly _ => [.gen, .genLen]
  | .rsGenerate _ _ => divisionParts
  | .fmtGenerate _ _ _ => [.format]
  | .flavorSelect _ => [.payloadLen, .flavorIdx, .flavorRow, .flavorValid]
  | .msgPack => [.cw, .cwDataLen, .cwTotalLen]
  | .mtxInit _ _ => matrixParts
  | .mtxFinder => [.matrix, .mtxDone]
  | .mtxSeparator => [.matrix, .mtxDone]
  | .mtxAlign => [.matrix, .mtxDone]
  | .mtxTiming => [.matrix, .mtxDone]
  | .mtxDark => [.matrix, .mtxDone]
  | .mtxReserve => [.matrix, .mtxDone]
  | .mtxPlace _ => [.matrix, .cursor, .bitpos, .mtxDone]
  | .mtxMask => [.matrix, .mtxDone]
  | .mtxFormat => [.matrix, .mtxDone]
  | .mtxBuild => .format :: matrixParts
  | .encode _ =>
    [.gfExp, .gfLog, .gfValid, .payloadLen, .flavorIdx, .flavorRow, .flavorValid, .format] ++ divisionParts ++ matrixParts

/-! ### The status of a command -/

/-- The precondition flag of a command (10_state.md R45, column "pre"). -/
def precondition (i : Instr) (s : State) : Bool :=
  match i with
  | .gfBuild => true
  | .gfExp _ => s.flags.gfValid
  | .gfLog _ => s.flags.gfValid
  | .gfExpadd _ _ => true
  | .rsGenpoly _ => s.flags.gfValid
  | .rsGenerate _ _ => s.flags.gfValid
  | .fmtGenerate _ _ _ => true
  | .flavorSelect _ => true
  | .msgPack => s.flags.flavorValid
  | .mtxInit _ _ => true
  | .mtxFinder => s.mtxSize != 0
  | .mtxSeparator => s.mtxSize != 0
  | .mtxAlign => s.mtxSize != 0
  | .mtxTiming => s.mtxSize != 0
  | .mtxDark => s.mtxSize != 0
  | .mtxReserve => s.mtxSize != 0
  | .mtxPlace _ => s.mtxSize != 0
  | .mtxMask => s.mtxSize != 0
  | .mtxFormat => s.mtxSize != 0
  | .mtxBuild => s.flags.flavorValid
  | .encode _ => true

/-- The code an ill-formed command is refused with: `TextTooLong` for a payload length, else `InvalidParameter`
(60_exceptions.md R241, R244). -/
def operandStatus : Instr → Status
  | .flavorSelect _ => .textTooLong
  | .encode _ => .textTooLong
  | _ => .invalidParameter

/-- The status a command ends with (60_exceptions.md R241, R244, R248). -/
def expectedStatus (i : Instr) (s : State) : Status :=
  if !precondition i s then .invalidParameter
  else if !i.wellFormed then operandStatus i
  else .ok

/-! ### The invariant -/

/-- Every memory of bytes is in canonical form, inside its space. -/
def memoriesCanonical (s : State) : Prop := ∀ sp : Space, Memory.wf sp.elements (s.bank sp) = true

/-- `GF_VALID` = 1: the tables hold what 40_gf.md R102 prints (10_state.md R25). -/
def tablesBuilt (s : State) : Prop :=
  s.flags.gfValid = true → ∀ i : Byte,
    s.read .gfExp i.toNat = Reference.expTable.getD i.toNat 0 ∧ s.read .gfLog i.toNat = Reference.logTable.getD i.toNat 0

/-- `FLAVOR_VALID` = 1: the flavor registers hold a row of the table and the payload fits it (10_state.md R25 to R27);
otherwise they are as after reset. -/
def selectionConsistent (s : State) : Prop :=
  if s.flags.flavorValid then
    s.flavorIdx.toNat ≤ 10 ∧ s.flavor = flavorRow s.flavors s.flavorIdx.toNat ∧
      s.payloadLen.toNat ≤ s.flavor.capacity.toNat
  else s.flavorIdx = 0 ∧ s.flavor = ⟨0, 0, 0, 0, 0⟩ ∧ s.payloadLen = 0

/-- The legal values of the length registers and of `STREAM_BITPOS` (10_state.md R44). -/
def lengthsLegal (s : State) : Prop :=
  s.cwDataLen.toNat ≤ 256 ∧ s.cwDataLen.toNat ≤ s.cwTotalLen.toNat ∧ s.cwTotalLen.toNat ≤ 510 ∧
    (s.genLen = 0 ∨ 8 ≤ s.genLen.toNat) ∧ s.bitpos.toNat ≤ 4080

/-- The cursor stands on the visiting order of a symbol of `size` (44_matrix.md R194, R198), or the walk is exhausted
(R198 (e)). -/
def Cursor.legal (size : Nat) (c : Cursor) : Prop :=
  c = ⟨BitVec.ofNat 6 (size - 1), 63, .up, false⟩ ∨
  (c.row.toNat < size ∧ ∃ p < (size - 1) / 2,
    c.col.toNat = Reference.pairColumn size p - c.onLeft.toNat ∧ c.dir = if p % 2 = 0 then .up else .down)

/-- No matrix yet, and the registers of one are 0; or the geometry of a version 1 to 5 (10_state.md R37, R40, R44). -/
def geometryLegal (s : State) : Prop :=
  (s.mtxVersion = 0 ∧ s.mtxSize = 0 ∧ s.mtxAlign = 0 ∧ s.cursor = ⟨0, 0, .up, false⟩ ∧ s.bitpos = 0) ∨
  (1 ≤ s.mtxVersion.toNat ∧ s.mtxVersion.toNat ≤ 5 ∧ s.size = 21 + 4 * (s.mtxVersion.toNat - 1) ∧
    (s.mtxAlign = 0 ∨ 2 ≤ s.mtxAlign.toNat ∧ s.mtxAlign.toNat ≤ s.size - 3) ∧ s.cursor.legal s.size)

/-- `taken` = 0 with `is_data` = 1 is never produced (00_scope.md R16). -/
def dataCellsTaken (s : State) : Prop := ∀ r c, (s.cell r c).isData = true → (s.cell r c).taken = true

/-- What holds of CORE between two actions. -/
structure Inv (s : State) : Prop where
  memories  : memoriesCanonical s
  grid      : Grid.wf s.size s.matrix = true
  status    : s.status ≠ .outOfMemory ∧ s.status ≠ .ioError
  tables    : tablesBuilt s
  selection : selectionConsistent s
  lengths   : lengthsLegal s
  geometry  : geometryLegal s
  cells     : dataCellsTaken s
  /-- a finished matrix is one of a selected flavor (10_state.md R25) -/
  finished  : s.flags.mtxDone = true → s.flags.flavorValid = true ∧ s.mtxSize ≠ 0

/-- There is a matrix (44_matrix.md R183). -/
abbrev hasMatrix (s : State) : Prop := s.mtxSize ≠ 0

/-- The state in which a command's effect is sought: the memories may hold anything, the tables are built. -/
def tablesReady (s : State) : Prop := s.flags.gfValid = true ∧ tablesBuilt s

/-- Run commands one after another. -/
def execAll : List Instr → State → Host.Outcome State Fault Refusal
  | [], s => .next s
  | i :: rest, s =>
    match exec i s with
    | .next t => execAll rest t
    | .fault f => .fault f
    | .refused r => .refused r

/-! ### Cell by cell -/

/-- 44_matrix.md R182: what a stamp leaves in a cell; `none` leaves it alone. -/
def stampedCell (v : Option Bool) (m : QrModule) : QrModule :=
  match v with
  | none => m
  | some b => ⟨b, true, m.isData⟩

/-- The matrix after `t`, cell by cell, is `f` of the matrix before, and the command completed as R183 says. -/
def completedWithCells (i : Instr) (s : State) (f : Nat → Nat → QrModule → QrModule) : Prop :=
  ∃ t, exec i s = .next t ∧
    t = { s with matrix := t.matrix, flags := { s.flags with mtxDone := false }, status := .ok } ∧
    ∀ r c, t.cell r c = f r c (s.cell r c)

end Sys2Proof.Machine
end

