-- ==== Sys2Proof/Certificates/Slice0/Obligations.lean ====
section
/-! DEFINITION. The statements for the provers, one per entry of OBLIGATIONS.json. The cited rules are those of spec/. -/

open Sys2Proof Sys2Proof.Machine

/-! ### Encoding -/

/-- 30_encoding.md R82, R83: no bit of an encoding is dropped, whatever the operands. -/
def Obligations.DecodeOfEncodeGivesTheCommandBack : Prop :=
  ∀ i : Instr, decode (encode i) = .ok i

/-- 30_encoding.md R83, R84: a word that is a command is that command's one encoding. -/
def Obligations.EncodeOfDecodeGivesTheWordBack : Prop :=
  ∀ (w : Word) (i : Instr), decode w = .ok i → encode i = w

/-- 30_encoding.md R83: a word is the command of the one row of the opcode table that accepts it, and illegal when no row
does. -/
def Obligations.WordIsTheCommandOfItsOneTableRow : Prop :=
  ∀ w : Word, match decode w with
    | .ok i => ∃ r ∈ Reference.opcodeRows, r.mnemonic = Reference.mnemonic i ∧
        ∀ q ∈ Reference.opcodeRows, q.accepts w = true ↔ q = r
    | .error _ => ∀ q ∈ Reference.opcodeRows, q.accepts w = false

/-- 30_encoding.md R81, R82, R84: words of the spec's examples (95_test_vectors.md T24 to T28), and what they are. -/
def Obligations.WordsOfTheSpecDecode : Prop :=
  decode 0x11080000 = .ok (.gfExp 8) ∧ decode 0x13C86400 = .ok (.gfExpadd 200 100) ∧
  decode 0x20070000 = .ok (.rsGenpoly 7) ∧ decode 0x21110009 = .ok (.rsGenerate 17 9) ∧
  decode 0x30010306 = .ok (.fmtGenerate 1 3 6) ∧ decode 0x4000006B = .ok (.flavorSelect 107) ∧
  decode 0x50021200 = .ok (.mtxInit 2 18) ∧ decode 0x57000064 = .ok (.mtxPlace 100) ∧
  decode 0x5F000000 = .ok .mtxBuild ∧ decode 0x60000001 = .ok (.encode 1) ∧
  decode 0x00000000 = .error (.unusedOpcode 0) ∧ decode 0x10000001 = .error (.reservedFieldNotZero 0x10) ∧
  decode 0x40010000 = .error (.reservedFieldNotZero 0x40) ∧ decode 0xFFFFFFFF = .error (.unusedOpcode 0xFF)

/-! ### Steps, the host and reset -/

/-- 20_memory.md R60, R70: a step that takes a command runs it, whole, on the state with that action taken from the
queue. -/
def Obligations.StepRunsTheDecodedCommand : Prop :=
  ∀ (s : State) (w : Word) (rest : List HostAction) (i : Instr),
    s.inbox = .command w :: rest → decode w = .ok i → step s = exec i { s with inbox := rest }

/-- 60_exceptions.md R245, 30_encoding.md R84: a word no row of the opcode table accepts sets `STATUS` to 5 and changes
nothing else. -/
def Obligations.IllegalWordIsRefusedWithCodeFive : Prop :=
  ∀ (s : State) (w : Word) (rest : List HostAction),
    s.inbox = .command w :: rest → (∀ r ∈ Reference.opcodeRows, r.accepts w = false) →
      ∃ t, step s = .next t ∧ t = { s with inbox := rest, status := .illegalCommand } ∧ hostRead t 0 0 = 5

/-- 20_memory.md R60, R69 (no access has a side effect); the queue of actions and the waiting of CORE are the model's
(notes/assumptions/1.md): a host read changes nothing but what the host has seen, and with no action CORE waits. -/
def Obligations.ReadingAndWaitingChangeNoRegister : Prop :=
  ∀ s : State, (s.inbox = [] → step s = .next s) ∧
    ∀ (space index : Nat) (rest : List HostAction), s.inbox = .read space index :: rest →
      step s = .next { s with inbox := rest, reads := s.reads ++ [hostRead s space index] }

/-- 20_memory.md R62, 10_state.md R35: an index outside a space, outside the symbol or in a space above 6 reads 0. -/
def Obligations.ReadOutsideASpaceIsZero : Prop :=
  ∀ (s : State) (space index : Nat),
    (space = 0 ∧ 0x18 ≤ index) ∨ (space = 1 ∧ 106 ≤ index) ∨ (space = 2 ∧ 512 ≤ index) ∨ (space = 3 ∧ 255 ≤ index) ∨
    ((space = 4 ∨ space = 5) ∧ 256 ≤ index) ∨
    (space = 6 ∧ (4096 ≤ index ∨ s.size ≤ index / 64 ∨ s.size ≤ index % 64)) ∨ 6 < space →
      hostRead s space index = 0

/-- 20_memory.md R61, R74: a host write into `PAYLOAD` or `CW` is what the next read of that element returns, and no
other element, register or hidden part changes. -/
def Obligations.HostWriteIsReadBack : Prop :=
  ∀ (s : State) (space index : Nat) (value : Byte) (rest : List HostAction),
    s.inbox = .write space index value :: rest → (space = 1 ∧ index < 106) ∨ (space = 2 ∧ index < 512) →
      ∃ t, step s = .next t ∧ hostRead t space index = value.setWidth 32 ∧
        (∀ sp i, (sp, i) ≠ (space, index) → hostRead t sp i = hostRead s sp i) ∧
        t.status = s.status ∧
        ∀ p : Part, p ≠ .inbox → p ≠ (if space = 1 then .payload else .cw) → p.same s t

/-- 20_memory.md R61, R62: every other host write is ignored, `STATUS` included. -/
def Obligations.HostWriteElsewhereIsIgnored : Prop :=
  ∀ (s : State) (space index : Nat) (value : Byte) (rest : List HostAction),
    s.inbox = .write space index value :: rest → ¬((space = 1 ∧ index < 106) ∨ (space = 2 ∧ index < 512)) →
      step s = .next { s with inbox := rest }

/-- 10_state.md R43: after reset every register reads 0 but `MASK_ID` and `MODE`, `MATRIX` reads 0, and an element of a
memory is an arbitrary byte, the free byte of that reset (notes/assumptions/3.md). -/
def Obligations.ResetStateReadsAsTheSpecSays : Prop :=
  (∀ n, hostRead State.reset 0 n = if n = 0x0E then 6 else if n = 0x0F then 4 else 0) ∧
    (∀ i, hostRead State.reset 6 i = 0) ∧
    ∀ sp i, i < Space.elements sp → State.reset.read sp i = Config.freeByte State.reset.resets sp.number i

/-- 70_reset_and_hazards.md R260: reset, whenever it comes, puts the registers and memories into the reset state, each
memory with new free bytes. That it keeps the flavor table and the host's own record is the model's
(notes/assumptions/14.md). -/
def Obligations.ResetPutsTheResetState : Prop :=
  ∀ (s : State) (rest : List HostAction), s.inbox = .reset :: rest →
    ∃ t, step s = .next t ∧ (∀ n, hostRead t 0 n = hostRead State.reset 0 n) ∧ (∀ i, hostRead t 6 i = 0) ∧
      (∀ sp i, i < Space.elements sp → t.read sp i = Config.freeByte (s.resets + 1) sp.number i) ∧
      t.inbox = rest ∧ t.reads = s.reads ∧ t.flavors = s.flavors

/-- 10_state.md R22, R30, R36, R44, 20_memory.md R61, 60_exceptions.md R240: what a host read returns. The number of each
register, `STATUS` by the printed code of its name; the element of each memory of bytes, by the number of its space,
zero-extended to 32 bits; each module. -/
def Obligations.RegistersReadAtTheirNumbers : Prop :=
  ∀ s : State,
    ((List.range 0x18).map fun n => (hostRead s 0 n).toNat) =
      [(match s.status with
        | .ok => 0
        | .invalidParameter => 1
        | .outOfMemory => 2
        | .textTooLong => 3
        | .ioError => 4
        | .illegalCommand => 5),
       s.result.toNat,
       s.flags.gfValid.toNat + 2 * s.flags.flavorValid.toNat + 4 * s.flags.mtxDone.toNat,
       s.payloadLen.toNat, s.flavorIdx.toNat, s.flavor.capacity.toNat, s.flavor.version.toNat, s.flavor.ecLevel.toNat,
       s.flavor.ecCount.toNat, s.flavor.alignCenter.toNat, s.cwDataLen.toNat, s.cwTotalLen.toNat, s.genLen.toNat,
       s.format.toNat, 6, 4, s.mtxVersion.toNat, s.mtxSize.toNat, s.mtxAlign.toNat, s.cursor.row.toNat,
       s.cursor.col.toNat, (if s.cursor.dir = .up then 0 else 1), s.cursor.onLeft.toNat, s.bitpos.toNat] ∧
    (∀ i, hostRead s 1 i = (s.read .payload i).setWidth 32 ∧
      hostRead s 2 i = (s.read .cw i).setWidth 32 ∧
      hostRead s 3 i = (s.read .gen i).setWidth 32 ∧
      hostRead s 4 i = (s.read .gfExp i).setWidth 32 ∧
      hostRead s 5 i = (s.read .gfLog i).setWidth 32) ∧
    ∀ r c, c < 64 → (hostRead s 6 (r * 64 + c)).toNat =
      (s.cell r c).value.toNat + 2 * (s.cell r c).taken.toNat + 4 * (s.cell r c).isData.toNat

/-! ### How a command ends, and what it may write -/

/-- 60_exceptions.md R247: a refused command, the illegal word included, writes the code and changes nothing else. -/
def Obligations.RefusedCommandChangesOnlyStatus : Prop :=
  ∀ (s t : State) (w : Word) (rest : List HostAction), s.inbox = .command w :: rest → step s = .next t →
    t.status ≠ .ok → t = { s with inbox := rest, status := t.status }

/-- 60_exceptions.md R241, R244: every command, in every state that can be reached, ends with the status the rules give:
`InvalidParameter` for exactly the causes of R241, `TextTooLong` for exactly the cause of R244, else `OK`. -/
def Obligations.CommandEndsWithTheStatusOfTheRules : Prop :=
  ∀ (i : Instr) (s : State), Inv s → ∃ t, exec i s = .next t ∧ t.status = expectedStatus i s

/-- 60_exceptions.md R249, 30_encoding.md R84: no action of the host faults or is refused by the model. -/
def Obligations.EveryStepAnswersANextState : Prop :=
  ∀ s : State, ∃ t, step s = .next t

/-- 10_state.md R45, column "writes": the frame of every command. -/
def Obligations.CommandWritesOnlyItsParts : Prop :=
  ∀ (i : Instr) (s t : State) (p : Part), exec i s = .next t → p ∉ writtenParts i → p.same s t

/-- 10_state.md R25: what a completed command leaves in the three flags. -/
def Obligations.FlagsAreSetAndClearedByTheirCommands : Prop :=
  ∀ (i : Instr) (s t : State), exec i s = .next t → t.status = .ok →
    t.flags.gfValid = (s.flags.gfValid || match i with | .gfBuild => true | .encode _ => true | _ => false) ∧
    t.flags.flavorValid =
      (s.flags.flavorValid || match i with | .flavorSelect _ => true | .encode _ => true | _ => false) ∧
    t.flags.mtxDone =
      match i with
      | .mtxBuild => true
      | .encode _ => true
      | .mtxInit _ _ => false
      | .mtxFinder => false
      | .mtxSeparator => false
      | .mtxAlign => false
      | .mtxTiming => false
      | .mtxDark => false
      | .mtxReserve => false
      | .mtxPlace _ => false
      | .mtxMask => false
      | .mtxFormat => false
      | _ => s.flags.mtxDone

/-! ### The invariant -/

/-- 10_state.md R43: the reset state satisfies the invariant. -/
def Obligations.ResetSatisfiesTheInvariant : Prop := Inv State.reset

/-- 10_state.md R25 to R28, R35 to R37, R40 to R42, R44, 00_scope.md R16, 44_matrix.md R194, R198: every host action keeps
the invariant, from every state that meets it. -/
def Obligations.StepKeepsTheInvariant : Prop :=
  ∀ s t : State, Inv s → step s = .next t → Inv t

/-- 00_scope.md R16, 44_matrix.md R207: no command but those that begin a new build frees a cell or turns a data cell back
into another. -/
def Obligations.TakenCellsStayTaken : Prop :=
  ∀ (i : Instr) (s t : State) (r c : Nat), exec i s = .next t →
    (match i with | .mtxInit _ _ => false | .mtxBuild => false | .encode _ => false | _ => true) = true →
      ((s.cell r c).taken = true → (t.cell r c).taken = true) ∧ ((s.cell r c).isData = true → (t.cell r c).isData = true)

/-! ### galois_field_lut -/

/-- 40_gf.md R102, R106: `GF_BUILD` completes in every state and leaves both tables as they are printed. -/
def Obligations.GfBuildFillsBothTables : Prop :=
  ∀ s : State, ∃ t, exec .gfBuild s = .next t ∧
    t = { s with status := .ok, flags := { s.flags with gfValid := true }, gfExp := t.gfExp, gfLog := t.gfLog } ∧
    ∀ i : Byte, t.read .gfExp i.toNat = Reference.expTable.getD i.toNat 0 ∧
      t.read .gfLog i.toNat = Reference.logTable.getD i.toNat 0

/-- 40_gf.md R107, R108: the lookups return the entry of the printed table, and are refused without tables. -/
def Obligations.FieldLookupsReturnTheTableEntry : Prop :=
  ∀ (s : State) (v : Byte), tablesBuilt s →
    exec (.gfExp v) s = .next (if s.flags.gfValid then
      { s with result := Reference.expTable.getD v.toNat 0, status := .ok } else { s with status := .invalidParameter }) ∧
    exec (.gfLog v) s = .next (if s.flags.gfValid then
      { s with result := Reference.logTable.getD v.toNat 0, status := .ok } else { s with status := .invalidParameter })

/-- 40_gf.md R104, R109: `GF_EXPADD` completes in every state with the sum, 255 taken off when it is above 255. -/
def Obligations.ExponentSumWrapsWithItsCarry : Prop :=
  ∀ (s : State) (a b : Byte), exec (.gfExpadd a b) s = .next { s with
    result := BitVec.ofNat 8 (if 255 < a.toNat + b.toNat then a.toNat + b.toNat - 255 else a.toNat + b.toNat)
    status := .ok }

/-- 40_gf.md R104: `expadd` is the 8-bit sum with its carry added back in, an exponent of the field product of what its
operands are exponents of; it agrees with the sum modulo 255, is 0 for two zeros only, is 255 for the sums 255 and 510
only, and commutes. -/
def Obligations.ExponentSumIsTheFieldProduct : Prop :=
  ∀ a b : Byte,
    expadd a b = (if 255 < a.toNat + b.toNat then BitVec.ofNat 8 (a.toNat + b.toNat) + 1
      else BitVec.ofNat 8 (a.toNat + b.toNat)) ∧
    Reference.expTable.getD (expadd a b).toNat 0 =
      Reference.mul (Reference.expTable.getD a.toNat 0) (Reference.expTable.getD b.toNat 0) ∧
    Reference.expTable.getD (expadd a b).toNat 0 = Reference.power (a.toNat + b.toNat) ∧
    (expadd a b).toNat % 255 = (a.toNat + b.toNat) % 255 ∧
    (expadd a b = 0 ↔ a = 0 ∧ b = 0) ∧
    (expadd a b = 255 ↔ a.toNat + b.toNat = 255 ∨ a.toNat + b.toNat = 510) ∧
    expadd a b = expadd b a

/-- 40_gf.md R110: `GF_LOG v` then `GF_EXP RESULT` returns every non-zero byte, and 1 for 0; `GF_EXP e` then `GF_LOG RESULT`
returns every exponent but 255, and 0 for it; two builds give the same tables. -/
def Obligations.LogThenExpReturnsEveryNonzeroByte : Prop :=
  (∀ (s : State) (v : Byte), tablesReady s →
    (∃ t u, exec (.gfLog v) s = .next t ∧ exec (.gfExp t.result) t = .next u ∧ u.status = .ok ∧
      u.result = if v = 0 then 1 else v) ∧
    ∃ t u, exec (.gfExp v) s = .next t ∧ exec (.gfLog t.result) t = .next u ∧ u.status = .ok ∧
      u.result = if v = 255 then 0 else v) ∧
  ∀ s s' : State, ∃ t t', exec .gfBuild s = .next t ∧ exec .gfBuild s' = .next t' ∧
    ∀ i, t.read .gfExp i = t'.read .gfExp i ∧ t.read .gfLog i = t'.read .gfLog i

/-! ### reed_solomon_encoder -/

/-- 41_rs.md R121, R122 (b) to (d), R126: `GEN[0..n]` holds the exponents of (x + 2^0)(x + 2^1)...(x + 2^(n−1)), the
leading one 0, the constant one in 1..255, the rest in 0..254; the entries above stay. -/
def Obligations.GenpolyStoresTheProductOfTheRoots : Prop :=
  ∀ (s : State) (n : Byte), tablesReady s → 7 ≤ n.toNat → n.toNat ≤ 254 →
    ∃ t, exec (.rsGenpoly n) s = .next t ∧ t.status = .ok ∧ t.genLen.toNat = n.toNat + 1 ∧
      (t.block .gen 0 (n.toNat + 1)).map (fun e => Reference.expTable.getD e.toNat 0) = Reference.rootProduct n.toNat ∧
      t.read .gen 0 = 0 ∧ 1 ≤ (t.read .gen n.toNat).toNat ∧
      (∀ j, 1 ≤ j → j < n.toNat → (t.read .gen j).toNat ≤ 254) ∧
      ∀ j, n.toNat < j → t.read .gen j = s.read .gen j

/-- 41_rs.md R130: the ten printed generators. -/
def Obligations.GenpolyGivesThePrintedGenerators : Prop :=
  ∀ (s : State) (g : List Byte), tablesReady s → g ∈ Reference.generators →
    ∃ t, exec (.rsGenpoly (BitVec.ofNat 8 (g.length - 1))) s = .next t ∧ t.status = .ok ∧ t.block .gen 0 g.length = g

/-- 41_rs.md R121, R123, R125: data and check bytes together are a multiple of the generator: the codeword polynomial
vanishes at 2^0 .. 2^(n−1). -/
def Obligations.CodewordVanishesAtEveryRoot : Prop :=
  ∀ (s : State) (n : Byte) (len : BitVec 16), tablesReady s → 7 ≤ n.toNat → n.toNat ≤ 254 → len.toNat ≤ 256 →
    ∃ t, exec (.rsGenerate n len) s = .next t ∧ t.status = .ok ∧
      ∀ i, i < n.toNat → Reference.eval (Reference.power i) (t.block .cw 0 (len.toNat + n.toNat)) = 0

/-- 41_rs.md R127: the lengths, the generator of `RS_GENPOLY`, and every byte of `CW` outside the check bytes. -/
def Obligations.DivisionWritesOnlyTheCheckBytes : Prop :=
  ∀ (s : State) (n : Byte) (len : BitVec 16),
    s.flags.gfValid = true → 7 ≤ n.toNat → n.toNat ≤ 254 → len.toNat ≤ 256 →
    ∃ t u, exec (.rsGenerate n len) s = .next t ∧ exec (.rsGenpoly n) s = .next u ∧ t.status = .ok ∧
      t.cwDataLen.toNat = len.toNat ∧ t.cwTotalLen.toNat = len.toNat + n.toNat ∧
      t.gen = u.gen ∧ t.genLen = u.genLen ∧
      ∀ i, i < len.toNat ∨ len.toNat + n.toNat ≤ i → t.read .cw i = s.read .cw i

/-- 41_rs.md R129: the check bytes are a function of the message and `ec_count` alone. -/
def Obligations.CheckBytesDependOnTheMessageAlone : Prop :=
  ∀ (s s' t t' : State) (n : Byte) (len : BitVec 16), tablesReady s → tablesReady s' →
    7 ≤ n.toNat → n.toNat ≤ 254 → len.toNat ≤ 256 →
    s.block .cw 0 len.toNat = s'.block .cw 0 len.toNat →
    exec (.rsGenerate n len) s = .next t → exec (.rsGenerate n len) s' = .next t' →
      t.block .cw 0 (len.toNat + n.toNat) = t'.block .cw 0 (len.toNat + n.toNat) ∧
      t.block .gen 0 (n.toNat + 1) = t'.block .gen 0 (n.toNat + 1)

/-- 41_rs.md R125: the check bytes of the `xor` of two messages of one length are the `xor` of theirs. -/
def Obligations.CheckBytesAreLinear : Prop :=
  ∀ (s s' s'' t t' t'' : State) (n : Byte) (len : BitVec 16), tablesReady s → tablesReady s' → tablesReady s'' →
    7 ≤ n.toNat → n.toNat ≤ 254 → len.toNat ≤ 256 →
    s''.block .cw 0 len.toNat = List.zipWith (· ^^^ ·) (s.block .cw 0 len.toNat) (s'.block .cw 0 len.toNat) →
    exec (.rsGenerate n len) s = .next t → exec (.rsGenerate n len) s' = .next t' →
    exec (.rsGenerate n len) s'' = .next t'' →
      t''.block .cw len.toNat n.toNat =
        List.zipWith (· ^^^ ·) (t.block .cw len.toNat n.toNat) (t'.block .cw len.toNat n.toNat)

/-- 41_rs.md R124, R125: a zero byte before the message does not change its check bytes. -/
def Obligations.LeadingZeroIsPassedOver : Prop :=
  ∀ (s s' t t' : State) (n : Byte) (len : BitVec 16), tablesReady s → tablesReady s' →
    7 ≤ n.toNat → n.toNat ≤ 254 → len.toNat + 1 ≤ 256 →
    s'.block .cw 0 (len.toNat + 1) = 0 :: s.block .cw 0 len.toNat →
    exec (.rsGenerate n len) s = .next t → exec (.rsGenerate n (len + 1)) s' = .next t' →
      t'.block .cw (len.toNat + 1) n.toNat = t.block .cw len.toNat n.toNat

/-- 41_rs.md R125, R127: the check bytes of an all-zero message, the empty one included, are all zero. -/
def Obligations.ZeroMessageHasZeroCheckBytes : Prop :=
  ∀ (s : State) (n : Byte) (len : BitVec 16), s.flags.gfValid = true → 7 ≤ n.toNat → n.toNat ≤ 254 → len.toNat ≤ 256 →
    s.block .cw 0 len.toNat = List.replicate len.toNat 0 →
      ∃ t, exec (.rsGenerate n len) s = .next t ∧ t.status = .ok ∧
        t.block .cw len.toNat n.toNat = List.replicate n.toNat 0

/-- 41_rs.md R127, its example (95_test_vectors.md T5): the golden vector. -/
def Obligations.GoldenVectorOfTheDivision : Prop :=
  ∀ s : State, tablesReady s → s.block .cw 0 9 = [0x40, 0x00, 0xEC, 0x11, 0xEC, 0x11, 0xEC, 0x11, 0xEC] →
    ∃ t, exec (.rsGenerate 17 9) s = .next t ∧ t.status = .ok ∧ t.cwDataLen = 9 ∧ t.cwTotalLen = 26 ∧
      t.block .cw 9 17 = [0x6D, 0x99, 0xF8, 0xE5, 0x4A, 0x68, 0x67, 0x8E, 0x79, 0x8A, 0x72, 0xAA, 0xA3, 0x82, 0x3E, 0xDD,
        0x9A]

/-! ### bch_format_encoder -/

/-- 42_fmt.md R140, R145 to R147: the printed string for legal operands, `InvalidParameter` for the others. -/
def Obligations.FormatIsThePrintedString : Prop :=
  ∀ (s : State) (version ecLevel maskId : Byte),
    exec (.fmtGenerate version ecLevel maskId) s = .next (
      if 1 ≤ version.toNat ∧ version.toNat ≤ 40 ∧ ecLevel.toNat ≤ 3 ∧ maskId.toNat ≤ 7 then
        { s with format := Reference.formatString version.toNat ecLevel.toNat maskId.toNat, status := .ok }
      else { s with status := .invalidParameter })

/-! ### message_stream_packer -/

/-- 43_msg.md R162, R166: the one least row whose capacity holds the text, whatever the admissible table. -/
def Obligations.FlavorSelectTakesTheLeastFittingRow : Prop :=
  ∀ (s : State) (len : BitVec 16), len.toNat ≤ 106 →
    ∃ i, i ≤ 10 ∧ len.toNat ≤ (flavorRow s.flavors i).capacity.toNat ∧
      (∀ j, j < i → (flavorRow s.flavors j).capacity.toNat < len.toNat) ∧
      exec (.flavorSelect len) s = .next { s with
        payloadLen := BitVec.ofNat 8 len.toNat, flavorIdx := BitVec.ofNat 4 i, flavor := flavorRow s.flavors i,
        flags := { s.flags with flavorValid := true }, status := .ok }

/-- 60_exceptions.md R244, 45_pipeline.md R232: a text longer than 106 bytes is refused by both commands that learn its
length, and nothing else changes. -/
def Obligations.OverlongTextIsRefused : Prop :=
  ∀ (s : State) (len : BitVec 16), 106 < len.toNat →
    exec (.flavorSelect len) s = .next { s with status := .textTooLong } ∧
    exec (.encode len) s = .next { s with status := .textTooLong }

/-- 43_msg.md R162, its last sentence, for the DEFAULT table only (R161, general knowledge; notes/assumptions/5.md): the
first and last length of every row. -/
def Obligations.DefaultTableRowsByLength : Prop :=
  ∀ (s t : State) (len : BitVec 16), s.flavors = Config.defaultTable → exec (.flavorSelect len) s = .next t →
    ∀ row ∈ [(0, 7, 0), (8, 11, 1), (12, 14, 2), (15, 17, 3), (18, 20, 4), (21, 26, 5), (27, 32, 6), (33, 42, 7),
      (43, 53, 8), (54, 78, 9), (79, 106, 10)],
      row.1 ≤ len.toNat → len.toNat ≤ row.2.1 → t.flavorIdx.toNat = row.2.2

/-- 43_msg.md R164, R167: the nibble stream, the pads, the lengths, and every byte of `CW` above. -/
def Obligations.PackedStreamIsTheNibbleStream : Prop :=
  ∀ s : State, s.flags.flavorValid = true → s.payloadLen.toNat ≤ s.flavor.capacity.toNat →
    ∃ t, exec .msgPack s = .next t ∧ t.status = .ok ∧
      t.cwDataLen.toNat = s.flavor.capacity.toNat + 2 ∧ t.cwTotalLen.toNat = s.flavor.capacity.toNat + 2 ∧
      t.block .cw 0 (s.flavor.capacity.toNat + 2) =
        Reference.packed s.flavor.capacity.toNat (s.block .payload 0 s.payloadLen.toNat) ∧
      ∀ i, s.flavor.capacity.toNat + 2 ≤ i → t.read .cw i = s.read .cw i

/-! ### qr_matrix_builder -/

/-- 44_matrix.md R181: legal operands clear the grid and set the walk to the bottom-right corner; others are refused. -/
def Obligations.InitClearsTheGridAndTheWalk : Prop :=
  ∀ (s : State) (version center : Byte),
    if 1 ≤ version.toNat ∧ version.toNat ≤ 5 ∧
      (center.toNat = 0 ∨ 2 ≤ center.toNat ∧ center.toNat ≤ 21 + 4 * (version.toNat - 1) - 3) then
      ∃ t, exec (.mtxInit version center) s = .next t ∧ (∀ r c, t.cell r c = ⟨false, false, false⟩) ∧
        t = { s with
          mtxVersion := version.setWidth 3, mtxSize := BitVec.ofNat 6 (21 + 4 * (version.toNat - 1)),
          mtxAlign := center.setWidth 6, matrix := t.matrix,
          cursor := ⟨BitVec.ofNat 6 (20 + 4 * (version.toNat - 1)), BitVec.ofNat 6 (20 + 4 * (version.toNat - 1)), .up, false⟩,
          bitpos := 0, flags := { s.flags with mtxDone := false }, status := .ok }
    else exec (.mtxInit version center) s = .next { s with status := .invalidParameter }

/-- 44_matrix.md R182 to R185: the three finders, and no other cell. -/
def Obligations.FinderStampsThreeCorners : Prop :=
  ∀ s : State, geometryLegal s → hasMatrix s →
    completedWithCells .mtxFinder s fun r c m => stampedCell (Reference.finderAt s.size r c) m

/-- 44_matrix.md R182, R183, R186: the separators, and no other cell. -/
def Obligations.SeparatorStampsTheInnerBorders : Prop :=
  ∀ s : State, geometryLegal s → hasMatrix s →
    completedWithCells .mtxSeparator s fun r c m => stampedCell (Reference.separatorAt s.size r c) m

/-- 44_matrix.md R182, R183, R187, R188: the alignment pattern, if there is one, and no other cell. -/
def Obligations.AlignStampsAroundTheCenter : Prop :=
  ∀ s : State, geometryLegal s → hasMatrix s →
    completedWithCells .mtxAlign s fun r c m => stampedCell (Reference.alignAt s.mtxAlign.toNat r c) m

/-- 44_matrix.md R182, R183, R189, R190: the timing patterns and the dark module, and no other cell. -/
def Obligations.TimingAndDarkStampTheirCells : Prop :=
  ∀ s : State, geometryLegal s → hasMatrix s →
    (completedWithCells .mtxTiming s fun r c m => stampedCell (Reference.timingAt s.size r c) m) ∧
    completedWithCells .mtxDark s fun r c m => stampedCell (Reference.darkAt s.mtxVersion.toNat r c) m

/-- 44_matrix.md R183, R191, R192: the bands become taken and no value changes. -/
def Obligations.ReserveTakesTheBandsOnly : Prop :=
  ∀ s : State, geometryLegal s → hasMatrix s →
    completedWithCells .mtxReserve s fun r c m => if Reference.inBand s.size r c then { m with taken := true } else m

/-- 44_matrix.md R193: size, taken cells and free cells after steps 0 to 6 in order, for the five versions with their
alignment centres. -/
def Obligations.FreeCellsBeforePlacement : Prop :=
  ∀ (s : State) (v a : Byte) (size taken free : Nat),
    (v.toNat, a.toNat, size, taken, free) ∈
      [(1, 0, 21, 233, 208), (2, 18, 25, 266, 359), (3, 22, 29, 274, 567), (4, 26, 33, 282, 807), (5, 30, 37, 290, 1079)] →
    ∃ t, execAll [.mtxInit v a, .mtxFinder, .mtxSeparator, .mtxAlign, .mtxTiming, .mtxDark, .mtxReserve] s = .next t ∧
      t.status = .ok ∧ t.size = size ∧
      ((symbolCells size).filter fun cell => (t.cell cell.1 cell.2).taken).length = taken ∧
      ((symbolCells size).filter fun cell => !(t.cell cell.1 cell.2).taken).length = free

/-! ### zig_zag_placement_fsm -/

/-- 44_matrix.md R194, R195, R198: the transition function visits the cells in the zig-zag order, for all five sizes, and
ends exhausted. -/
def Obligations.AdvanceFollowsTheVisitingOrder : Prop :=
  ∀ version, 1 ≤ version → version ≤ 5 →
    let size := 21 + 4 * (version - 1)
    let start : Cursor := ⟨BitVec.ofNat 6 (size - 1), BitVec.ofNat 6 (size - 1), .up, false⟩
    (∀ k, k < size * (size - 1) →
      let c := (Cursor.advance size)^[k] start
      (Reference.visitOrder size)[k]? = some (c.row.toNat, c.col.toNat)) ∧
    (Cursor.advance size)^[size * (size - 1)] start = ⟨BitVec.ofNat 6 (size - 1), 63, .up, false⟩

/-- 44_matrix.md R197, R206: a placement, in any state with a matrix, completes, leaves every taken cell as it was, and
turns each cell it writes from free into data. -/
def Obligations.PlacementWritesOnlyFreeCells : Prop :=
  ∀ (s : State) (nbits : BitVec 16), hasMatrix s →
    ∃ t, exec (.mtxPlace nbits) s = .next t ∧ t.status = .ok ∧
      ∀ r c, ((s.cell r c).taken = true → t.cell r c = s.cell r c) ∧
        (t.cell r c ≠ s.cell r c → (s.cell r c).taken = false ∧ (t.cell r c).taken = true ∧ (t.cell r c).isData = true)

/-- 44_matrix.md R197, 70_reset_and_hazards.md R268: two placements are one of the sum. -/
def Obligations.PlacementInPartsIsPlacementAtOnce : Prop :=
  ∀ (s : State) (m n : BitVec 16), Inv s → hasMatrix s → m.toNat + n.toNat < 65536 →
    ∃ t u, exec (.mtxPlace m) s = .next t ∧ exec (.mtxPlace n) t = .next u ∧ exec (.mtxPlace (m + n)) s = .next u ∧
      u.status = .ok

/-- 44_matrix.md R194, R196, R197, R206, 20_memory.md R64: with the cursor at position `p` of the visiting order, the free
cells from there on receive the bits of the stream one by one, most significant bit first, until the bits asked for, the
stream or the free cells are used up. No other cell changes. The cursor rests after the last cell written, and is exhausted
when free cells were wanting. -/
def Obligations.PlacementFillsTheFreeCellsInOrder : Prop :=
  ∀ (s : State) (nbits : BitVec 16) (p : Nat), Inv s → hasMatrix s → p ≤ s.size * (s.size - 1) →
    let start : Cursor := ⟨s.mtxSize - 1, s.mtxSize - 1, .up, false⟩
    let order := Reference.visitOrder s.size
    let free := (order.drop p).filter fun cell => !(s.cell cell.1 cell.2).taken
    let wanted := min nbits.toNat (8 * s.cwTotalLen.toNat - s.bitpos.toNat)
    let n := min wanted free.length
    s.cursor = (Cursor.advance s.size)^[p] start →
    ∃ t q, exec (.mtxPlace nbits) s = .next t ∧ t.status = .ok ∧ t.bitpos.toNat = s.bitpos.toNat + n ∧
      (∀ k, k < n → t.cell (free.getD k (0, 0)).1 (free.getD k (0, 0)).2 =
        ⟨(s.read .cw ((s.bitpos.toNat + k) / 8)).getLsbD (7 - (s.bitpos.toNat + k) % 8), true, true⟩) ∧
      (∀ r c, (r, c) ∉ free.take n → t.cell r c = s.cell r c) ∧
      t.cursor = (Cursor.advance s.size)^[q] start ∧
      if n < wanted then q = s.size * (s.size - 1)
      else if n = 0 then q = p
      else 0 < q ∧ order[q - 1]? = free[n - 1]?

/-- 44_matrix.md R206, its second and third clause: every bit placed makes one more cell a data cell. -/
def Obligations.EveryPlacedBitMakesOneDataCell : Prop :=
  ∀ (s : State) (nbits : BitVec 16), Inv s → hasMatrix s →
    let dataCells (u : State) := ((symbolCells u.size).filter fun cell => (u.cell cell.1 cell.2).isData).length
    ∃ t, exec (.mtxPlace nbits) s = .next t ∧ s.bitpos.toNat ≤ t.bitpos.toNat ∧
      dataCells t = dataCells s + (t.bitpos.toNat - s.bitpos.toNat)

/-! ### mask_applier and the format bits -/

/-- 44_matrix.md R183, R200, R201: the value of every data cell and every free cell of the symbol is flipped where the
mask bit is 1; nothing else changes. -/
def Obligations.MaskFlipsDataAndFreeCells : Prop :=
  ∀ s : State, hasMatrix s →
    completedWithCells .mtxMask s fun r c m =>
      if r < s.size ∧ c < s.size ∧ (m.isData = true ∨ m.taken = false) ∧ ((r * c) % 2 + (r * c) % 3) % 2 = 0 then
        { m with value := !m.value } else m

/-- 44_matrix.md R202: two masks in a row leave the state as it was, but for `MTX_DONE` and `STATUS`. -/
def Obligations.MaskTwiceRestoresTheMatrix : Prop :=
  ∀ s : State, Inv s → hasMatrix s →
    ∃ t, exec .mtxMask s = .next t ∧
      exec .mtxMask t = .next { s with flags := { s.flags with mtxDone := false }, status := .ok }

/-- 44_matrix.md R183, R203, R204: both copies of the 15 bits, `taken` and `is_data` untouched, and no other cell. -/
def Obligations.FormatWritesBothCopies : Prop :=
  ∀ s : State, geometryLegal s → hasMatrix s →
    completedWithCells .mtxFormat s fun r c m =>
      match Reference.formatBitAt s.size r c with
      | none => m
      | some i => { m with value := s.format.getLsbD i }

/-! ### The composite commands -/

/-- 44_matrix.md R205: `MTX_BUILD` is the format string and steps 0 to 9, then `MTX_DONE`. -/
def Obligations.BuildIsTheNineSteps : Prop :=
  ∀ s : State, Inv s → s.flags.flavorValid = true →
    ∃ t, execAll [.fmtGenerate (s.flavor.version.setWidth 8) (s.flavor.ecLevel.setWidth 8) 6,
        .mtxInit (s.flavor.version.setWidth 8) (s.flavor.alignCenter.setWidth 8),
        .mtxFinder, .mtxSeparator, .mtxAlign, .mtxTiming, .mtxDark, .mtxReserve,
        .mtxPlace (BitVec.ofNat 16 (8 * s.cwTotalLen.toNat)), .mtxMask, .mtxFormat] s = .next t ∧ t.status = .ok ∧
      exec .mtxBuild s = .next { t with flags := { t.flags with mtxDone := true } }

/-- 45_pipeline.md R230: `ENCODE` is equal in effect to the host's sequence of single commands. -/
def Obligations.EncodeIsTheSequenceOfItsCommands : Prop :=
  ∀ (s : State) (len : BitVec 16), len.toNat ≤ 106 →
    let f := flavorRow s.flavors (leastRow s.flavors len.toNat)
    ∃ t, execAll [.flavorSelect len, .gfBuild, .msgPack,
        .rsGenerate f.ecCount (BitVec.ofNat 16 (f.capacity.toNat + 2)), .mtxBuild] s = .next t ∧ t.status = .ok ∧
      exec (.encode len) s = .next t

/-- 45_pipeline.md R230, R231, 70_reset_and_hazards.md R270: what the host finds after a successful `ENCODE`, from any state,
for any admissible table; `CW` and `GEN` above the live part keep what they held. -/
def Obligations.EncodeLeavesTheFinishedSymbol : Prop :=
  ∀ (s : State) (len : BitVec 16), len.toNat ≤ 106 →
    ∃ t i, exec (.encode len) s = .next t ∧ t.status = .ok ∧ t.flags = ⟨true, true, true⟩ ∧ t.result = s.result ∧
      i ≤ 10 ∧ len.toNat ≤ (flavorRow s.flavors i).capacity.toNat ∧
      (∀ j, j < i → (flavorRow s.flavors j).capacity.toNat < len.toNat) ∧
      t.flavorIdx.toNat = i ∧ t.flavor = flavorRow s.flavors i ∧ t.payloadLen.toNat = len.toNat ∧
      t.block .cw 0 (t.flavor.capacity.toNat + 2) =
        Reference.packed t.flavor.capacity.toNat (s.block .payload 0 len.toNat) ∧
      t.cwDataLen.toNat = t.flavor.capacity.toNat + 2 ∧
      t.cwTotalLen.toNat = t.flavor.capacity.toNat + 2 + t.flavor.ecCount.toNat ∧
      t.genLen.toNat = t.flavor.ecCount.toNat + 1 ∧
      t.format = Reference.formatString t.flavor.version.toNat t.flavor.ecLevel.toNat 6 ∧
      t.mtxVersion = t.flavor.version ∧ t.size = 21 + 4 * (t.flavor.version.toNat - 1) ∧
      t.mtxAlign = t.flavor.alignCenter ∧ tablesReady t ∧
      (∀ k, t.cwTotalLen.toNat ≤ k → t.read .cw k = s.read .cw k) ∧ ∀ k, t.genLen.toNat ≤ k → t.read .gen k = s.read .gen k

/-- 45_pipeline.md R234: nothing carries over: two `ENCODE`s of one text in any two states with one table leave the same
registers, stream, generator and matrix. -/
def Obligations.EncodeDependsOnTheTextAlone : Prop :=
  ∀ (s s' : State) (len : BitVec 16), len.toNat ≤ 106 → s.flavors = s'.flavors →
    s.block .payload 0 len.toNat = s'.block .payload 0 len.toNat →
    ∃ t t', exec (.encode len) s = .next t ∧ exec (.encode len) s' = .next t' ∧
      (∀ n, n ≠ 1 → hostRead t 0 n = hostRead t' 0 n) ∧
      t.block .cw 0 t.cwTotalLen.toNat = t'.block .cw 0 t.cwTotalLen.toNat ∧
      t.block .gen 0 t.genLen.toNat = t'.block .gen 0 t.genLen.toNat ∧
      t.matrix = t'.matrix

/-- 45_pipeline.md R231, 44_matrix.md R199, R206, for the DEFAULT table only (43_msg.md R161, general knowledge;
notes/assumptions/5.md): the whole stream is placed, one data cell a bit, and 0 free cells remain in version 1, 7 in
versions 2 to 5. -/
def Obligations.EncodePlacesEveryStreamBit : Prop :=
  ∀ (s : State) (len : BitVec 16), len.toNat ≤ 106 → s.flavors = Config.defaultTable →
    ∃ t, exec (.encode len) s = .next t ∧ t.bitpos.toNat = 8 * t.cwTotalLen.toNat ∧
      ((symbolCells t.size).filter fun cell => (t.cell cell.1 cell.2).isData).length = 8 * t.cwTotalLen.toNat ∧
      ((symbolCells t.size).filter fun cell => !(t.cell cell.1 cell.2).taken).length =
        if t.mtxVersion = 1 then 0 else 7
end

