-- ==== Sys2Proof/Laws/State.lean ====
section
/-! SUPPORT. For each named update of State, what every field of the result holds. No later proof unfolds a record
update. -/

namespace Sys2Proof.Machine

/-! ### raise -/

@[simp] theorem State.raise_status (s : State) (code : Status) : (s.raise code).status = code := rfl
@[simp] theorem State.raise_result (s : State) (code : Status) : (s.raise code).result = s.result := rfl
@[simp] theorem State.raise_flags (s : State) (code : Status) : (s.raise code).flags = s.flags := rfl
@[simp] theorem State.raise_payloadLen (s : State) (code : Status) : (s.raise code).payloadLen = s.payloadLen := rfl
@[simp] theorem State.raise_flavorIdx (s : State) (code : Status) : (s.raise code).flavorIdx = s.flavorIdx := rfl
@[simp] theorem State.raise_flavor (s : State) (code : Status) : (s.raise code).flavor = s.flavor := rfl
@[simp] theorem State.raise_cwDataLen (s : State) (code : Status) : (s.raise code).cwDataLen = s.cwDataLen := rfl
@[simp] theorem State.raise_cwTotalLen (s : State) (code : Status) : (s.raise code).cwTotalLen = s.cwTotalLen := rfl
@[simp] theorem State.raise_genLen (s : State) (code : Status) : (s.raise code).genLen = s.genLen := rfl
@[simp] theorem State.raise_format (s : State) (code : Status) : (s.raise code).format = s.format := rfl
@[simp] theorem State.raise_mtxVersion (s : State) (code : Status) : (s.raise code).mtxVersion = s.mtxVersion := rfl
@[simp] theorem State.raise_mtxSize (s : State) (code : Status) : (s.raise code).mtxSize = s.mtxSize := rfl
@[simp] theorem State.raise_mtxAlign (s : State) (code : Status) : (s.raise code).mtxAlign = s.mtxAlign := rfl
@[simp] theorem State.raise_cursor (s : State) (code : Status) : (s.raise code).cursor = s.cursor := rfl
@[simp] theorem State.raise_bitpos (s : State) (code : Status) : (s.raise code).bitpos = s.bitpos := rfl
@[simp] theorem State.raise_payload (s : State) (code : Status) : (s.raise code).payload = s.payload := rfl
@[simp] theorem State.raise_cw (s : State) (code : Status) : (s.raise code).cw = s.cw := rfl
@[simp] theorem State.raise_gen (s : State) (code : Status) : (s.raise code).gen = s.gen := rfl
@[simp] theorem State.raise_gfExp (s : State) (code : Status) : (s.raise code).gfExp = s.gfExp := rfl
@[simp] theorem State.raise_gfLog (s : State) (code : Status) : (s.raise code).gfLog = s.gfLog := rfl
@[simp] theorem State.raise_rem (s : State) (code : Status) : (s.raise code).rem = s.rem := rfl
@[simp] theorem State.raise_matrix (s : State) (code : Status) : (s.raise code).matrix = s.matrix := rfl
@[simp] theorem State.raise_flavors (s : State) (code : Status) : (s.raise code).flavors = s.flavors := rfl
@[simp] theorem State.raise_resets (s : State) (code : Status) : (s.raise code).resets = s.resets := rfl
@[simp] theorem State.raise_inbox (s : State) (code : Status) : (s.raise code).inbox = s.inbox := rfl
@[simp] theorem State.raise_reads (s : State) (code : Status) : (s.raise code).reads = s.reads := rfl

/-! ### complete -/

@[simp] theorem State.complete_status (s : State) : (s.complete).status = .ok := rfl
@[simp] theorem State.complete_result (s : State) : (s.complete).result = s.result := rfl
@[simp] theorem State.complete_flags (s : State) : (s.complete).flags = s.flags := rfl
@[simp] theorem State.complete_payloadLen (s : State) : (s.complete).payloadLen = s.payloadLen := rfl
@[simp] theorem State.complete_flavorIdx (s : State) : (s.complete).flavorIdx = s.flavorIdx := rfl
@[simp] theorem State.complete_flavor (s : State) : (s.complete).flavor = s.flavor := rfl
@[simp] theorem State.complete_cwDataLen (s : State) : (s.complete).cwDataLen = s.cwDataLen := rfl
@[simp] theorem State.complete_cwTotalLen (s : State) : (s.complete).cwTotalLen = s.cwTotalLen := rfl
@[simp] theorem State.complete_genLen (s : State) : (s.complete).genLen = s.genLen := rfl
@[simp] theorem State.complete_format (s : State) : (s.complete).format = s.format := rfl
@[simp] theorem State.complete_mtxVersion (s : State) : (s.complete).mtxVersion = s.mtxVersion := rfl
@[simp] theorem State.complete_mtxSize (s : State) : (s.complete).mtxSize = s.mtxSize := rfl
@[simp] theorem State.complete_mtxAlign (s : State) : (s.complete).mtxAlign = s.mtxAlign := rfl
@[simp] theorem State.complete_cursor (s : State) : (s.complete).cursor = s.cursor := rfl
@[simp] theorem State.complete_bitpos (s : State) : (s.complete).bitpos = s.bitpos := rfl
@[simp] theorem State.complete_payload (s : State) : (s.complete).payload = s.payload := rfl
@[simp] theorem State.complete_cw (s : State) : (s.complete).cw = s.cw := rfl
@[simp] theorem State.complete_gen (s : State) : (s.complete).gen = s.gen := rfl
@[simp] theorem State.complete_gfExp (s : State) : (s.complete).gfExp = s.gfExp := rfl
@[simp] theorem State.complete_gfLog (s : State) : (s.complete).gfLog = s.gfLog := rfl
@[simp] theorem State.complete_rem (s : State) : (s.complete).rem = s.rem := rfl
@[simp] theorem State.complete_matrix (s : State) : (s.complete).matrix = s.matrix := rfl
@[simp] theorem State.complete_flavors (s : State) : (s.complete).flavors = s.flavors := rfl
@[simp] theorem State.complete_resets (s : State) : (s.complete).resets = s.resets := rfl
@[simp] theorem State.complete_inbox (s : State) : (s.complete).inbox = s.inbox := rfl
@[simp] theorem State.complete_reads (s : State) : (s.complete).reads = s.reads := rfl

/-! ### setResult -/

@[simp] theorem State.setResult_status (s : State) (v : Byte) : (s.setResult v).status = s.status := rfl
@[simp] theorem State.setResult_result (s : State) (v : Byte) : (s.setResult v).result = v := rfl
@[simp] theorem State.setResult_flags (s : State) (v : Byte) : (s.setResult v).flags = s.flags := rfl
@[simp] theorem State.setResult_payloadLen (s : State) (v : Byte) : (s.setResult v).payloadLen = s.payloadLen := rfl
@[simp] theorem State.setResult_flavorIdx (s : State) (v : Byte) : (s.setResult v).flavorIdx = s.flavorIdx := rfl
@[simp] theorem State.setResult_flavor (s : State) (v : Byte) : (s.setResult v).flavor = s.flavor := rfl
@[simp] theorem State.setResult_cwDataLen (s : State) (v : Byte) : (s.setResult v).cwDataLen = s.cwDataLen := rfl
@[simp] theorem State.setResult_cwTotalLen (s : State) (v : Byte) : (s.setResult v).cwTotalLen = s.cwTotalLen := rfl
@[simp] theorem State.setResult_genLen (s : State) (v : Byte) : (s.setResult v).genLen = s.genLen := rfl
@[simp] theorem State.setResult_format (s : State) (v : Byte) : (s.setResult v).format = s.format := rfl
@[simp] theorem State.setResult_mtxVersion (s : State) (v : Byte) : (s.setResult v).mtxVersion = s.mtxVersion := rfl
@[simp] theorem State.setResult_mtxSize (s : State) (v : Byte) : (s.setResult v).mtxSize = s.mtxSize := rfl
@[simp] theorem State.setResult_mtxAlign (s : State) (v : Byte) : (s.setResult v).mtxAlign = s.mtxAlign := rfl
@[simp] theorem State.setResult_cursor (s : State) (v : Byte) : (s.setResult v).cursor = s.cursor := rfl
@[simp] theorem State.setResult_bitpos (s : State) (v : Byte) : (s.setResult v).bitpos = s.bitpos := rfl
@[simp] theorem State.setResult_payload (s : State) (v : Byte) : (s.setResult v).payload = s.payload := rfl
@[simp] theorem State.setResult_cw (s : State) (v : Byte) : (s.setResult v).cw = s.cw := rfl
@[simp] theorem State.setResult_gen (s : State) (v : Byte) : (s.setResult v).gen = s.gen := rfl
@[simp] theorem State.setResult_gfExp (s : State) (v : Byte) : (s.setResult v).gfExp = s.gfExp := rfl
@[simp] theorem State.setResult_gfLog (s : State) (v : Byte) : (s.setResult v).gfLog = s.gfLog := rfl
@[simp] theorem State.setResult_rem (s : State) (v : Byte) : (s.setResult v).rem = s.rem := rfl
@[simp] theorem State.setResult_matrix (s : State) (v : Byte) : (s.setResult v).matrix = s.matrix := rfl
@[simp] theorem State.setResult_flavors (s : State) (v : Byte) : (s.setResult v).flavors = s.flavors := rfl
@[simp] theorem State.setResult_resets (s : State) (v : Byte) : (s.setResult v).resets = s.resets := rfl
@[simp] theorem State.setResult_inbox (s : State) (v : Byte) : (s.setResult v).inbox = s.inbox := rfl
@[simp] theorem State.setResult_reads (s : State) (v : Byte) : (s.setResult v).reads = s.reads := rfl

/-! ### setGfValid -/

@[simp] theorem State.setGfValid_status (s : State) : (s.setGfValid).status = s.status := rfl
@[simp] theorem State.setGfValid_result (s : State) : (s.setGfValid).result = s.result := rfl
@[simp] theorem State.setGfValid_flags (s : State) : (s.setGfValid).flags = ⟨true, s.flags.flavorValid, s.flags.mtxDone⟩ := rfl
@[simp] theorem State.setGfValid_payloadLen (s : State) : (s.setGfValid).payloadLen = s.payloadLen := rfl
@[simp] theorem State.setGfValid_flavorIdx (s : State) : (s.setGfValid).flavorIdx = s.flavorIdx := rfl
@[simp] theorem State.setGfValid_flavor (s : State) : (s.setGfValid).flavor = s.flavor := rfl
@[simp] theorem State.setGfValid_cwDataLen (s : State) : (s.setGfValid).cwDataLen = s.cwDataLen := rfl
@[simp] theorem State.setGfValid_cwTotalLen (s : State) : (s.setGfValid).cwTotalLen = s.cwTotalLen := rfl
@[simp] theorem State.setGfValid_genLen (s : State) : (s.setGfValid).genLen = s.genLen := rfl
@[simp] theorem State.setGfValid_format (s : State) : (s.setGfValid).format = s.format := rfl
@[simp] theorem State.setGfValid_mtxVersion (s : State) : (s.setGfValid).mtxVersion = s.mtxVersion := rfl
@[simp] theorem State.setGfValid_mtxSize (s : State) : (s.setGfValid).mtxSize = s.mtxSize := rfl
@[simp] theorem State.setGfValid_mtxAlign (s : State) : (s.setGfValid).mtxAlign = s.mtxAlign := rfl
@[simp] theorem State.setGfValid_cursor (s : State) : (s.setGfValid).cursor = s.cursor := rfl
@[simp] theorem State.setGfValid_bitpos (s : State) : (s.setGfValid).bitpos = s.bitpos := rfl
@[simp] theorem State.setGfValid_payload (s : State) : (s.setGfValid).payload = s.payload := rfl
@[simp] theorem State.setGfValid_cw (s : State) : (s.setGfValid).cw = s.cw := rfl
@[simp] theorem State.setGfValid_gen (s : State) : (s.setGfValid).gen = s.gen := rfl
@[simp] theorem State.setGfValid_gfExp (s : State) : (s.setGfValid).gfExp = s.gfExp := rfl
@[simp] theorem State.setGfValid_gfLog (s : State) : (s.setGfValid).gfLog = s.gfLog := rfl
@[simp] theorem State.setGfValid_rem (s : State) : (s.setGfValid).rem = s.rem := rfl
@[simp] theorem State.setGfValid_matrix (s : State) : (s.setGfValid).matrix = s.matrix := rfl
@[simp] theorem State.setGfValid_flavors (s : State) : (s.setGfValid).flavors = s.flavors := rfl
@[simp] theorem State.setGfValid_resets (s : State) : (s.setGfValid).resets = s.resets := rfl
@[simp] theorem State.setGfValid_inbox (s : State) : (s.setGfValid).inbox = s.inbox := rfl
@[simp] theorem State.setGfValid_reads (s : State) : (s.setGfValid).reads = s.reads := rfl

/-! ### setFlavorValid -/

@[simp] theorem State.setFlavorValid_status (s : State) : (s.setFlavorValid).status = s.status := rfl
@[simp] theorem State.setFlavorValid_result (s : State) : (s.setFlavorValid).result = s.result := rfl
@[simp] theorem State.setFlavorValid_flags (s : State) : (s.setFlavorValid).flags = ⟨s.flags.gfValid, true, s.flags.mtxDone⟩ := rfl
@[simp] theorem State.setFlavorValid_payloadLen (s : State) : (s.setFlavorValid).payloadLen = s.payloadLen := rfl
@[simp] theorem State.setFlavorValid_flavorIdx (s : State) : (s.setFlavorValid).flavorIdx = s.flavorIdx := rfl
@[simp] theorem State.setFlavorValid_flavor (s : State) : (s.setFlavorValid).flavor = s.flavor := rfl
@[simp] theorem State.setFlavorValid_cwDataLen (s : State) : (s.setFlavorValid).cwDataLen = s.cwDataLen := rfl
@[simp] theorem State.setFlavorValid_cwTotalLen (s : State) : (s.setFlavorValid).cwTotalLen = s.cwTotalLen := rfl
@[simp] theorem State.setFlavorValid_genLen (s : State) : (s.setFlavorValid).genLen = s.genLen := rfl
@[simp] theorem State.setFlavorValid_format (s : State) : (s.setFlavorValid).format = s.format := rfl
@[simp] theorem State.setFlavorValid_mtxVersion (s : State) : (s.setFlavorValid).mtxVersion = s.mtxVersion := rfl
@[simp] theorem State.setFlavorValid_mtxSize (s : State) : (s.setFlavorValid).mtxSize = s.mtxSize := rfl
@[simp] theorem State.setFlavorValid_mtxAlign (s : State) : (s.setFlavorValid).mtxAlign = s.mtxAlign := rfl
@[simp] theorem State.setFlavorValid_cursor (s : State) : (s.setFlavorValid).cursor = s.cursor := rfl
@[simp] theorem State.setFlavorValid_bitpos (s : State) : (s.setFlavorValid).bitpos = s.bitpos := rfl
@[simp] theorem State.setFlavorValid_payload (s : State) : (s.setFlavorValid).payload = s.payload := rfl
@[simp] theorem State.setFlavorValid_cw (s : State) : (s.setFlavorValid).cw = s.cw := rfl
@[simp] theorem State.setFlavorValid_gen (s : State) : (s.setFlavorValid).gen = s.gen := rfl
@[simp] theorem State.setFlavorValid_gfExp (s : State) : (s.setFlavorValid).gfExp = s.gfExp := rfl
@[simp] theorem State.setFlavorValid_gfLog (s : State) : (s.setFlavorValid).gfLog = s.gfLog := rfl
@[simp] theorem State.setFlavorValid_rem (s : State) : (s.setFlavorValid).rem = s.rem := rfl
@[simp] theorem State.setFlavorValid_matrix (s : State) : (s.setFlavorValid).matrix = s.matrix := rfl
@[simp] theorem State.setFlavorValid_flavors (s : State) : (s.setFlavorValid).flavors = s.flavors := rfl
@[simp] theorem State.setFlavorValid_resets (s : State) : (s.setFlavorValid).resets = s.resets := rfl
@[simp] theorem State.setFlavorValid_inbox (s : State) : (s.setFlavorValid).inbox = s.inbox := rfl
@[simp] theorem State.setFlavorValid_reads (s : State) : (s.setFlavorValid).reads = s.reads := rfl

/-! ### setMtxDone -/

@[simp] theorem State.setMtxDone_status (s : State) (b : Bool) : (s.setMtxDone b).status = s.status := rfl
@[simp] theorem State.setMtxDone_result (s : State) (b : Bool) : (s.setMtxDone b).result = s.result := rfl
@[simp] theorem State.setMtxDone_flags (s : State) (b : Bool) : (s.setMtxDone b).flags = ⟨s.flags.gfValid, s.flags.flavorValid, b⟩ := rfl
@[simp] theorem State.setMtxDone_payloadLen (s : State) (b : Bool) : (s.setMtxDone b).payloadLen = s.payloadLen := rfl
@[simp] theorem State.setMtxDone_flavorIdx (s : State) (b : Bool) : (s.setMtxDone b).flavorIdx = s.flavorIdx := rfl
@[simp] theorem State.setMtxDone_flavor (s : State) (b : Bool) : (s.setMtxDone b).flavor = s.flavor := rfl
@[simp] theorem State.setMtxDone_cwDataLen (s : State) (b : Bool) : (s.setMtxDone b).cwDataLen = s.cwDataLen := rfl
@[simp] theorem State.setMtxDone_cwTotalLen (s : State) (b : Bool) : (s.setMtxDone b).cwTotalLen = s.cwTotalLen := rfl
@[simp] theorem State.setMtxDone_genLen (s : State) (b : Bool) : (s.setMtxDone b).genLen = s.genLen := rfl
@[simp] theorem State.setMtxDone_format (s : State) (b : Bool) : (s.setMtxDone b).format = s.format := rfl
@[simp] theorem State.setMtxDone_mtxVersion (s : State) (b : Bool) : (s.setMtxDone b).mtxVersion = s.mtxVersion := rfl
@[simp] theorem State.setMtxDone_mtxSize (s : State) (b : Bool) : (s.setMtxDone b).mtxSize = s.mtxSize := rfl
@[simp] theorem State.setMtxDone_mtxAlign (s : State) (b : Bool) : (s.setMtxDone b).mtxAlign = s.mtxAlign := rfl
@[simp] theorem State.setMtxDone_cursor (s : State) (b : Bool) : (s.setMtxDone b).cursor = s.cursor := rfl
@[simp] theorem State.setMtxDone_bitpos (s : State) (b : Bool) : (s.setMtxDone b).bitpos = s.bitpos := rfl
@[simp] theorem State.setMtxDone_payload (s : State) (b : Bool) : (s.setMtxDone b).payload = s.payload := rfl
@[simp] theorem State.setMtxDone_cw (s : State) (b : Bool) : (s.setMtxDone b).cw = s.cw := rfl
@[simp] theorem State.setMtxDone_gen (s : State) (b : Bool) : (s.setMtxDone b).gen = s.gen := rfl
@[simp] theorem State.setMtxDone_gfExp (s : State) (b : Bool) : (s.setMtxDone b).gfExp = s.gfExp := rfl
@[simp] theorem State.setMtxDone_gfLog (s : State) (b : Bool) : (s.setMtxDone b).gfLog = s.gfLog := rfl
@[simp] theorem State.setMtxDone_rem (s : State) (b : Bool) : (s.setMtxDone b).rem = s.rem := rfl
@[simp] theorem State.setMtxDone_matrix (s : State) (b : Bool) : (s.setMtxDone b).matrix = s.matrix := rfl
@[simp] theorem State.setMtxDone_flavors (s : State) (b : Bool) : (s.setMtxDone b).flavors = s.flavors := rfl
@[simp] theorem State.setMtxDone_resets (s : State) (b : Bool) : (s.setMtxDone b).resets = s.resets := rfl
@[simp] theorem State.setMtxDone_inbox (s : State) (b : Bool) : (s.setMtxDone b).inbox = s.inbox := rfl
@[simp] theorem State.setMtxDone_reads (s : State) (b : Bool) : (s.setMtxDone b).reads = s.reads := rfl

/-! ### setFormat -/

@[simp] theorem State.setFormat_status (s : State) (v : BitVec 18) : (s.setFormat v).status = s.status := rfl
@[simp] theorem State.setFormat_result (s : State) (v : BitVec 18) : (s.setFormat v).result = s.result := rfl
@[simp] theorem State.setFormat_flags (s : State) (v : BitVec 18) : (s.setFormat v).flags = s.flags := rfl
@[simp] theorem State.setFormat_payloadLen (s : State) (v : BitVec 18) : (s.setFormat v).payloadLen = s.payloadLen := rfl
@[simp] theorem State.setFormat_flavorIdx (s : State) (v : BitVec 18) : (s.setFormat v).flavorIdx = s.flavorIdx := rfl
@[simp] theorem State.setFormat_flavor (s : State) (v : BitVec 18) : (s.setFormat v).flavor = s.flavor := rfl
@[simp] theorem State.setFormat_cwDataLen (s : State) (v : BitVec 18) : (s.setFormat v).cwDataLen = s.cwDataLen := rfl
@[simp] theorem State.setFormat_cwTotalLen (s : State) (v : BitVec 18) : (s.setFormat v).cwTotalLen = s.cwTotalLen := rfl
@[simp] theorem State.setFormat_genLen (s : State) (v : BitVec 18) : (s.setFormat v).genLen = s.genLen := rfl
@[simp] theorem State.setFormat_format (s : State) (v : BitVec 18) : (s.setFormat v).format = v := rfl
@[simp] theorem State.setFormat_mtxVersion (s : State) (v : BitVec 18) : (s.setFormat v).mtxVersion = s.mtxVersion := rfl
@[simp] theorem State.setFormat_mtxSize (s : State) (v : BitVec 18) : (s.setFormat v).mtxSize = s.mtxSize := rfl
@[simp] theorem State.setFormat_mtxAlign (s : State) (v : BitVec 18) : (s.setFormat v).mtxAlign = s.mtxAlign := rfl
@[simp] theorem State.setFormat_cursor (s : State) (v : BitVec 18) : (s.setFormat v).cursor = s.cursor := rfl
@[simp] theorem State.setFormat_bitpos (s : State) (v : BitVec 18) : (s.setFormat v).bitpos = s.bitpos := rfl
@[simp] theorem State.setFormat_payload (s : State) (v : BitVec 18) : (s.setFormat v).payload = s.payload := rfl
@[simp] theorem State.setFormat_cw (s : State) (v : BitVec 18) : (s.setFormat v).cw = s.cw := rfl
@[simp] theorem State.setFormat_gen (s : State) (v : BitVec 18) : (s.setFormat v).gen = s.gen := rfl
@[simp] theorem State.setFormat_gfExp (s : State) (v : BitVec 18) : (s.setFormat v).gfExp = s.gfExp := rfl
@[simp] theorem State.setFormat_gfLog (s : State) (v : BitVec 18) : (s.setFormat v).gfLog = s.gfLog := rfl
@[simp] theorem State.setFormat_rem (s : State) (v : BitVec 18) : (s.setFormat v).rem = s.rem := rfl
@[simp] theorem State.setFormat_matrix (s : State) (v : BitVec 18) : (s.setFormat v).matrix = s.matrix := rfl
@[simp] theorem State.setFormat_flavors (s : State) (v : BitVec 18) : (s.setFormat v).flavors = s.flavors := rfl
@[simp] theorem State.setFormat_resets (s : State) (v : BitVec 18) : (s.setFormat v).resets = s.resets := rfl
@[simp] theorem State.setFormat_inbox (s : State) (v : BitVec 18) : (s.setFormat v).inbox = s.inbox := rfl
@[simp] theorem State.setFormat_reads (s : State) (v : BitVec 18) : (s.setFormat v).reads = s.reads := rfl

/-! ### setStreamLen -/

@[simp] theorem State.setStreamLen_status (s : State) (d n : Nat) : (s.setStreamLen d n).status = s.status := rfl
@[simp] theorem State.setStreamLen_result (s : State) (d n : Nat) : (s.setStreamLen d n).result = s.result := rfl
@[simp] theorem State.setStreamLen_flags (s : State) (d n : Nat) : (s.setStreamLen d n).flags = s.flags := rfl
@[simp] theorem State.setStreamLen_payloadLen (s : State) (d n : Nat) : (s.setStreamLen d n).payloadLen = s.payloadLen := rfl
@[simp] theorem State.setStreamLen_flavorIdx (s : State) (d n : Nat) : (s.setStreamLen d n).flavorIdx = s.flavorIdx := rfl
@[simp] theorem State.setStreamLen_flavor (s : State) (d n : Nat) : (s.setStreamLen d n).flavor = s.flavor := rfl
@[simp] theorem State.setStreamLen_cwDataLen (s : State) (d n : Nat) : (s.setStreamLen d n).cwDataLen = BitVec.ofNat 9 d := rfl
@[simp] theorem State.setStreamLen_cwTotalLen (s : State) (d n : Nat) : (s.setStreamLen d n).cwTotalLen = BitVec.ofNat 10 n := rfl
@[simp] theorem State.setStreamLen_genLen (s : State) (d n : Nat) : (s.setStreamLen d n).genLen = s.genLen := rfl
@[simp] theorem State.setStreamLen_format (s : State) (d n : Nat) : (s.setStreamLen d n).format = s.format := rfl
@[simp] theorem State.setStreamLen_mtxVersion (s : State) (d n : Nat) : (s.setStreamLen d n).mtxVersion = s.mtxVersion := rfl
@[simp] theorem State.setStreamLen_mtxSize (s : State) (d n : Nat) : (s.setStreamLen d n).mtxSize = s.mtxSize := rfl
@[simp] theorem State.setStreamLen_mtxAlign (s : State) (d n : Nat) : (s.setStreamLen d n).mtxAlign = s.mtxAlign := rfl
@[simp] theorem State.setStreamLen_cursor (s : State) (d n : Nat) : (s.setStreamLen d n).cursor = s.cursor := rfl
@[simp] theorem State.setStreamLen_bitpos (s : State) (d n : Nat) : (s.setStreamLen d n).bitpos = s.bitpos := rfl
@[simp] theorem State.setStreamLen_payload (s : State) (d n : Nat) : (s.setStreamLen d n).payload = s.payload := rfl
@[simp] theorem State.setStreamLen_cw (s : State) (d n : Nat) : (s.setStreamLen d n).cw = s.cw := rfl
@[simp] theorem State.setStreamLen_gen (s : State) (d n : Nat) : (s.setStreamLen d n).gen = s.gen := rfl
@[simp] theorem State.setStreamLen_gfExp (s : State) (d n : Nat) : (s.setStreamLen d n).gfExp = s.gfExp := rfl
@[simp] theorem State.setStreamLen_gfLog (s : State) (d n : Nat) : (s.setStreamLen d n).gfLog = s.gfLog := rfl
@[simp] theorem State.setStreamLen_rem (s : State) (d n : Nat) : (s.setStreamLen d n).rem = s.rem := rfl
@[simp] theorem State.setStreamLen_matrix (s : State) (d n : Nat) : (s.setStreamLen d n).matrix = s.matrix := rfl
@[simp] theorem State.setStreamLen_flavors (s : State) (d n : Nat) : (s.setStreamLen d n).flavors = s.flavors := rfl
@[simp] theorem State.setStreamLen_resets (s : State) (d n : Nat) : (s.setStreamLen d n).resets = s.resets := rfl
@[simp] theorem State.setStreamLen_inbox (s : State) (d n : Nat) : (s.setStreamLen d n).inbox = s.inbox := rfl
@[simp] theorem State.setStreamLen_reads (s : State) (d n : Nat) : (s.setStreamLen d n).reads = s.reads := rfl

/-! ### stamped -/

@[simp] theorem State.stamped_status (s : State) (l : List ((Nat × Nat) × Bool)) : (s.stamped l).status = s.status := rfl
@[simp] theorem State.stamped_result (s : State) (l : List ((Nat × Nat) × Bool)) : (s.stamped l).result = s.result := rfl
@[simp] theorem State.stamped_flags (s : State) (l : List ((Nat × Nat) × Bool)) : (s.stamped l).flags = s.flags := rfl
@[simp] theorem State.stamped_payloadLen (s : State) (l : List ((Nat × Nat) × Bool)) : (s.stamped l).payloadLen = s.payloadLen := rfl
@[simp] theorem State.stamped_flavorIdx (s : State) (l : List ((Nat × Nat) × Bool)) : (s.stamped l).flavorIdx = s.flavorIdx := rfl
@[simp] theorem State.stamped_flavor (s : State) (l : List ((Nat × Nat) × Bool)) : (s.stamped l).flavor = s.flavor := rfl
@[simp] theorem State.stamped_cwDataLen (s : State) (l : List ((Nat × Nat) × Bool)) : (s.stamped l).cwDataLen = s.cwDataLen := rfl
@[simp] theorem State.stamped_cwTotalLen (s : State) (l : List ((Nat × Nat) × Bool)) : (s.stamped l).cwTotalLen = s.cwTotalLen := rfl
@[simp] theorem State.stamped_genLen (s : State) (l : List ((Nat × Nat) × Bool)) : (s.stamped l).genLen = s.genLen := rfl
@[simp] theorem State.stamped_format (s : State) (l : List ((Nat × Nat) × Bool)) : (s.stamped l).format = s.format := rfl
@[simp] theorem State.stamped_mtxVersion (s : State) (l : List ((Nat × Nat) × Bool)) : (s.stamped l).mtxVersion = s.mtxVersion := rfl
@[simp] theorem State.stamped_mtxSize (s : State) (l : List ((Nat × Nat) × Bool)) : (s.stamped l).mtxSize = s.mtxSize := rfl
@[simp] theorem State.stamped_mtxAlign (s : State) (l : List ((Nat × Nat) × Bool)) : (s.stamped l).mtxAlign = s.mtxAlign := rfl
@[simp] theorem State.stamped_cursor (s : State) (l : List ((Nat × Nat) × Bool)) : (s.stamped l).cursor = s.cursor := rfl
@[simp] theorem State.stamped_bitpos (s : State) (l : List ((Nat × Nat) × Bool)) : (s.stamped l).bitpos = s.bitpos := rfl
@[simp] theorem State.stamped_payload (s : State) (l : List ((Nat × Nat) × Bool)) : (s.stamped l).payload = s.payload := rfl
@[simp] theorem State.stamped_cw (s : State) (l : List ((Nat × Nat) × Bool)) : (s.stamped l).cw = s.cw := rfl
@[simp] theorem State.stamped_gen (s : State) (l : List ((Nat × Nat) × Bool)) : (s.stamped l).gen = s.gen := rfl
@[simp] theorem State.stamped_gfExp (s : State) (l : List ((Nat × Nat) × Bool)) : (s.stamped l).gfExp = s.gfExp := rfl
@[simp] theorem State.stamped_gfLog (s : State) (l : List ((Nat × Nat) × Bool)) : (s.stamped l).gfLog = s.gfLog := rfl
@[simp] theorem State.stamped_rem (s : State) (l : List ((Nat × Nat) × Bool)) : (s.stamped l).rem = s.rem := rfl
@[simp] theorem State.stamped_matrix (s : State) (l : List ((Nat × Nat) × Bool)) : (s.stamped l).matrix = stampAll s.size l s.matrix := rfl
@[simp] theorem State.stamped_flavors (s : State) (l : List ((Nat × Nat) × Bool)) : (s.stamped l).flavors = s.flavors := rfl
@[simp] theorem State.stamped_resets (s : State) (l : List ((Nat × Nat) × Bool)) : (s.stamped l).resets = s.resets := rfl
@[simp] theorem State.stamped_inbox (s : State) (l : List ((Nat × Nat) × Bool)) : (s.stamped l).inbox = s.inbox := rfl
@[simp] theorem State.stamped_reads (s : State) (l : List ((Nat × Nat) × Bool)) : (s.stamped l).reads = s.reads := rfl

/-! ### withBank -/

@[simp] theorem State.withBank_status (s : State) (sp : Space) (m : Memory) : (s.withBank sp m).status = s.status := by cases sp <;> rfl
@[simp] theorem State.withBank_result (s : State) (sp : Space) (m : Memory) : (s.withBank sp m).result = s.result := by cases sp <;> rfl
@[simp] theorem State.withBank_flags (s : State) (sp : Space) (m : Memory) : (s.withBank sp m).flags = s.flags := by cases sp <;> rfl
@[simp] theorem State.withBank_payloadLen (s : State) (sp : Space) (m : Memory) : (s.withBank sp m).payloadLen = s.payloadLen := by cases sp <;> rfl
@[simp] theorem State.withBank_flavorIdx (s : State) (sp : Space) (m : Memory) : (s.withBank sp m).flavorIdx = s.flavorIdx := by cases sp <;> rfl
@[simp] theorem State.withBank_flavor (s : State) (sp : Space) (m : Memory) : (s.withBank sp m).flavor = s.flavor := by cases sp <;> rfl
@[simp] theorem State.withBank_cwDataLen (s : State) (sp : Space) (m : Memory) : (s.withBank sp m).cwDataLen = s.cwDataLen := by cases sp <;> rfl
@[simp] theorem State.withBank_cwTotalLen (s : State) (sp : Space) (m : Memory) : (s.withBank sp m).cwTotalLen = s.cwTotalLen := by cases sp <;> rfl
@[simp] theorem State.withBank_genLen (s : State) (sp : Space) (m : Memory) : (s.withBank sp m).genLen = s.genLen := by cases sp <;> rfl
@[simp] theorem State.withBank_format (s : State) (sp : Space) (m : Memory) : (s.withBank sp m).format = s.format := by cases sp <;> rfl
@[simp] theorem State.withBank_mtxVersion (s : State) (sp : Space) (m : Memory) : (s.withBank sp m).mtxVersion = s.mtxVersion := by cases sp <;> rfl
@[simp] theorem State.withBank_mtxSize (s : State) (sp : Space) (m : Memory) : (s.withBank sp m).mtxSize = s.mtxSize := by cases sp <;> rfl
@[simp] theorem State.withBank_mtxAlign (s : State) (sp : Space) (m : Memory) : (s.withBank sp m).mtxAlign = s.mtxAlign := by cases sp <;> rfl
@[simp] theorem State.withBank_cursor (s : State) (sp : Space) (m : Memory) : (s.withBank sp m).cursor = s.cursor := by cases sp <;> rfl
@[simp] theorem State.withBank_bitpos (s : State) (sp : Space) (m : Memory) : (s.withBank sp m).bitpos = s.bitpos := by cases sp <;> rfl
@[simp] theorem State.withBank_matrix (s : State) (sp : Space) (m : Memory) : (s.withBank sp m).matrix = s.matrix := by cases sp <;> rfl
@[simp] theorem State.withBank_flavors (s : State) (sp : Space) (m : Memory) : (s.withBank sp m).flavors = s.flavors := by cases sp <;> rfl
@[simp] theorem State.withBank_resets (s : State) (sp : Space) (m : Memory) : (s.withBank sp m).resets = s.resets := by cases sp <;> rfl
@[simp] theorem State.withBank_inbox (s : State) (sp : Space) (m : Memory) : (s.withBank sp m).inbox = s.inbox := by cases sp <;> rfl
@[simp] theorem State.withBank_reads (s : State) (sp : Space) (m : Memory) : (s.withBank sp m).reads = s.reads := by cases sp <;> rfl

/-! ### write -/

@[simp] theorem State.write_status (s : State) (sp : Space) (i : Nat) (v : Byte) : (s.write sp i v).status = s.status := by cases sp <;> rfl
@[simp] theorem State.write_result (s : State) (sp : Space) (i : Nat) (v : Byte) : (s.write sp i v).result = s.result := by cases sp <;> rfl
@[simp] theorem State.write_flags (s : State) (sp : Space) (i : Nat) (v : Byte) : (s.write sp i v).flags = s.flags := by cases sp <;> rfl
@[simp] theorem State.write_payloadLen (s : State) (sp : Space) (i : Nat) (v : Byte) : (s.write sp i v).payloadLen = s.payloadLen := by cases sp <;> rfl
@[simp] theorem State.write_flavorIdx (s : State) (sp : Space) (i : Nat) (v : Byte) : (s.write sp i v).flavorIdx = s.flavorIdx := by cases sp <;> rfl
@[simp] theorem State.write_flavor (s : State) (sp : Space) (i : Nat) (v : Byte) : (s.write sp i v).flavor = s.flavor := by cases sp <;> rfl
@[simp] theorem State.write_cwDataLen (s : State) (sp : Space) (i : Nat) (v : Byte) : (s.write sp i v).cwDataLen = s.cwDataLen := by cases sp <;> rfl
@[simp] theorem State.write_cwTotalLen (s : State) (sp : Space) (i : Nat) (v : Byte) : (s.write sp i v).cwTotalLen = s.cwTotalLen := by cases sp <;> rfl
@[simp] theorem State.write_genLen (s : State) (sp : Space) (i : Nat) (v : Byte) : (s.write sp i v).genLen = s.genLen := by cases sp <;> rfl
@[simp] theorem State.write_format (s : State) (sp : Space) (i : Nat) (v : Byte) : (s.write sp i v).format = s.format := by cases sp <;> rfl
@[simp] theorem State.write_mtxVersion (s : State) (sp : Space) (i : Nat) (v : Byte) : (s.write sp i v).mtxVersion = s.mtxVersion := by cases sp <;> rfl
@[simp] theorem State.write_mtxSize (s : State) (sp : Space) (i : Nat) (v : Byte) : (s.write sp i v).mtxSize = s.mtxSize := by cases sp <;> rfl
@[simp] theorem State.write_mtxAlign (s : State) (sp : Space) (i : Nat) (v : Byte) : (s.write sp i v).mtxAlign = s.mtxAlign := by cases sp <;> rfl
@[simp] theorem State.write_cursor (s : State) (sp : Space) (i : Nat) (v : Byte) : (s.write sp i v).cursor = s.cursor := by cases sp <;> rfl
@[simp] theorem State.write_bitpos (s : State) (sp : Space) (i : Nat) (v : Byte) : (s.write sp i v).bitpos = s.bitpos := by cases sp <;> rfl
@[simp] theorem State.write_matrix (s : State) (sp : Space) (i : Nat) (v : Byte) : (s.write sp i v).matrix = s.matrix := by cases sp <;> rfl
@[simp] theorem State.write_flavors (s : State) (sp : Space) (i : Nat) (v : Byte) : (s.write sp i v).flavors = s.flavors := by cases sp <;> rfl
@[simp] theorem State.write_resets (s : State) (sp : Space) (i : Nat) (v : Byte) : (s.write sp i v).resets = s.resets := by cases sp <;> rfl
@[simp] theorem State.write_inbox (s : State) (sp : Space) (i : Nat) (v : Byte) : (s.write sp i v).inbox = s.inbox := by cases sp <;> rfl
@[simp] theorem State.write_reads (s : State) (sp : Space) (i : Nat) (v : Byte) : (s.write sp i v).reads = s.reads := by cases sp <;> rfl

/-! ### store -/

@[simp] theorem State.store_status (s : State) (sp : Space) (base : Nat) (l : List Byte) : (s.store sp base l).status = s.status := by cases sp <;> rfl
@[simp] theorem State.store_result (s : State) (sp : Space) (base : Nat) (l : List Byte) : (s.store sp base l).result = s.result := by cases sp <;> rfl
@[simp] theorem State.store_flags (s : State) (sp : Space) (base : Nat) (l : List Byte) : (s.store sp base l).flags = s.flags := by cases sp <;> rfl
@[simp] theorem State.store_payloadLen (s : State) (sp : Space) (base : Nat) (l : List Byte) : (s.store sp base l).payloadLen = s.payloadLen := by cases sp <;> rfl
@[simp] theorem State.store_flavorIdx (s : State) (sp : Space) (base : Nat) (l : List Byte) : (s.store sp base l).flavorIdx = s.flavorIdx := by cases sp <;> rfl
@[simp] theorem State.store_flavor (s : State) (sp : Space) (base : Nat) (l : List Byte) : (s.store sp base l).flavor = s.flavor := by cases sp <;> rfl
@[simp] theorem State.store_cwDataLen (s : State) (sp : Space) (base : Nat) (l : List Byte) : (s.store sp base l).cwDataLen = s.cwDataLen := by cases sp <;> rfl
@[simp] theorem State.store_cwTotalLen (s : State) (sp : Space) (base : Nat) (l : List Byte) : (s.store sp base l).cwTotalLen = s.cwTotalLen := by cases sp <;> rfl
@[simp] theorem State.store_genLen (s : State) (sp : Space) (base : Nat) (l : List Byte) : (s.store sp base l).genLen = s.genLen := by cases sp <;> rfl
@[simp] theorem State.store_format (s : State) (sp : Space) (base : Nat) (l : List Byte) : (s.store sp base l).format = s.format := by cases sp <;> rfl
@[simp] theorem State.store_mtxVersion (s : State) (sp : Space) (base : Nat) (l : List Byte) : (s.store sp base l).mtxVersion = s.mtxVersion := by cases sp <;> rfl
@[simp] theorem State.store_mtxSize (s : State) (sp : Space) (base : Nat) (l : List Byte) : (s.store sp base l).mtxSize = s.mtxSize := by cases sp <;> rfl
@[simp] theorem State.store_mtxAlign (s : State) (sp : Space) (base : Nat) (l : List Byte) : (s.store sp base l).mtxAlign = s.mtxAlign := by cases sp <;> rfl
@[simp] theorem State.store_cursor (s : State) (sp : Space) (base : Nat) (l : List Byte) : (s.store sp base l).cursor = s.cursor := by cases sp <;> rfl
@[simp] theorem State.store_bitpos (s : State) (sp : Space) (base : Nat) (l : List Byte) : (s.store sp base l).bitpos = s.bitpos := by cases sp <;> rfl
@[simp] theorem State.store_matrix (s : State) (sp : Space) (base : Nat) (l : List Byte) : (s.store sp base l).matrix = s.matrix := by cases sp <;> rfl
@[simp] theorem State.store_flavors (s : State) (sp : Space) (base : Nat) (l : List Byte) : (s.store sp base l).flavors = s.flavors := by cases sp <;> rfl
@[simp] theorem State.store_resets (s : State) (sp : Space) (base : Nat) (l : List Byte) : (s.store sp base l).resets = s.resets := by cases sp <;> rfl
@[simp] theorem State.store_inbox (s : State) (sp : Space) (base : Nat) (l : List Byte) : (s.store sp base l).inbox = s.inbox := by cases sp <;> rfl
@[simp] theorem State.store_reads (s : State) (sp : Space) (base : Nat) (l : List Byte) : (s.store sp base l).reads = s.reads := by cases sp <;> rfl

/-! ### banks -/

@[simp] theorem State.bank_withBank (s : State) (sp : Space) (m : Memory) : (s.withBank sp m).bank sp = m := by
  cases sp <;> rfl

theorem State.bank_withBank_other (s : State) {sp sq : Space} (m : Memory) (h : sq ≠ sp) :
    (s.withBank sp m).bank sq = s.bank sq := by
  cases sp <;> cases sq <;> first | rfl | exact absurd rfl h

@[simp] theorem State.withBank_bank (s : State) (sp : Space) : s.withBank sp (s.bank sp) = s := by
  cases sp <;> rfl

@[simp] theorem State.raise_bank (s : State) (code : Status) (sp : Space) : (s.raise code).bank sp = s.bank sp := by cases sp <;> rfl
@[simp] theorem State.raise_size (s : State) (code : Status) : (s.raise code).size = s.size := rfl
@[simp] theorem State.complete_bank (s : State) (sp : Space) : (s.complete).bank sp = s.bank sp := by cases sp <;> rfl
@[simp] theorem State.complete_size (s : State) : (s.complete).size = s.size := rfl
@[simp] theorem State.setResult_bank (s : State) (v : Byte) (sp : Space) : (s.setResult v).bank sp = s.bank sp := by cases sp <;> rfl
@[simp] theorem State.setResult_size (s : State) (v : Byte) : (s.setResult v).size = s.size := rfl
@[simp] theorem State.setGfValid_bank (s : State) (sp : Space) : (s.setGfValid).bank sp = s.bank sp := by cases sp <;> rfl
@[simp] theorem State.setGfValid_size (s : State) : (s.setGfValid).size = s.size := rfl
@[simp] theorem State.setFlavorValid_bank (s : State) (sp : Space) : (s.setFlavorValid).bank sp = s.bank sp := by cases sp <;> rfl
@[simp] theorem State.setFlavorValid_size (s : State) : (s.setFlavorValid).size = s.size := rfl
@[simp] theorem State.setMtxDone_bank (s : State) (b : Bool) (sp : Space) : (s.setMtxDone b).bank sp = s.bank sp := by cases sp <;> rfl
@[simp] theorem State.setMtxDone_size (s : State) (b : Bool) : (s.setMtxDone b).size = s.size := rfl
@[simp] theorem State.setFormat_bank (s : State) (v : BitVec 18) (sp : Space) : (s.setFormat v).bank sp = s.bank sp := by cases sp <;> rfl
@[simp] theorem State.setFormat_size (s : State) (v : BitVec 18) : (s.setFormat v).size = s.size := rfl
@[simp] theorem State.setStreamLen_bank (s : State) (d n : Nat) (sp : Space) : (s.setStreamLen d n).bank sp = s.bank sp := by cases sp <;> rfl
@[simp] theorem State.setStreamLen_size (s : State) (d n : Nat) : (s.setStreamLen d n).size = s.size := rfl
@[simp] theorem State.stamped_bank (s : State) (l : List ((Nat × Nat) × Bool)) (sp : Space) : (s.stamped l).bank sp = s.bank sp := by cases sp <;> rfl
@[simp] theorem State.stamped_size (s : State) (l : List ((Nat × Nat) × Bool)) : (s.stamped l).size = s.size := rfl
@[simp] theorem State.withBank_size (s : State) (sp : Space) (m : Memory) : (s.withBank sp m).size = s.size := by cases sp <;> rfl
@[simp] theorem State.write_size (s : State) (sp : Space) (i : Nat) (v : Byte) : (s.write sp i v).size = s.size := by cases sp <;> rfl
@[simp] theorem State.store_size (s : State) (sp : Space) (base : Nat) (l : List Byte) : (s.store sp base l).size = s.size := by cases sp <;> rfl

end Sys2Proof.Machine
end

