-- ==== Sys2Proof/Laws/Commands.lean ====
section
/-! SUPPORT. One lemma per shared operation and command: everything it can do. Later proofs cite these and do not unfold the
meanings. -/

namespace Sys2Proof.Machine

/-! ### Operand checks, as numbers -/

theorem ecCountLegal_iff (n : Nat) : ecCountLegal n = true ↔ 7 ≤ n ∧ n ≤ 254 := decide_eq_true_iff

theorem msgLenLegal_iff (n : Nat) : msgLenLegal n = true ↔ n ≤ 256 := decide_eq_true_iff

theorem fmtVersionLegal_iff (v : Nat) : fmtVersionLegal v = true ↔ 1 ≤ v ∧ v ≤ 40 := decide_eq_true_iff

theorem ecLevelLegal_iff (l : Nat) : ecLevelLegal l = true ↔ l ≤ 3 := decide_eq_true_iff

theorem maskIdLegal_iff (m : Nat) : maskIdLegal m = true ↔ m ≤ 7 := decide_eq_true_iff

theorem mtxVersionLegal_iff (v : Nat) : mtxVersionLegal v = true ↔ 1 ≤ v ∧ v ≤ 5 := decide_eq_true_iff

theorem alignCenterLegal_iff (size a : Nat) : alignCenterLegal size a = true ↔ a = 0 ∨ 2 ≤ a ∧ a + 3 ≤ size :=
  decide_eq_true_iff

theorem mtxInitLegal_iff (v a : Nat) : mtxInitLegal v a = true ↔
    (1 ≤ v ∧ v ≤ 5) ∧ (a = 0 ∨ 2 ≤ a ∧ a + 3 ≤ Config.symbolSize v) := by
  rw [mtxInitLegal, Bool.and_eq_true, mtxVersionLegal_iff, alignCenterLegal_iff]

/-- The largest symbol has the side 37 (90_conflicts.md C4). -/
theorem Config.sizeMax_eq : Config.sizeMax = 37 := rfl

theorem symbolSize_le_sizeMax {v : Nat} (h : mtxVersionLegal v = true) : Config.symbolSize v ≤ Config.sizeMax := by
  obtain ⟨-, h5⟩ := (mtxVersionLegal_iff v).mp h
  rw [Config.sizeMax_eq, Config.symbolSize]; omega

/-! ### Steps -/

theorem step_idle {s : State} (h : s.inbox = []) : step s = .next s := by simp [step, h]

theorem step_action {s : State} {a : HostAction} {rest : List HostAction} (h : s.inbox = a :: rest) :
    step s = perform a { s with inbox := rest } := by simp [step, h]

theorem runWord_ok {w : Word} {i : Instr} (h : decode w = .ok i) (s : State) : runWord w s = exec i s := by
  simp [runWord, h]

theorem runWord_error {w : Word} {e : DecodeError} (h : decode w = .error e) (s : State) :
    runWord w s = .next (s.raise .illegalCommand) := by simp [runWord, h]

/-! ### Step commands of the matrix builder -/

theorem matrixStep_refused {body : State → State} {s : State} (h : s.mtxSize = 0) :
    matrixStep body s = .next (s.raise .invalidParameter) := by simp [matrixStep, h]

theorem matrixStep_runs {body : State → State} {s : State} (h : s.mtxSize ≠ 0) :
    matrixStep body s = .next (body (s.setMtxDone false)).complete := by rw [matrixStep, if_neg h]

/-- A step command either is refused, without a matrix, or runs its body. -/
theorem matrixStep_cases {body : State → State} {s t : State} (h : matrixStep body s = .next t) :
    (s.mtxSize = 0 ∧ t = s.raise .invalidParameter) ∨
      (s.mtxSize ≠ 0 ∧ t = (body (s.setMtxDone false)).complete) := by
  by_cases h0 : s.mtxSize = 0
  · rw [matrixStep_refused h0] at h; exact .inl ⟨h0, by injection h with h; exact h.symm⟩
  · rw [matrixStep_runs h0] at h; exact .inr ⟨h0, by injection h with h; exact h.symm⟩

/-! ### The flavor table -/

/-- Ascending capacities: an earlier row has the smaller one. -/
theorem Config.ascending_lt {rows : List Flavor} (h : Config.ascending rows = true) {i j : Nat} (hij : i < j)
    (hj : j < rows.length) : (rows[i]'(by omega)).capacity.toNat < rows[j].capacity.toNat := by
  induction rows generalizing i j with
  | nil => simp at hj
  | cons a rest ih =>
    cases rest with
    | nil => simp at hj; omega
    | cons b rest =>
      simp only [Config.ascending, Bool.and_eq_true, decide_eq_true_eq] at h
      obtain ⟨j, rfl⟩ : ∃ k, j = k + 1 := ⟨j - 1, by omega⟩
      have hj' : j < (b :: rest).length := by simpa using hj
      cases i with
      | zero =>
        cases j with
        | zero => simpa using h.1
        | succ j =>
          have := ih h.2 (i := 0) (j := j + 1) (by omega) hj'
          simp only [List.getElem_cons_succ, List.getElem_cons_zero] at this ⊢
          omega
      | succ i =>
        have := ih h.2 (i := i) (j := j) (by omega) hj'
        simpa using this

/-- What 43_msg.md R168 says of a table, by rows. -/
structure TableFacts (t : FlavorTable) : Prop where
  length : t.rows.length = 11
  legal : ∀ i, i ≤ 10 → Config.flavorOk (flavorRow t i) = true
  ascends : ∀ i j, i < j → j ≤ 10 → (flavorRow t i).capacity.toNat < (flavorRow t j).capacity.toNat
  first : (flavorRow t 0).capacity = 7 ∧ (flavorRow t 0).ecCount = 17
  last : (flavorRow t 10).capacity = 106

theorem flavorRow_eq {t : FlavorTable} {i : Nat} (h : i < t.rows.length) : flavorRow t i = t.rows[i] := by
  simp [flavorRow, h]

theorem tableFacts (t : FlavorTable) : TableFacts t := by
  have h := t.admissible
  simp only [Config.flavorTableOk, Bool.and_eq_true] at h
  obtain ⟨⟨⟨⟨hl, ha⟩, h0⟩, h10⟩, hall⟩ := h
  have hl : t.rows.length = 11 := of_decide_eq_true hl
  have h0 := of_decide_eq_true h0
  have h10 := of_decide_eq_true h10
  refine ⟨hl, fun i hi => ?_, fun i j hij hj => ?_, ?_, ?_⟩
  · rw [flavorRow_eq (by omega)]
    exact List.all_eq_true.mp hall _ (List.getElem_mem _)
  · rw [flavorRow_eq (by omega), flavorRow_eq (by omega)]
    exact Config.ascending_lt ha hij (by omega)
  · rw [flavorRow_eq (by omega)]
    rw [List.head?_eq_getElem?, List.getElem?_eq_getElem (by omega)] at h0
    simp at h0; exact h0
  · rw [flavorRow_eq (by omega)]
    rw [List.getLast?_eq_getElem?, List.getElem?_eq_getElem (by omega)] at h10
    simp [hl] at h10; exact BitVec.eq_of_toNat_eq h10

/-- The fields of a row (43_msg.md R168 (e) to (i)) as numbers. -/
theorem flavorOk_iff (f : Flavor) : Config.flavorOk f = true ↔
    (1 ≤ f.version.toNat ∧ f.version.toNat ≤ 5) ∧
    (f.alignCenter.toNat = 0 ∨ 2 ≤ f.alignCenter.toNat ∧ f.alignCenter.toNat + 3 ≤ Config.symbolSize f.version.toNat) ∧
    (7 ≤ f.ecCount.toNat ∧ f.ecCount.toNat ≤ 254) ∧
    8 * (f.capacity.toNat + 2 + f.ecCount.toNat) ≤ Config.freeCells f.version.toNat := by
  have h0 : f.alignCenter = 0 ↔ f.alignCenter.toNat = 0 :=
    ⟨fun h => by rw [h]; rfl, fun h => BitVec.eq_of_toNat_eq (by simpa using h)⟩
  rw [Config.flavorOk, Bool.and_eq_true, Bool.and_eq_true, Bool.and_eq_true, decide_eq_true_iff, decide_eq_true_iff,
    decide_eq_true_iff, decide_eq_true_iff, h0, and_assoc, and_assoc]
  rfl

/-- A length up to 106 has a row, the least whose capacity holds it. -/
theorem leastRow_spec (t : FlavorTable) {len : Nat} (h : len ≤ 106) :
    leastRow t len ≤ 10 ∧ len ≤ (flavorRow t (leastRow t len)).capacity.toNat ∧
      ∀ j, j < leastRow t len → (flavorRow t j).capacity.toNat < len := by
  have hf := tableFacts t
  have hlt : leastRow t len < t.rows.length := by
    rw [leastRow, List.findIdx_lt_length]
    refine ⟨t.rows[10]'(by rw [hf.length]; omega), List.getElem_mem _, ?_⟩
    have := hf.last
    rw [flavorRow_eq (by rw [hf.length]; omega)] at this
    simp [this, h]
  refine ⟨by rw [hf.length] at hlt; omega, ?_, fun j hj => ?_⟩
  · rw [flavorRow_eq hlt]
    exact of_decide_eq_true (List.findIdx_getElem (p := fun f : Flavor => decide (len ≤ f.capacity.toNat)) (w := hlt))
  · rw [flavorRow_eq (by omega)]
    have := List.not_of_lt_findIdx hj
    simpa using this

/-! ### FLAVOR_SELECT -/

theorem flavorSelect_none {s : State} {len : Nat} (h : 106 < len) : flavorSelect len s = none := by
  simp [flavorSelect, (tableFacts s.flavors).last, h]

/-- The state after a selection. -/
def State.selected (s : State) (len : Nat) : State :=
  { s with
    payloadLen := BitVec.ofNat 8 len
    flavorIdx := BitVec.ofNat 4 (leastRow s.flavors len)
    flavor := flavorRow s.flavors (leastRow s.flavors len)
    flags := { s.flags with flavorValid := true } }

theorem flavorSelect_some {s : State} {len : Nat} (h : len ≤ 106) : flavorSelect len s = some (s.selected len) := by
  simp only [flavorSelect, (tableFacts s.flavors).last]
  rw [if_neg (by simp; omega)]; rfl

/-! ### The format encoder -/

theorem fmtGenerate_legal {v e m : Nat} (hv : 1 ≤ v ∧ v ≤ 40) (he : e ≤ 3) (hm : m ≤ 7) :
    fmtGenerate v e m = some (if v < 7 then fmt15 (BitVec.ofNat 18 e) (BitVec.ofNat 18 m) else fmt18 (BitVec.ofNat 18 v)) := by
  simp only [fmtGenerate, (fmtVersionLegal_iff v).mpr hv, (ecLevelLegal_iff e).mpr he, (maskIdLegal_iff m).mpr hm,
    Bool.not_true, Bool.false_eq_true, if_false]
  split <;> rfl

theorem fmtGenerate_illegal {v e m : Nat} (h : ¬((1 ≤ v ∧ v ≤ 40) ∧ e ≤ 3 ∧ m ≤ 7)) : fmtGenerate v e m = none := by
  rw [← fmtVersionLegal_iff, ← ecLevelLegal_iff, ← maskIdLegal_iff] at h
  unfold fmtGenerate
  cases h1 : fmtVersionLegal v
  · simp
  cases h2 : ecLevelLegal e
  · simp
  cases h3 : maskIdLegal m
  · simp
  · exact absurd ⟨h1, h2, h3⟩ h

/-! ### The composite commands -/

/-- The symbol built, where the flavor registers hold a legal row: never refused. -/
theorem buildSymbol_some {s : State} (h : Config.flavorOk s.flavor = true) :
    buildSymbol s = some ((buildSteps (mtxInit s.flavor.version.toNat s.flavor.alignCenter.toNat
      (s.setFormat (fmt15 (BitVec.ofNat 18 s.flavor.ecLevel.toNat) (BitVec.ofNat 18 6))))).setMtxDone true) := by
  obtain ⟨hv, ha, -, -⟩ := (flavorOk_iff _).mp h
  have hl : s.flavor.ecLevel.toNat ≤ 3 := by have := s.flavor.ecLevel.isLt; omega
  have hi : mtxInitLegal s.flavor.version.toNat s.flavor.alignCenter.toNat = true := (mtxInitLegal_iff _ _).mpr ⟨hv, ha⟩
  have h7 : s.flavor.version.toNat < 7 := by omega
  simp only [buildSymbol, Config.maskId]
  rw [fmtGenerate_legal ⟨by omega, by omega⟩ hl (by omega)]
  simp [hi, h7]

/-- `buildSymbol` writes nothing where it is refused. -/
theorem buildSymbol_cases (s : State) : buildSymbol s = none ∨
    ∃ format, buildSymbol s = some ((buildSteps (mtxInit s.flavor.version.toNat s.flavor.alignCenter.toNat
      (s.setFormat format))).setMtxDone true) := by
  unfold buildSymbol
  dsimp only
  split
  · exact .inl rfl
  · split
    · exact .inr ⟨_, rfl⟩
    · exact .inl rfl

end Sys2Proof.Machine
end

