-- ==== Sys2Proof/Laws/Decode.lean ====
section
/-! SUPPORT. The fields of an encoded word, and a word from its fields. -/

namespace Sys2Proof

@[simp] theorem opcodeOf_wordR (op a b c : Byte) : opcodeOf (wordR op a b c) = op := by
  apply BitVec.eq_of_getLsbD_eq
  intro i hi
  simp only [opcodeOf, wordR, BitVec.getLsbD_extractLsb', BitVec.getLsbD_append]
  have h1 : ¬ 24 + i < 8 := by omega
  have h2 : ¬ 24 + i - 8 < 8 := by omega
  have h3 : ¬ 24 + i - 8 - 8 < 8 := by omega
  have h4 : 24 + i - 8 - 8 - 8 = i := by omega
  simp [h1, h2, h3, h4, hi]

@[simp] theorem fieldA_wordR (op a b c : Byte) : fieldA (wordR op a b c) = a := by
  apply BitVec.eq_of_getLsbD_eq
  intro i hi
  simp only [fieldA, wordR, BitVec.getLsbD_extractLsb', BitVec.getLsbD_append]
  have h1 : ¬ 16 + i < 8 := by omega
  have h2 : ¬ 16 + i - 8 < 8 := by omega
  have h3 : 16 + i - 8 - 8 < 8 := by omega
  have h4 : 16 + i - 8 - 8 = i := by omega
  simp [h1, h2, h4, hi]

@[simp] theorem fieldB_wordR (op a b c : Byte) : fieldB (wordR op a b c) = b := by
  apply BitVec.eq_of_getLsbD_eq
  intro i hi
  simp only [fieldB, wordR, BitVec.getLsbD_extractLsb', BitVec.getLsbD_append]
  have h1 : ¬ 8 + i < 8 := by omega
  have h2 : 8 + i - 8 < 8 := by omega
  have h3 : 8 + i - 8 = i := by omega
  simp [h1, h3, hi]

@[simp] theorem fieldC_wordR (op a b c : Byte) : fieldC (wordR op a b c) = c := by
  apply BitVec.eq_of_getLsbD_eq
  intro i hi
  simp only [fieldC, wordR, BitVec.getLsbD_extractLsb', BitVec.getLsbD_append, Nat.zero_add]
  simp [hi]

@[simp] theorem opcodeOf_wordI (op a : Byte) (imm : BitVec 16) : opcodeOf (wordI op a imm) = op := by
  apply BitVec.eq_of_getLsbD_eq
  intro i hi
  simp only [opcodeOf, wordI, BitVec.getLsbD_extractLsb', BitVec.getLsbD_append]
  have h1 : ¬ 24 + i < 16 := by omega
  have h2 : ¬ 24 + i - 16 < 8 := by omega
  have h3 : 24 + i - 16 - 8 = i := by omega
  simp [h1, h2, h3, hi]

@[simp] theorem fieldA_wordI (op a : Byte) (imm : BitVec 16) : fieldA (wordI op a imm) = a := by
  apply BitVec.eq_of_getLsbD_eq
  intro i hi
  simp only [fieldA, wordI, BitVec.getLsbD_extractLsb', BitVec.getLsbD_append]
  have h1 : ¬ 16 + i < 16 := by omega
  have h2 : 16 + i - 16 = i := by omega
  simp [h1, h2, hi]

@[simp] theorem fieldImm_wordI (op a : Byte) (imm : BitVec 16) : fieldImm (wordI op a imm) = imm := by
  apply BitVec.eq_of_getLsbD_eq
  intro i hi
  simp only [fieldImm, wordI, BitVec.getLsbD_extractLsb', BitVec.getLsbD_append, Nat.zero_add]
  simp [hi]

/-- A word is its four bytes. -/
theorem wordR_fields (w : Word) : wordR (opcodeOf w) (fieldA w) (fieldB w) (fieldC w) = w := by
  apply BitVec.eq_of_getLsbD_eq
  intro i hi
  simp only [wordR, opcodeOf, fieldA, fieldB, fieldC, BitVec.getLsbD_append, BitVec.getLsbD_extractLsb']
  have hi' : i < 32 := hi
  by_cases h1 : i < 8
  · simp [h1]
  by_cases h2 : i - 8 < 8
  · simp [h1, h2, show 8 + (i - 8) = i by omega]
  by_cases h3 : i - 8 - 8 < 8
  · simp [h1, h2, h3, show 16 + (i - 8 - 8) = i by omega]
  · simp [h1, h2, h3, show i - 8 - 8 - 8 < 8 by omega, show 24 + (i - 8 - 8 - 8) = i by omega]

/-- A word is its opcode, its field A and its immediate. -/
theorem wordI_fields (w : Word) : wordI (opcodeOf w) (fieldA w) (fieldImm w) = w := by
  apply BitVec.eq_of_getLsbD_eq
  intro i hi
  simp only [wordI, opcodeOf, fieldA, fieldImm, BitVec.getLsbD_append, BitVec.getLsbD_extractLsb']
  have hi' : i < 32 := hi
  by_cases h1 : i < 16
  · simp [h1]
  by_cases h2 : i - 16 < 8
  · simp [h1, h2, show 16 + (i - 16) = i by omega]
  · simp [h1, h2, show i - 16 - 8 < 8 by omega, show 24 + (i - 16 - 8) = i by omega]

/-- What a checked format answers: the command when the unused fields are 0. -/
theorem acceptIf_ok {w : Word} {z : Bool} {i j : Instr} : acceptIf w z i = .ok j ↔ z = true ∧ i = j := by
  cases z <;> simp [acceptIf]

end Sys2Proof
end

