-- ==== Sys2Proof/Laws/Field.lean ====
section
/-! SUPPORT. The field GF(256) of the reference: `mul` is the product of a commutative ring with `xor` as its sum, `power`
its powers of 2, and the printed tables are the exponential and the logarithm. -/

namespace Sys2Proof.Reference
set_option Elab.async false

/-! ### Doubling -/

@[simp] theorem times2_zero : times2 0#8 = 0#8 := by decide

theorem times2_xor (a b : Byte) : times2 (a ^^^ b) = times2 a ^^^ times2 b := by
  have h : (a ^^^ b) <<< 1 = a <<< 1 ^^^ b <<< 1 := BitVec.shiftLeft_xor_distrib ..
  unfold times2
  rw [BitVec.msb_xor, h]
  cases a.msb <;> cases b.msb <;> simp only [Bool.xor_false, Bool.xor_true, Bool.not_true, Bool.not_false,
    Bool.false_eq_true, if_true, if_false]
  · rw [← BitVec.xor_assoc]
  · rw [BitVec.xor_assoc, BitVec.xor_comm (b <<< 1), ← BitVec.xor_assoc]
  · rw [BitVec.xor_assoc, ← BitVec.xor_assoc 0x1D (b <<< 1), BitVec.xor_comm 0x1D (b <<< 1),
      BitVec.xor_assoc (b <<< 1), BitVec.xor_self, BitVec.xor_zero]

/-- `n` doublings. -/
def double (n : Nat) (a : Byte) : Byte := times2^[n] a

theorem double_zero (a : Byte) : double 0 a = a := rfl

theorem double_succ (n : Nat) (a : Byte) : double (n + 1) a = times2 (double n a) := Function.iterate_succ_apply' _ _ _

theorem double_add (m n : Nat) (a : Byte) : double (m + n) a = double m (double n a) := Function.iterate_add_apply _ _ _ _

@[simp] theorem double_of_zero (n : Nat) : double n 0#8 = 0#8 := by
  induction n with
  | zero => rfl
  | succ n ih => rw [double_succ, ih, times2_zero]

theorem double_xor (n : Nat) (a b : Byte) : double n (a ^^^ b) = double n a ^^^ double n b := by
  induction n with
  | zero => rfl
  | succ n ih => rw [double_succ, double_succ, double_succ, ih, times2_xor]

theorem power_eq (e : Nat) : power e = double e 1 := by
  induction e with
  | zero => rfl
  | succ n ih => rw [power, ih, double_succ]

/-! ### The printed tables: `GF_EXP` is the powers of 2 (40_gf.md R102) -/

theorem expTable_length : expTable.length = 256 := by decide +kernel

theorem logTable_length : logTable.length = 256 := by decide +kernel

theorem expTable_power {e : Nat} (h : e ≤ 255) : expTable.getD e 0 = power e := by
  have all : (expTable.zip expTable.tail).all (fun p => p.2 == times2 p.1) = true := by decide +kernel
  have step : ∀ k, k < 255 → expTable.getD (k + 1) 0 = times2 (expTable.getD k 0) := fun k hk => by
    have h1 : k + 1 < expTable.length := by rw [expTable_length]; omega
    have h2 : k < (expTable.zip expTable.tail).length := by
      rw [List.length_zip, List.length_tail, expTable_length]; omega
    have := List.all_eq_true.mp all _ (List.getElem_mem h2)
    rw [List.getElem_zip, List.getElem_tail, beq_iff_eq] at this
    rw [List.getD_eq_getElem _ _ h1, List.getD_eq_getElem _ _ (by omega)]; exact this
  induction e with
  | zero => rfl
  | succ n ih => rw [step n (by omega), ih (by omega), power]

theorem expTable_eq (e : Byte) : expTable.getD e.toNat 0 = power e.toNat := expTable_power (by have := e.isLt; omega)

/-- `GF_EXP[GF_LOG[v]]` = v for v ≠ 0 (40_gf.md R110). -/
theorem expTable_logTable (v : Byte) (h : v ≠ 0) : expTable.getD (logTable.getD v.toNat 0).toNat 0 = v := by
  revert v; decide +kernel

/-- `GF_LOG[GF_EXP[e]]` = e for e ≠ 255 (40_gf.md R110). -/
theorem logTable_expTable (e : Byte) : logTable.getD (expTable.getD e.toNat 0).toNat 0 = if e = 255 then 0 else e := by
  revert e; decide +kernel

/-- `GF_LOG` is never 255 (40_gf.md R103). -/
theorem logTable_le (v : Byte) : (logTable.getD v.toNat 0).toNat ≤ 254 := by
  have h : logTable.all (fun x => Nat.ble x.toNat 254) = true := by decide +kernel
  have hl : v.toNat < logTable.length := by have := v.isLt; rw [logTable_length]; omega
  rw [List.getD_eq_getElem _ _ hl]; exact Nat.le_of_ble_eq_true (List.all_eq_true.mp h _ (List.getElem_mem hl))

theorem expTable_ne_zero (e : Byte) : expTable.getD e.toNat 0 ≠ 0 := by
  have h : expTable.all (fun x => x != 0) = true := by decide +kernel
  have hl : e.toNat < expTable.length := by have := e.isLt; rw [expTable_length]; omega
  rw [List.getD_eq_getElem _ _ hl]; simpa using List.all_eq_true.mp h _ (List.getElem_mem hl)

/-- Every non-zero byte is a power of 2, its logarithm below 255 (40_gf.md R100, R102). -/
theorem power_log (a : Byte) (h : a ≠ 0) : power (logTable.getD a.toNat 0).toNat = a := by
  rw [← expTable_eq, expTable_logTable a h]

theorem exists_power {a : Byte} (h : a ≠ 0) : ∃ e, a = power e := ⟨_, (power_log a h).symm⟩

theorem power_255 : power 255 = 1 := by rw [← expTable_power (Nat.le_refl 255)]; decide

/-- 2^255 = 1 (40_gf.md R100). -/
theorem double_255 (a : Byte) : double 255 a = a := by
  by_cases h : a = 0
  · rw [h]; exact double_of_zero 255
  · obtain ⟨e, rfl⟩ := exists_power h
    rw [power_eq, ← double_add, Nat.add_comm, double_add, ← power_eq 255, power_255]

theorem double_mod (n : Nat) (a : Byte) : double n a = double (n % 255) a := by
  conv => lhs; rw [← Nat.div_add_mod n 255]
  rw [Nat.add_comm, double_add]
  congr 1
  induction n / 255 with
  | zero => rfl
  | succ k ih => rw [Nat.mul_succ, double_add, double_255, ih]

theorem power_mod (e : Nat) : power e = power (e % 255) := by rw [power_eq, power_eq, double_mod]

theorem power_ne_zero (e : Nat) : power e ≠ 0 := by
  have hlt : e % 255 < 255 := Nat.mod_lt _ (by omega)
  rw [power_mod, ← expTable_power (by omega)]
  have := expTable_ne_zero (BitVec.ofNat 8 (e % 255))
  rwa [BitVec.toNat_ofNat, Nat.mod_eq_of_lt (by omega)] at this

theorem power_inj {d e : Nat} (hd : d < 255) (he : e < 255) (h : power d = power e) : d = e := by
  have hl : ∀ k, k < 255 → (logTable.getD (power k).toNat 0).toNat = k := fun k hk => by
    have h1 := logTable_expTable (BitVec.ofNat 8 k)
    have hn : (BitVec.ofNat 8 k).toNat = k := by rw [BitVec.toNat_ofNat]; omega
    rw [hn, expTable_power (by omega), if_neg fun h => by rw [h] at hn; simp at hn; omega] at h1
    rw [h1, hn]
  rw [← hl d hd, ← hl e he, h]

/-! ### The product -/

theorem mulBits_zero (b : Byte) (n i : Nat) : mulBits b n i 0#8 = 0#8 := by
  induction n generalizing i with
  | zero => rfl
  | succ n ih => simp only [mulBits, times2_zero, ih]; split <;> rfl

theorem mulBits_times2 (b : Byte) (n i : Nat) (a : Byte) : mulBits b n i (times2 a) = times2 (mulBits b n i a) := by
  induction n generalizing i a with
  | zero => exact times2_zero.symm
  | succ n ih =>
    simp only [mulBits]
    rw [times2_xor, ih]
    congr 1
    split
    · rfl
    · exact times2_zero.symm

theorem mulBits_xor (b : Byte) (n i : Nat) (a a' : Byte) :
    mulBits b n i (a ^^^ a') = mulBits b n i a ^^^ mulBits b n i a' := by
  induction n generalizing i a a' with
  | zero => simp [mulBits]
  | succ n ih =>
    simp only [mulBits]
    rw [times2_xor, ih]
    split
    · simp only [BitVec.xor_assoc]
      congr 1
      rw [← BitVec.xor_assoc, BitVec.xor_comm a', BitVec.xor_assoc]
    · simp

@[simp] theorem zero_mul' (b : Byte) : mul 0#8 b = 0#8 := mulBits_zero b 8 0

@[simp] theorem one_mul' (b : Byte) : mul 1#8 b = b := by revert b; decide +kernel

theorem xor_mul (a a' b : Byte) : mul (a ^^^ a') b = mul a b ^^^ mul a' b := mulBits_xor b 8 0 a a'

theorem times2_mul (a b : Byte) : mul (times2 a) b = times2 (mul a b) := mulBits_times2 b 8 0 a

theorem double_mul (n : Nat) (a b : Byte) : mul (double n a) b = double n (mul a b) := by
  induction n with
  | zero => rfl
  | succ n ih => rw [double_succ, double_succ, times2_mul, ih]

theorem power_mul (e : Nat) (b : Byte) : mul (power e) b = double e b := by
  rw [power_eq, double_mul]; exact congrArg _ (one_mul' b)

theorem power_mul_power (d e : Nat) : mul (power d) (power e) = power (d + e) := by
  rw [power_mul, power_eq, power_eq, double_add]

@[simp] theorem mul_zero' (a : Byte) : mul a 0#8 = 0#8 := by
  by_cases h : a = 0
  · subst h; exact zero_mul' 0
  · obtain ⟨e, rfl⟩ := exists_power h; rw [power_mul, double_of_zero]

theorem mul_comm' (a b : Byte) : mul a b = mul b a := by
  by_cases ha : a = 0
  · subst ha; exact (zero_mul' b).trans (mul_zero' b).symm
  by_cases hb : b = 0
  · subst hb; exact (mul_zero' a).trans (zero_mul' a).symm
  obtain ⟨d, rfl⟩ := exists_power ha
  obtain ⟨e, rfl⟩ := exists_power hb
  rw [power_mul_power, power_mul_power, Nat.add_comm]

theorem mul_xor (a b b' : Byte) : mul a (b ^^^ b') = mul a b ^^^ mul a b' := by
  rw [mul_comm', xor_mul, mul_comm' b, mul_comm' b']

@[simp] theorem mul_one' (a : Byte) : mul a 1#8 = a := by rw [mul_comm', one_mul']

theorem mul_assoc' (a b c : Byte) : mul (mul a b) c = mul a (mul b c) := by
  by_cases ha : a = 0
  · simp [ha]
  · obtain ⟨d, rfl⟩ := exists_power ha
    rw [power_mul, power_mul, double_mul]

theorem mul_eq_zero' {a b : Byte} : mul a b = 0 ↔ a = 0 ∨ b = 0 := by
  constructor
  · intro h
    by_contra hn
    rw [not_or] at hn
    obtain ⟨d, rfl⟩ := exists_power hn.1
    obtain ⟨e, rfl⟩ := exists_power hn.2
    rw [power_mul_power] at h
    exact power_ne_zero _ h
  · rintro (rfl | rfl) <;> simp

end Sys2Proof.Reference
end

