-- ==== Sys2Proof/Laws/Sparse.lean ====
section
/-! SUPPORT. The sparse lists: reading after storing and after removing, and the rising order. -/

namespace Sys2Proof.Machine

variable {α : Type}

@[simp] theorem Sparse.find_nil (i : Nat) : Sparse.find ([] : List (Nat × α)) i = none := rfl

@[simp] theorem Sparse.find_cons (k : Nat) (v : α) (rest : List (Nat × α)) (i : Nat) :
    Sparse.find ((k, v) :: rest) i = if k = i then some v else Sparse.find rest i := rfl

@[simp] theorem Sparse.find_put_same (l : List (Nat × α)) (i : Nat) (v : α) :
    Sparse.find (Sparse.put l i v) i = some v := by
  induction l with
  | nil => simp [Sparse.put]
  | cons e rest ih =>
    obtain ⟨k, w⟩ := e
    simp only [Sparse.put]
    split
    · simp
    · split
      · simp
      · rename_i h; simp [Ne.symm h, ih]

theorem Sparse.find_put_other (l : List (Nat × α)) {i j : Nat} (v : α) (h : j ≠ i) :
    Sparse.find (Sparse.put l i v) j = Sparse.find l j := by
  induction l with
  | nil => simp [Sparse.put, Ne.symm h]
  | cons e rest ih =>
    obtain ⟨k, w⟩ := e
    simp only [Sparse.put]
    split
    · simp [Ne.symm h]
    · split
      · rename_i hk; subst hk; simp [Ne.symm h]
      · simp [ih]

@[simp] theorem Sparse.find_drop_same (l : List (Nat × α)) (i : Nat) : Sparse.find (Sparse.drop l i) i = none := by
  induction l with
  | nil => rfl
  | cons e rest ih =>
    obtain ⟨k, w⟩ := e
    by_cases h : k = i <;> simp [Sparse.drop, h, ih]

theorem Sparse.find_drop_other (l : List (Nat × α)) {i j : Nat} (h : j ≠ i) :
    Sparse.find (Sparse.drop l i) j = Sparse.find l j := by
  induction l with
  | nil => rfl
  | cons e rest ih =>
    obtain ⟨k, w⟩ := e
    by_cases hk : k = i
    · subst hk; simp [Sparse.drop, Ne.symm h, ih]
    · simp [Sparse.drop, hk, ih]

theorem Sparse.risingFrom_mono {lo lo' : Nat} {l : List (Nat × α)} (hlo : lo' ≤ lo)
    (h : Sparse.risingFrom lo l = true) : Sparse.risingFrom lo' l = true := by
  cases l with
  | nil => rfl
  | cons e rest =>
    obtain ⟨k, w⟩ := e
    simp only [Sparse.risingFrom, Bool.and_eq_true, decide_eq_true_eq] at h ⊢
    exact ⟨by omega, h.2⟩

theorem Sparse.risingFrom_put {lo i : Nat} {l : List (Nat × α)} (v : α) (hi : lo ≤ i)
    (h : Sparse.risingFrom lo l = true) : Sparse.risingFrom lo (Sparse.put l i v) = true := by
  induction l generalizing lo with
  | nil => simp [Sparse.put, Sparse.risingFrom, hi]
  | cons e rest ih =>
    obtain ⟨k, w⟩ := e
    simp only [Sparse.risingFrom, Bool.and_eq_true, decide_eq_true_eq] at h
    simp only [Sparse.put]
    split
    · simp only [Sparse.risingFrom, Bool.and_eq_true, decide_eq_true_eq]
      exact ⟨hi, by omega, h.2⟩
    · split
      · rename_i hk; subst hk
        simp only [Sparse.risingFrom, Bool.and_eq_true, decide_eq_true_eq]
        exact ⟨hi, h.2⟩
      · simp only [Sparse.risingFrom, Bool.and_eq_true, decide_eq_true_eq]
        exact ⟨h.1, ih (by omega) h.2⟩

theorem Sparse.risingFrom_drop {lo : Nat} {l : List (Nat × α)} (i : Nat)
    (h : Sparse.risingFrom lo l = true) : Sparse.risingFrom lo (Sparse.drop l i) = true := by
  induction l generalizing lo with
  | nil => rfl
  | cons e rest ih =>
    obtain ⟨k, w⟩ := e
    simp only [Sparse.risingFrom, Bool.and_eq_true, decide_eq_true_eq] at h
    by_cases hk : k = i
    · simpa [Sparse.drop, hk] using Sparse.risingFrom_mono (by omega) (ih h.2)
    · simpa [Sparse.drop, hk, Sparse.risingFrom] using ⟨h.1, ih h.2⟩

theorem Sparse.all_put {p : Nat × α → Bool} {l : List (Nat × α)} {i : Nat} {v : α} (hv : p (i, v) = true)
    (h : l.all p = true) : (Sparse.put l i v).all p = true := by
  induction l with
  | nil => simpa [Sparse.put] using hv
  | cons e rest ih =>
    obtain ⟨k, w⟩ := e
    simp only [List.all_cons, Bool.and_eq_true] at h
    simp only [Sparse.put]
    split
    · simp [hv, h.1, h.2]
    · split
      · simp [hv, h.2]
      · simp [h.1, ih h.2]

theorem Sparse.all_drop {p : Nat × α → Bool} {l : List (Nat × α)} (i : Nat)
    (h : l.all p = true) : (Sparse.drop l i).all p = true := by
  induction l with
  | nil => rfl
  | cons e rest ih =>
    obtain ⟨k, w⟩ := e
    simp only [List.all_cons, Bool.and_eq_true] at h
    by_cases hk : k = i <;> simp [Sparse.drop, hk, h.1, ih h.2]

/-- Nothing is listed below the lower bound of the order. -/
theorem Sparse.find_below {lo i : Nat} {l : List (Nat × α)} (h : Sparse.risingFrom lo l = true) (hi : i < lo) :
    Sparse.find l i = none := by
  induction l generalizing lo with
  | nil => rfl
  | cons e rest ih =>
    obtain ⟨k, w⟩ := e
    simp only [Sparse.risingFrom, Bool.and_eq_true, decide_eq_true_eq] at h
    have hk : k ≠ i := by omega
    simpa [hk] using ih h.2 (by omega)

/-- Two rising lists with the same entries are the same list: equal memories are equal data. -/
theorem Sparse.ext {lo : Nat} {l m : List (Nat × α)} (hl : Sparse.risingFrom lo l = true)
    (hm : Sparse.risingFrom lo m = true) (h : ∀ i, Sparse.find l i = Sparse.find m i) : l = m := by
  induction l generalizing lo m with
  | nil =>
    cases m with
    | nil => rfl
    | cons e rest => obtain ⟨k, v⟩ := e; have := h k; simp at this
  | cons e rest ih =>
    obtain ⟨k, v⟩ := e
    cases m with
    | nil => have := h k; simp at this
    | cons e' rest' =>
      obtain ⟨k', v'⟩ := e'
      simp only [Sparse.risingFrom, Bool.and_eq_true, decide_eq_true_eq] at hl hm
      have hk : k = k' := by
        rcases Nat.lt_trichotomy k k' with hlt | heq | hgt
        · have h1 := h k
          have hne : k' ≠ k := by omega
          simp [hne, Sparse.find_below hm.2 (by omega : k < k' + 1)] at h1
        · exact heq
        · have h1 := h k'
          have hne : k ≠ k' := by omega
          simp [hne, Sparse.find_below hl.2 (by omega : k' < k + 1)] at h1
      subst hk
      have hv : v = v' := by have h1 := h k; simpa using h1
      subst hv
      have hrest : rest = rest' := by
        refine ih hl.2 hm.2 fun i => ?_
        by_cases hi : k = i
        · subst hi
          rw [Sparse.find_below hl.2 (by omega), Sparse.find_below hm.2 (by omega)]
        · have h1 := h i; simpa [hi] using h1
      rw [hrest]

/-- A listed entry passes whatever every entry passes. -/
theorem Sparse.find_all {p : Nat × α → Bool} {l : List (Nat × α)} {i : Nat} {v : α} (h : l.all p = true)
    (hf : Sparse.find l i = some v) : p (i, v) = true := by
  induction l with
  | nil => simp at hf
  | cons e rest ih =>
    obtain ⟨k, w⟩ := e
    simp only [List.all_cons, Bool.and_eq_true] at h
    by_cases hk : k = i
    · subst hk; simp at hf; subst hf; exact h.1
    · simp [hk] at hf; exact ih h.2 hf

end Sys2Proof.Machine
end

