-- ==== Sys2Proof/Laws/Memory.lean ====
section
/-! SUPPORT. The memories: every operation keeps the canonical form, and reading after writing. -/

namespace Sys2Proof.Machine

/-! ### The sizes, as numbers (10_state.md R30, R38) -/

@[simp] theorem Space.elements_payload : Space.payload.elements = 106 := rfl
@[simp] theorem Space.elements_cw : Space.cw.elements = 512 := rfl
@[simp] theorem Space.elements_gen : Space.gen.elements = 255 := rfl
@[simp] theorem Space.elements_gfExp : Space.gfExp.elements = 256 := rfl
@[simp] theorem Space.elements_gfLog : Space.gfLog.elements = 256 := rfl
@[simp] theorem Space.elements_rem : Space.rem.elements = 510 := rfl

/-! ### Writing -/

theorem Memory.wf_put {n i : Nat} {m : Memory} (v : Byte) (h : Memory.wf n m = true) :
    Memory.wf n (Memory.put n m i v) = true := by
  simp only [Memory.wf, Bool.and_eq_true, Memory.put] at h ⊢
  split
  · rename_i hi
    exact ⟨Sparse.risingFrom_put v (Nat.zero_le _) h.1, Sparse.all_put (by simpa using hi) h.2⟩
  · exact h

theorem Memory.wf_store {n : Nat} {m : Memory} (base : Nat) (l : List Byte) (h : Memory.wf n m = true) :
    Memory.wf n (Memory.store n m base l) = true := by
  induction l generalizing m base with
  | nil => exact h
  | cons b rest ih => exact ih _ (Memory.wf_put b h)

theorem Memory.find_put_same {n i : Nat} (m : Memory) (v : Byte) (hi : i < n) :
    Sparse.find (Memory.put n m i v) i = some v := by simp [Memory.put, hi]

theorem Memory.find_put_other {n i j : Nat} (m : Memory) (v : Byte) (h : j ≠ i) :
    Sparse.find (Memory.put n m i v) j = Sparse.find m j := by
  unfold Memory.put
  split
  · exact Sparse.find_put_other m v h
  · rfl

theorem Memory.find_store_below {n i : Nat} (m : Memory) (base : Nat) (l : List Byte) (h : i < base) :
    Sparse.find (Memory.store n m base l) i = Sparse.find m i := by
  induction l generalizing m base with
  | nil => rfl
  | cons b rest ih =>
    rw [Memory.store, ih _ (base + 1) (by omega), Memory.find_put_other m b (by omega)]

theorem Memory.find_store_above {n i : Nat} (m : Memory) (base : Nat) (l : List Byte) (h : base + l.length ≤ i) :
    Sparse.find (Memory.store n m base l) i = Sparse.find m i := by
  induction l generalizing m base with
  | nil => rfl
  | cons b rest ih =>
    simp only [List.length_cons] at h
    rw [Memory.store, ih _ (base + 1) (by omega), Memory.find_put_other m b (by omega)]

/-- A stored byte is found at its index. -/
theorem Memory.find_store_inside {n i : Nat} (m : Memory) (base : Nat) (l : List Byte) (hi : i < l.length)
    (hn : base + i < n) : Sparse.find (Memory.store n m base l) (base + i) = some (l.getD i 0) := by
  induction l generalizing m base i with
  | nil => simp at hi
  | cons b rest ih =>
    cases i with
    | zero =>
      rw [Memory.store, Memory.find_store_below _ (base + 1) rest (by omega)]
      exact Memory.find_put_same m b (by omega)
    | succ k =>
      simp only [List.length_cons] at hi
      have h := ih (Memory.put n m base b) (base + 1) (i := k) (by omega) (by omega)
      rw [Memory.store, show base + (k + 1) = base + 1 + k by omega, h]
      rfl

/-! ### Reading one element of a state -/

theorem State.read_outside (s : State) {sp : Space} {i : Nat} (h : sp.elements ≤ i) : s.read sp i = 0 := by
  simp [State.read, Nat.not_lt.mpr h]

/-- Reading depends on the memory and on the number of resets alone. -/
theorem State.read_congr {s t : State} {sp : Space} (hb : t.bank sp = s.bank sp) (hr : t.resets = s.resets) (i : Nat) :
    t.read sp i = s.read sp i := by
  simp [State.read, hb, hr]

theorem State.block_congr {s t : State} {sp : Space} (hb : t.bank sp = s.bank sp) (hr : t.resets = s.resets)
    (base n : Nat) : t.block sp base n = s.block sp base n := by
  simp [State.block, State.read_congr hb hr]

@[simp] theorem State.block_length (s : State) (sp : Space) (base n : Nat) : (s.block sp base n).length = n := by
  simp [State.block]

theorem State.read_write_same (s : State) {sp : Space} {i : Nat} (v : Byte) (h : i < sp.elements) :
    (s.write sp i v).read sp i = v := by
  simp [State.read, State.write, h, Memory.find_put_same]

theorem State.read_write_other (s : State) {sp : Space} {i j : Nat} (v : Byte) (h : j ≠ i) :
    (s.write sp i v).read sp j = s.read sp j := by
  simp [State.read, State.write, Memory.find_put_other _ v h]

theorem State.read_write_space (s : State) {sp sq : Space} (i j : Nat) (v : Byte) (h : sq ≠ sp) :
    (s.write sp i v).read sq j = s.read sq j :=
  State.read_congr (State.bank_withBank_other s _ h) (State.write_resets s sp i v) j

theorem State.read_store_below (s : State) {sp : Space} {i : Nat} (base : Nat) (l : List Byte) (h : i < base) :
    (s.store sp base l).read sp i = s.read sp i := by
  simp [State.read, State.store, Memory.find_store_below _ base l h]

theorem State.read_store_above (s : State) {sp : Space} {i : Nat} (base : Nat) (l : List Byte)
    (h : base + l.length ≤ i) : (s.store sp base l).read sp i = s.read sp i := by
  simp [State.read, State.store, Memory.find_store_above _ base l h]

theorem State.read_store_inside (s : State) {sp : Space} {i : Nat} (base : Nat) (l : List Byte) (hi : i < l.length)
    (hn : base + i < sp.elements) : (s.store sp base l).read sp (base + i) = l.getD i 0 := by
  simp [State.read, State.store, hn, Memory.find_store_inside _ base l hi hn]

theorem State.read_store_space (s : State) {sp sq : Space} (base j : Nat) (l : List Byte) (h : sq ≠ sp) :
    (s.store sp base l).read sq j = s.read sq j :=
  State.read_congr (State.bank_withBank_other s _ h) (State.store_resets s sp base l) j

/-- A stored block is read back whole. -/
theorem State.block_store_same (s : State) {sp : Space} (base : Nat) (l : List Byte)
    (h : base + l.length ≤ sp.elements) : (s.store sp base l).block sp base l.length = l := by
  apply List.ext_getElem
  · simp
  · intro i h1 h2
    have h3 : i < l.length := by simpa using h1
    have h4 := State.read_store_inside s (sp := sp) base l h3 (by omega)
    simp [State.block, h4, h3]

/-- A block outside the stored one is as before. -/
theorem State.block_store_disjoint (s : State) {sp : Space} (base : Nat) (l : List Byte) (b n : Nat)
    (h : b + n ≤ base ∨ base + l.length ≤ b) : (s.store sp base l).block sp b n = s.block sp b n := by
  simp only [State.block]
  apply List.map_congr_left
  intro k hk
  simp only [List.mem_range] at hk
  rcases h with h | h
  · exact State.read_store_below s base l (by omega)
  · exact State.read_store_above s base l (by omega)

theorem State.block_store_space (s : State) {sp sq : Space} (base : Nat) (l : List Byte) (b n : Nat) (h : sq ≠ sp) :
    (s.store sp base l).block sq b n = s.block sq b n := by
  simp [State.block, State.read_store_space s base _ l h]

end Sys2Proof.Machine
end

