-- ==== Sys2Proof/Laws/GaloisField.lean ====
section
/-! SUPPORT. galois_field_lut: what `GF_BUILD` leaves in the tables, and `expadd` as the field product. -/

namespace Sys2Proof.Machine
set_option Elab.async false

/-! ### The running value -/

theorem gfDouble_toNat {v : BitVec 9} {b : Byte} (h : v = b.setWidth 9) :
    gfDouble v = (Reference.times2 b).setWidth 9 := by
  subst h; revert b; decide +kernel

/-- The running value of the build at exponent `e`. -/
theorem gfDouble_power (e : Nat) : gfDouble^[e] 1 = (Reference.power e).setWidth 9 := by
  induction e with
  | zero => rfl
  | succ n ih => rw [Function.iterate_succ_apply', ih]; exact gfDouble_toNat rfl

/-! ### The loop -/

/-- `GF_EXP` after the loop: the entries from `e` on hold the running values. -/
theorem find_gfFill_exp (n e : Nat) (expT logT : Memory) (i : Nat) (he : e + n ≤ 256) :
    Sparse.find (gfFill n e (gfDouble^[e] 1) expT logT).1 i =
      if e ≤ i ∧ i < e + n then some (Reference.power i) else Sparse.find expT i := by
  induction n generalizing e expT logT with
  | zero => rw [if_neg (by omega)]; rfl
  | succ n ih =>
    rw [gfFill, ← Function.iterate_succ_apply' gfDouble e 1, ih (e + 1) _ _ (by omega)]
    by_cases hi : i = e
    · subst hi
      rw [if_neg (by omega), if_pos (by omega), Memory.find_put_same _ _ (show i < Space.gfExp.elements by show i < 256; omega),
        gfDouble_power]
      congr 1
      rw [BitVec.setWidth_setWidth_of_le _ (by omega), BitVec.setWidth_eq]
    · rw [Memory.find_put_other _ _ hi]
      split <;> split <;> first | rfl | omega

/-- `GF_LOG` after the loop: an index that is a power 2^k with `e ≤ k < e + n` holds the last such `k`. -/
theorem find_gfFill_log_other (n e : Nat) (expT logT : Memory) (v : Byte)
    (h : ∀ k, e ≤ k → k < e + n → Reference.power k ≠ v) :
    Sparse.find (gfFill n e (gfDouble^[e] 1) expT logT).2 v.toNat = Sparse.find logT v.toNat := by
  induction n generalizing e expT logT with
  | zero => rfl
  | succ n ih =>
    rw [gfFill, ← Function.iterate_succ_apply' gfDouble e 1, ih (e + 1) _ _ fun k h1 h2 => h k (by omega) (by omega)]
    refine Memory.find_put_other _ _ fun hv => h e (by omega) (by omega) (BitVec.eq_of_toNat_eq ?_)
    rw [gfDouble_power] at hv
    rw [hv, BitVec.toNat_setWidth]
    have := (Reference.power e).isLt
    omega

theorem find_gfFill_log (n e k : Nat) (expT logT : Memory) (he : e ≤ k) (hk : k < e + n)
    (h : ∀ j, k < j → j < e + n → Reference.power j ≠ Reference.power k) :
    Sparse.find (gfFill n e (gfDouble^[e] 1) expT logT).2 (Reference.power k).toNat = some (BitVec.ofNat 8 k) := by
  induction n generalizing e expT logT with
  | zero => omega
  | succ n ih =>
    rw [gfFill, ← Function.iterate_succ_apply' gfDouble e 1]
    by_cases hek : e = k
    · subst hek
      rw [find_gfFill_log_other n (e + 1) _ _ _ fun j h1 h2 => h j (by omega) (by omega), gfDouble_power]
      have h1 : ((Reference.power e).setWidth 9).toNat = (Reference.power e).toNat := by
        rw [BitVec.toNat_setWidth]; have := (Reference.power e).isLt; omega
      rw [h1]
      exact Memory.find_put_same _ _ (Reference.power e).isLt
    · exact ih (e + 1) _ _ (by omega) (by omega) fun j h1 h2 => h j h1 (by omega)

/-! ### GF_BUILD -/

theorem gfBuild_gfExp (s : State) (i : Byte) : (gfBuild s).read .gfExp i.toNat = Reference.expTable.getD i.toNat 0 := by
  have hi : i.toNat < 256 := i.isLt
  rw [Reference.expTable_eq]
  simp only [State.read, State.bank, gfBuild, Space.elements_gfExp, Config.gfTableLen, hi, if_true]
  have := find_gfFill_exp 256 0 s.gfExp s.gfLog i.toNat (by omega)
  simp only [Function.iterate_zero, id_eq] at this
  rw [this, if_pos (by omega)]; rfl

theorem gfBuild_gfLog (s : State) (i : Byte) : (gfBuild s).read .gfLog i.toNat = Reference.logTable.getD i.toNat 0 := by
  have hi : i.toNat < 256 := i.isLt
  simp only [State.read, State.bank, gfBuild, Space.elements_gfLog, Config.gfTableLen, hi, if_true]
  by_cases h1 : i = 1
  · subst h1; rw [show (1 : Byte).toNat = 1 from rfl, Memory.find_put_same _ _ (by omega)]; rfl
  have h1n : i.toNat ≠ 1 := fun h => h1 (BitVec.eq_of_toNat_eq h)
  rw [Memory.find_put_other _ _ h1n]
  by_cases h0 : i = 0
  · subst h0; rw [show (0 : Byte).toNat = 0 from rfl, Memory.find_put_same _ _ (by omega)]; rfl
  have h0n : i.toNat ≠ 0 := fun h => h0 (BitVec.eq_of_toNat_eq h)
  rw [Memory.find_put_other _ _ h0n]
  have hle := Reference.logTable_le i
  have hp := Reference.power_log i h0
  have := find_gfFill_log 256 0 (Reference.logTable.getD i.toNat 0).toNat s.gfExp s.gfLog (by omega) (by omega)
    fun j h2 h3 hj => ?_
  · simp only [Function.iterate_zero, id_eq] at this
    rw [hp] at this
    rw [this]
    apply BitVec.eq_of_toNat_eq
    simp
  · by_cases hj' : j = 255
    · subst hj'
      rw [Reference.power_255, hp] at hj
      exact h1 hj.symm
    · have := Reference.power_inj (by omega) (by omega) hj
      omega

/-- After a build the tables are ready. -/
theorem tablesBuilt_gfBuild (s : State) (i : Byte) :
    (gfBuild s).read .gfExp i.toNat = Reference.expTable.getD i.toNat 0 ∧
      (gfBuild s).read .gfLog i.toNat = Reference.logTable.getD i.toNat 0 :=
  ⟨gfBuild_gfExp s i, gfBuild_gfLog s i⟩

theorem wf_gfFill (n e : Nat) (v : BitVec 9) (expT logT : Memory) (h1 : Memory.wf 256 expT = true)
    (h2 : Memory.wf 256 logT = true) :
    Memory.wf 256 (gfFill n e v expT logT).1 = true ∧ Memory.wf 256 (gfFill n e v expT logT).2 = true := by
  induction n generalizing e v expT logT with
  | zero => exact ⟨h1, h2⟩
  | succ n ih => exact ih _ _ _ _ (Memory.wf_put _ h1) (Memory.wf_put _ h2)

/-! ### The exponent sum -/

theorem expadd_toNat (a b : Byte) :
    (expadd a b).toNat = if 255 < a.toNat + b.toNat then a.toNat + b.toNat - 255 else a.toNat + b.toNat := by
  have ha := a.isLt
  have hb := b.isLt
  simp only [expadd]
  split
  · rw [BitVec.toNat_add, BitVec.toNat_ofNat, show (1 : Byte).toNat = 1 from rfl]; omega
  · rw [BitVec.toNat_ofNat]; omega

theorem expadd_mod (a b : Byte) : (expadd a b).toNat % 255 = (a.toNat + b.toNat) % 255 := by
  rw [expadd_toNat]; split <;> omega

/-- The exponent sum is an exponent of the product (40_gf.md R104). -/
theorem power_expadd (a b : Byte) :
    Reference.power (expadd a b).toNat = Reference.mul (Reference.power a.toNat) (Reference.power b.toNat) := by
  rw [Reference.power_mul_power, Reference.power_mod, expadd_mod, ← Reference.power_mod]

end Sys2Proof.Machine
end

