-- ==== Sys2Proof/Laws/Grid.lean ====
section
/-! SUPPORT. The matrix: every operation keeps the canonical form, and what a cell holds after each. -/

namespace Sys2Proof.Machine

theorem gridIndex_div {row col : Nat} (h : col < 64) : gridIndex row col / 64 = row := by
  unfold gridIndex; omega

theorem gridIndex_mod {row col : Nat} (h : col < 64) : gridIndex row col % 64 = col := by
  unfold gridIndex; omega

theorem gridIndex_inj {r c r' c' : Nat} (h : c < 64) (h' : c' < 64) (he : gridIndex r c = gridIndex r' c') :
    r = r' ∧ c = c' := by
  unfold gridIndex at he; omega

theorem Grid.get_outside {size : Nat} (g : Grid) {row col : Nat} (h : ¬(row < size ∧ col < size)) :
    Grid.get size g row col = QrModule.zero := by
  unfold Grid.get; rw [if_neg h]

@[simp] theorem Grid.get_nil (size row col : Nat) : Grid.get size [] row col = QrModule.zero := by
  simp [Grid.get]

theorem Grid.get_set_same {size : Nat} (g : Grid) {row col : Nat} (m : QrModule) (hr : row < size) (hc : col < size) :
    Grid.get size (Grid.set size g row col m) row col = m := by
  by_cases hm : m = QrModule.zero <;> simp [Grid.get, Grid.set, hr, hc, hm]

theorem Grid.get_set_other {size : Nat} (hs : size ≤ 64) (g : Grid) {row col r c : Nat} (m : QrModule)
    (h : ¬(r = row ∧ c = col)) : Grid.get size (Grid.set size g row col m) r c = Grid.get size g r c := by
  by_cases hin : r < size ∧ c < size
  · by_cases hset : row < size ∧ col < size
    · have hne : gridIndex r c ≠ gridIndex row col := fun he =>
        h (gridIndex_inj (by omega) (by omega) he)
      by_cases hm : m = QrModule.zero
      · simp [Grid.get, Grid.set, hin, hset, hm, Sparse.find_drop_other g hne]
      · simp [Grid.get, Grid.set, hin, hset, hm, Sparse.find_put_other g m hne]
    · simp [Grid.set, hset]
  · simp [Grid.get, hin]

theorem Grid.wf_set {size : Nat} (hs : size ≤ 64) {g : Grid} (row col : Nat) (m : QrModule)
    (h : Grid.wf size g = true) : Grid.wf size (Grid.set size g row col m) = true := by
  simp only [Grid.wf, Bool.and_eq_true] at h ⊢
  unfold Grid.set
  split
  · rename_i hin
    split
    · exact ⟨Sparse.risingFrom_drop _ h.1, Sparse.all_drop _ h.2⟩
    · rename_i hm
      refine ⟨Sparse.risingFrom_put m (Nat.zero_le _) h.1, Sparse.all_put ?_ h.2⟩
      rw [gridIndex_div (by omega), gridIndex_mod (by omega)]
      simp [hin.1, hin.2, hm]
  · exact h

/-- Two canonical matrices with the same cells are the same list. -/
theorem Grid.ext {size : Nat} {g g' : Grid} (h : Grid.wf size g = true) (h' : Grid.wf size g' = true)
    (he : ∀ r c, Grid.get size g r c = Grid.get size g' r c) : g = g' := by
  simp only [Grid.wf, Bool.and_eq_true] at h h'
  have listed : ∀ {l : Grid}, (l.all fun e => decide (e.1 / 64 < size) && decide (e.1 % 64 < size) &&
      decide (e.2 ≠ QrModule.zero)) = true → ∀ i, Sparse.find l i = 
        if Grid.get size l (i / 64) (i % 64) = QrModule.zero then none
        else some (Grid.get size l (i / 64) (i % 64)) := by
    intro l hl i
    have hidx : gridIndex (i / 64) (i % 64) = i := by unfold gridIndex; omega
    cases hf : Sparse.find l i with
    | none => simp [Grid.get, hidx, hf]
    | some v =>
      have hp := Sparse.find_all hl hf
      simp only [Bool.and_eq_true, decide_eq_true_eq] at hp
      simp [Grid.get, hidx, hf, hp.1.1, hp.1.2, hp.2]
  refine Sparse.ext h.1 h'.1 fun i => ?_
  rw [listed h.2, listed h'.2, he]

@[simp] theorem Grid.get_update_same {size : Nat} (g : Grid) (r c : Nat) (f : QrModule → QrModule) (hr : r < size)
    (hc : c < size) : Grid.get size (Grid.update size g (r, c) f) r c = f (Grid.get size g r c) :=
  Grid.get_set_same g _ hr hc

theorem Grid.get_update_other {size : Nat} (hs : size ≤ 64) (g : Grid) {cell : Nat × Nat} {r c : Nat}
    (f : QrModule → QrModule) (h : (r, c) ≠ cell) :
    Grid.get size (Grid.update size g cell f) r c = Grid.get size g r c := by
  refine Grid.get_set_other hs g _ fun he => h ?_
  obtain ⟨a, b⟩ := cell
  simp [he.1, he.2]

theorem Grid.wf_update {size : Nat} (hs : size ≤ 64) {g : Grid} (cell : Nat × Nat) (f : QrModule → QrModule)
    (h : Grid.wf size g = true) : Grid.wf size (Grid.update size g cell f) = true :=
  Grid.wf_set hs _ _ _ h

/-! ### Lists of stamps and updates -/

theorem Grid.wf_stampAll {size : Nat} (hs : size ≤ 64) (l : List ((Nat × Nat) × Bool)) {g : Grid}
    (h : Grid.wf size g = true) : Grid.wf size (stampAll size l g) = true := by
  induction l generalizing g with
  | nil => exact h
  | cons e rest ih => exact ih (Grid.wf_update hs _ _ h)

/-- A cell no stamp names is as before. -/
theorem Grid.get_stampAll_other {size : Nat} (hs : size ≤ 64) (l : List ((Nat × Nat) × Bool)) (g : Grid) {r c : Nat}
    (h : ∀ v, ((r, c), v) ∉ l) : Grid.get size (stampAll size l g) r c = Grid.get size g r c := by
  induction l generalizing g with
  | nil => rfl
  | cons e rest ih =>
    obtain ⟨cell, v⟩ := e
    have hcell : (r, c) ≠ cell := fun he => h v (by simp [he])
    have hrest : ∀ w, ((r, c), w) ∉ rest := fun w hw => h w (by simp [hw])
    rw [stampAll, ih _ hrest, Grid.get_update_other hs g _ hcell]

/-- A cell that some stamp names, all its stamps with one value, takes that value and is taken; `is_data` stays. -/
theorem Grid.get_stampAll_same {size : Nat} (hs : size ≤ 64) (l : List ((Nat × Nat) × Bool)) (g : Grid) {r c : Nat}
    (hr : r < size) (hc : c < size) {v : Bool} (hv : ((r, c), v) ∈ l) (hall : ∀ w, ((r, c), w) ∈ l → w = v) :
    Grid.get size (stampAll size l g) r c = stampModule v (Grid.get size g r c) := by
  induction l generalizing g with
  | nil => simp at hv
  | cons e rest ih =>
    obtain ⟨cell, w⟩ := e
    by_cases hin : ((r, c), v) ∈ rest
    · rw [stampAll, ih _ hin fun w' hw' => hall w' (by simp [hw'])]
      by_cases hcell : (r, c) = cell
      · subst hcell; rw [Grid.get_update_same g r c _ hr hc]; rfl
      · rw [Grid.get_update_other hs g _ hcell]
    · have hhead : ((r, c), v) = (cell, w) := by simpa [hin] using hv
      have hrest : ∀ w', ((r, c), w') ∉ rest := fun w' hw' =>
        hin (hall w' (by simp [hw']) ▸ hw')
      rw [stampAll, Grid.get_stampAll_other hs rest _ hrest]
      obtain ⟨h1, h2⟩ := Prod.mk.inj hhead
      subst h1; subst h2
      exact Grid.get_update_same g r c _ hr hc

theorem Grid.wf_updateAll {size : Nat} (hs : size ≤ 64) (f : Nat × Nat → QrModule → QrModule) (l : List (Nat × Nat))
    {g : Grid} (h : Grid.wf size g = true) : Grid.wf size (updateAll size f l g) = true := by
  induction l generalizing g with
  | nil => exact h
  | cons e rest ih => exact ih (Grid.wf_update hs _ _ h)

theorem Grid.get_updateAll_other {size : Nat} (hs : size ≤ 64) (f : Nat × Nat → QrModule → QrModule)
    (l : List (Nat × Nat)) (g : Grid) {r c : Nat} (h : (r, c) ∉ l) :
    Grid.get size (updateAll size f l g) r c = Grid.get size g r c := by
  induction l generalizing g with
  | nil => rfl
  | cons cell rest ih =>
    simp only [List.mem_cons, not_or] at h
    rw [updateAll, ih _ h.2, Grid.get_update_other hs g _ h.1]

/-- A cell listed once is changed once. -/
theorem Grid.get_updateAll_same {size : Nat} (hs : size ≤ 64) (f : Nat × Nat → QrModule → QrModule)
    (l : List (Nat × Nat)) (g : Grid) {r c : Nat} (hr : r < size) (hc : c < size) (hl : l.Nodup) (h : (r, c) ∈ l) :
    Grid.get size (updateAll size f l g) r c = f (r, c) (Grid.get size g r c) := by
  induction l generalizing g with
  | nil => simp at h
  | cons cell rest ih =>
    simp only [List.nodup_cons] at hl
    rcases List.mem_cons.mp h with he | hin
    · subst he
      rw [updateAll, Grid.get_updateAll_other hs f rest _ hl.1, Grid.get_update_same g r c _ hr hc]
    · have hne : (r, c) ≠ cell := fun he => hl.1 (he ▸ hin)
      rw [updateAll, ih _ hl.2 hin, Grid.get_update_other hs g _ hne]

theorem Grid.wf_writeFormat {size : Nat} (hs : size ≤ 64) (format : BitVec 18) (n i : Nat) {g : Grid}
    (h : Grid.wf size g = true) : Grid.wf size (writeFormat size format n i g) = true := by
  induction n generalizing i g with
  | zero => exact h
  | succ n ih => exact ih _ (Grid.wf_update hs _ _ (Grid.wf_update hs _ _ h))

/-! ### The cells of the whole symbol -/

theorem mem_symbolCells {size r c : Nat} : (r, c) ∈ symbolCells size ↔ r < size ∧ c < size := by
  simp [symbolCells]

theorem symbolCells_nodup (size : Nat) : (symbolCells size).Nodup := by
  have h : symbolCells size = (List.range size).product (List.range size) := by
    simp [symbolCells, List.product]
  rw [h]
  exact List.Nodup.product List.nodup_range List.nodup_range

/-- What masking leaves in every cell. -/
theorem Grid.get_mask {size : Nat} (hs : size ≤ 64) (g : Grid) (r c : Nat) :
    Grid.get size (updateAll size maskModule (symbolCells size) g) r c =
      if r < size ∧ c < size then maskModule (r, c) (Grid.get size g r c) else QrModule.zero := by
  split
  · rename_i h
    exact Grid.get_updateAll_same hs _ _ g h.1 h.2 (symbolCells_nodup size) (mem_symbolCells.mpr h)
  · rename_i h; exact Grid.get_outside _ h

/-- Masking a module twice restores it. -/
@[simp] theorem maskModule_maskModule (cell : Nat × Nat) (m : QrModule) :
    maskModule cell (maskModule cell m) = m := by
  obtain ⟨v, t, d⟩ := m
  cases v <;> cases t <;> cases d <;> simp [maskModule]

theorem State.size_lt (s : State) : s.size < 64 := s.mtxSize.isLt

theorem State.size_le (s : State) : s.size ≤ 64 := Nat.le_of_lt s.size_lt

end Sys2Proof.Machine
end

