-- ==== Sys2Proof/Laws/Invariant.lean ====
section
/-! SUPPORT. The pieces of the invariant: what each says of a state, in the form later proofs use. -/

namespace Sys2Proof.Machine

/-- What every listed module satisfies, and the zero module too, every cell satisfies. -/
theorem Grid.get_of_all {p : QrModule → Bool} {size : Nat} {g : Grid} (h : g.all (fun e => p e.2) = true)
    (h0 : p QrModule.zero = true) (r c : Nat) : p (Grid.get size g r c) = true := by
  unfold Grid.get
  split
  · cases hf : Sparse.find g (gridIndex r c) with
    | none => simpa using h0
    | some m => exact Sparse.find_all (p := fun e => p e.2) h hf
  · exact h0

theorem dataCellsTaken_of_all {s : State} (h : s.matrix.all (fun e => !e.2.isData || e.2.taken) = true) :
    dataCellsTaken s := fun r c hd => by
  have := Grid.get_of_all (p := fun m => !m.isData || m.taken) (size := s.size) h rfl r c
  simp only [State.cell] at hd ⊢
  simpa [hd] using this

end Sys2Proof.Machine
end

