-- ==== Sys2Proof/Laws/Walk.lean ====
section
/-! SUPPORT. zig_zag_placement_fsm: the cursor at each position of the visiting order, one step of the walk, and what the
search for the next free cell answers. -/

namespace Sys2Proof.Machine
set_option Elab.async false

/-- The five sizes of a symbol. -/
def SizeLegal (size : Nat) : Prop := size = 21 ∨ size = 25 ∨ size = 29 ∨ size = 33 ∨ size = 37

/-- The number of cells the walk visits (44_matrix.md R194). -/
def walkLength (size : Nat) : Nat := size * (size - 1)

/-- The row of position `p` of the visiting order. -/
def walkRow (size p : Nat) : Nat :=
  if p / (2 * size) % 2 = 0 then size - 1 - p % (2 * size) / 2 else p % (2 * size) / 2

/-- The column of position `p` of the visiting order. -/
def walkCol (size p : Nat) : Nat := Reference.pairColumn size (p / (2 * size)) - p % 2

/-- The cursor at position `p` of the visiting order, exhausted after the last (44_matrix.md R194, R198). -/
def cursorAt (size p : Nat) : Cursor :=
  if p < walkLength size then
    ⟨BitVec.ofNat 6 (walkRow size p), BitVec.ofNat 6 (walkCol size p),
      if p / (2 * size) % 2 = 0 then .up else .down, decide (p % 2 = 1)⟩
  else ⟨BitVec.ofNat 6 (size - 1), 63, .up, false⟩

theorem walkLength_le {size : Nat} (h : SizeLegal size) : walkLength size ≤ 1332 := by
  rcases h with rfl | rfl | rfl | rfl | rfl <;> decide

theorem walkRow_lt {size p : Nat} (h : SizeLegal size) : walkRow size p < size := by
  unfold walkRow
  rcases h with rfl | rfl | rfl | rfl | rfl <;> (split <;> omega)

theorem walkCol_lt {size p : Nat} (h : SizeLegal size) : walkCol size p < size := by
  unfold walkCol Reference.pairColumn
  rcases h with rfl | rfl | rfl | rfl | rfl <;> (split <;> omega)

theorem cursorAt_row {size p : Nat} (h : SizeLegal size) (hp : p < walkLength size) :
    (cursorAt size p).row.toNat = walkRow size p := by
  have := walkRow_lt (p := p) h
  rw [cursorAt, if_pos hp, BitVec.toNat_ofNat, Nat.mod_eq_of_lt]
  rcases h with rfl | rfl | rfl | rfl | rfl <;> omega

theorem cursorAt_col {size p : Nat} (h : SizeLegal size) (hp : p < walkLength size) :
    (cursorAt size p).col.toNat = walkCol size p := by
  have := walkCol_lt (p := p) h
  rw [cursorAt, if_pos hp, BitVec.toNat_ofNat, Nat.mod_eq_of_lt]
  rcases h with rfl | rfl | rfl | rfl | rfl <;> omega

theorem cursorAt_exhausted {size p : Nat} (h : SizeLegal size) :
    (cursorAt size p).exhausted = decide (walkLength size ≤ p) := by
  by_cases hp : p < walkLength size
  · have h1 := cursorAt_col h hp
    have h2 := walkCol_lt (p := p) h
    rw [decide_eq_false (by omega), Cursor.exhausted, beq_eq_false_iff_ne]
    intro he
    rw [he] at h1
    have : (63 : BitVec 6).toNat = 63 := rfl
    rcases h with rfl | rfl | rfl | rfl | rfl <;> omega
  · rw [decide_eq_true (by omega), cursorAt, if_neg hp]; rfl

theorem advance_cursorAt_21 : ∀ p < 420, (cursorAt 21 p).advance 21 = cursorAt 21 (p + 1) := by decide +kernel
theorem advance_cursorAt_25 : ∀ p < 600, (cursorAt 25 p).advance 25 = cursorAt 25 (p + 1) := by decide +kernel
theorem advance_cursorAt_29 : ∀ p < 812, (cursorAt 29 p).advance 29 = cursorAt 29 (p + 1) := by decide +kernel
theorem advance_cursorAt_33 : ∀ p < 1056, (cursorAt 33 p).advance 33 = cursorAt 33 (p + 1) := by decide +kernel
theorem advance_cursorAt_37 : ∀ p < 1332, (cursorAt 37 p).advance 37 = cursorAt 37 (p + 1) := by decide +kernel

/-- One step of the walk is one position. -/
theorem advance_cursorAt {size p : Nat} (h : SizeLegal size) (hp : p < walkLength size) :
    (cursorAt size p).advance size = cursorAt size (p + 1) := by
  rcases h with rfl | rfl | rfl | rfl | rfl
  · exact advance_cursorAt_21 p hp
  · exact advance_cursorAt_25 p hp
  · exact advance_cursorAt_29 p hp
  · exact advance_cursorAt_33 p hp
  · exact advance_cursorAt_37 p hp

theorem visitOrder_cells {size : Nat} (h : SizeLegal size) :
    Reference.visitOrder size = (List.range (walkLength size)).map fun p => (walkRow size p, walkCol size p) := by
  rcases h with rfl | rfl | rfl | rfl | rfl <;> decide +kernel

theorem visitOrder_length {size : Nat} (h : SizeLegal size) :
    (Reference.visitOrder size).length = walkLength size := by simp [visitOrder_cells h]

theorem visitOrder_getElem? {size p : Nat} (h : SizeLegal size) (hp : p < walkLength size) :
    (Reference.visitOrder size)[p]? = some (walkRow size p, walkCol size p) := by
  simp [visitOrder_cells h, hp]

/-- The position of a cell in the visiting order. -/
def walkPosition (size r c : Nat) : Nat :=
  let q := if 6 < c then (size - 1 - c) / 2 else (size - 2 - c) / 2
  2 * size * q + 2 * (if q % 2 = 0 then size - 1 - r else r) + (Reference.pairColumn size q - c)

theorem walkPosition_walk {size p : Nat} (h : SizeLegal size) (hp : p < walkLength size) :
    walkPosition size (walkRow size p) (walkCol size p) = p := by
  have all (n : Nat) (hn : (List.range (walkLength n)).all (fun p => walkPosition n (walkRow n p) (walkCol n p) == p) = true)
      (hp : p < walkLength n) : walkPosition n (walkRow n p) (walkCol n p) = p :=
    eq_of_beq (List.all_eq_true.mp hn p (List.mem_range.mpr hp))
  rcases h with rfl | rfl | rfl | rfl | rfl <;> exact all _ (by decide +kernel) hp

/-- The visiting order contains each cell once (44_matrix.md R206). -/
theorem visitOrder_nodup {size : Nat} (h : SizeLegal size) : (Reference.visitOrder size).Nodup := by
  rw [visitOrder_cells h, List.nodup_map_iff_inj_on List.nodup_range]
  intro p hp q hq he
  simp only [Prod.mk.injEq] at he
  rw [← walkPosition_walk h (List.mem_range.mp hp), he.1, he.2, walkPosition_walk h (List.mem_range.mp hq)]

/-- The first position is the corner `MTX_INIT` puts the cursor in (44_matrix.md R181). -/
theorem cursorAt_zero {size : Nat} (h : SizeLegal size) :
    cursorAt size 0 = ⟨BitVec.ofNat 6 (size - 1), BitVec.ofNat 6 (size - 1), .up, false⟩ := by
  rcases h with rfl | rfl | rfl | rfl | rfl <;> decide

theorem advance_iterate {size : Nat} (h : SizeLegal size) {p k : Nat} (hk : p + k ≤ walkLength size) :
    (Cursor.advance size)^[k] (cursorAt size p) = cursorAt size (p + k) := by
  induction k with
  | zero => rfl
  | succ k ih => rw [Function.iterate_succ_apply', ih (by omega), advance_cursorAt h (by omega), Nat.add_assoc]

/-- A legal cursor stands at a position of the visiting order. -/
theorem Cursor.legal_position {size : Nat} (h : SizeLegal size) {c : Cursor} (hc : c.legal size) :
    ∃ p ≤ walkLength size, c = cursorAt size p := by
  rcases hc with rfl | ⟨hr, q, hq, hcol, hdir⟩
  · exact ⟨walkLength size, Nat.le_refl _, by rw [cursorAt, if_neg (Nat.lt_irrefl _)]⟩
  · obtain ⟨row, col, dir, onLeft⟩ := c
    simp only at hr hcol hdir
    subst hdir
    have hb : onLeft.toNat ≤ 1 := Bool.toNat_le onLeft
    obtain ⟨k, hk⟩ : ∃ k, k = if q % 2 = 0 then size - 1 - row.toNat else row.toNat := ⟨_, rfl⟩
    have hks : k < size := by rw [hk]; split <;> omega
    have hrow : row.toNat = if q % 2 = 0 then size - 1 - k else k := by rw [hk]; split <;> omega
    obtain ⟨p, hp⟩ : ∃ p, p = 2 * size * q + 2 * k + onLeft.toNat := ⟨_, rfl⟩
    have hdiv : p / (2 * size) = q ∧ p % (2 * size) / 2 = k ∧ p % 2 = onLeft.toNat := by
      rw [hp]; rcases h with rfl | rfl | rfl | rfl | rfl <;> omega
    have hlt : p < walkLength size := by
      rw [hp, walkLength]; rcases h with rfl | rfl | rfl | rfl | rfl <;> omega
    refine ⟨p, Nat.le_of_lt hlt, ?_⟩
    rw [cursorAt, if_pos hlt, walkRow, walkCol, hdiv.1, hdiv.2.1, hdiv.2.2, ← hrow, ← hcol]
    cases onLeft <;> simp

theorem cursorAt_legal {size p : Nat} (h : SizeLegal size) : (cursorAt size p).legal size := by
  by_cases hp : p < walkLength size
  · right
    have h1 := cursorAt_row h hp
    have h2 := cursorAt_col h hp
    refine ⟨by rw [h1]; exact walkRow_lt h, p / (2 * size), ?_, ?_, ?_⟩
    · rcases h with rfl | rfl | rfl | rfl | rfl <;> (norm_num [walkLength] at hp; omega)
    · rw [h2, walkCol, cursorAt, if_pos hp]
      rcases Nat.mod_two_eq_zero_or_one p with h0 | h0 <;> simp [h0]
    · rw [cursorAt, if_pos hp]
  · left; rw [cursorAt, if_neg hp]

end Sys2Proof.Machine
end

