-- ==== Sys2Proof/Laws/Matrix.lean ====
section
/-! SUPPORT. qr_matrix_builder: the cells of each list of stamps, and what each step leaves in a cell. -/

namespace Sys2Proof.Machine

/-! ### The lists of stamps -/

theorem mem_squareStamps {n r0 c0 r c : Nat} {dark : Nat → Nat → Bool} {v : Bool} :
    ((r, c), v) ∈ squareStamps n r0 c0 dark ↔
      r0 ≤ r ∧ r < r0 + n ∧ c0 ≤ c ∧ c < c0 + n ∧ v = dark (r - r0) (c - c0) := by
  simp only [squareStamps, List.mem_flatMap, List.mem_map, List.mem_range, Prod.mk.injEq]
  constructor
  · rintro ⟨i, hi, j, hj, ⟨rfl, rfl⟩, rfl⟩
    exact ⟨by omega, by omega, by omega, by omega, by simp only [Nat.add_sub_cancel_left]⟩
  · rintro ⟨h1, h2, h3, h4, rfl⟩
    exact ⟨r - r0, by omega, c - c0, by omega, ⟨by omega, by omega⟩, rfl⟩

theorem mem_separatorStamps {size r c : Nat} {v : Bool} :
    ((r, c), v) ∈ separatorStamps size ↔
      v = false ∧ ((r = 7 ∧ c < 8) ∨ (c = 7 ∧ r < 8) ∨ (r = 7 ∧ size - 8 ≤ c ∧ c < size - 8 + 8) ∨ (c = size - 8 ∧ r < 8) ∨
        (r = size - 8 ∧ c < 8) ∨ (c = 7 ∧ size - 8 ≤ r ∧ r < size - 8 + 8)) := by
  simp only [separatorStamps, List.mem_flatMap, List.mem_range, List.mem_cons, List.not_mem_nil, or_false, Prod.mk.injEq]
  constructor
  · rintro ⟨k, hk, h⟩
    rcases h with ⟨⟨rfl, rfl⟩, rfl⟩ | ⟨⟨rfl, rfl⟩, rfl⟩ | ⟨⟨rfl, rfl⟩, rfl⟩ | ⟨⟨rfl, rfl⟩, rfl⟩ | ⟨⟨rfl, rfl⟩, rfl⟩ |
      ⟨⟨rfl, rfl⟩, rfl⟩ <;> exact ⟨rfl, by omega⟩
  · rintro ⟨rfl, h⟩
    rcases h with h | h | h | h | h | h
    · exact ⟨c, h.2, by simp [h.1]⟩
    · exact ⟨r, h.2, by simp [h.1]⟩
    · exact ⟨c - (size - 8), by omega, by simp [h.1]; omega⟩
    · exact ⟨r, h.2, by simp [h.1]⟩
    · exact ⟨c, h.2, by simp [h.1]⟩
    · exact ⟨r - (size - 8), by omega, by simp [h.1]; omega⟩

theorem mem_timingStamps {size r c : Nat} {v : Bool} :
    ((r, c), v) ∈ timingStamps size ↔
      (r = 6 ∧ 8 ≤ c ∧ c < 8 + (size - 16) ∧ v = decide (c % 2 = 0)) ∨
      (c = 6 ∧ 8 ≤ r ∧ r < 8 + (size - 16) ∧ v = decide (r % 2 = 0)) := by
  simp only [timingStamps, List.mem_flatMap, List.mem_range, List.mem_cons, List.not_mem_nil, or_false, Prod.mk.injEq]
  constructor
  · rintro ⟨k, hk, ⟨⟨rfl, rfl⟩, rfl⟩ | ⟨⟨rfl, rfl⟩, rfl⟩⟩
    · exact .inl ⟨rfl, by omega, by omega, rfl⟩
    · exact .inr ⟨rfl, by omega, by omega, rfl⟩
  · rintro (⟨rfl, h1, h2, rfl⟩ | ⟨rfl, h1, h2, rfl⟩)
    · exact ⟨c - 8, by omega, .inl ⟨⟨rfl, by omega⟩, by rw [Nat.add_sub_cancel' h1]⟩⟩
    · exact ⟨r - 8, by omega, .inr ⟨⟨by omega, rfl⟩, by rw [Nat.add_sub_cancel' h1]⟩⟩

theorem mem_bandCells {size r c : Nat} :
    (r, c) ∈ bandCells size ↔ (r = 8 ∧ c < 9) ∨ (c = 8 ∧ r < 8) ∨ (r = 8 ∧ size - 8 ≤ c ∧ c < size - 8 + 8) ∨
      (c = 8 ∧ size - 8 ≤ r ∧ r < size - 8 + 8) := by
  simp only [bandCells, List.mem_append, List.mem_map, List.mem_range, Prod.mk.injEq]
  constructor
  · rintro (((⟨k, hk, h⟩ | ⟨k, hk, h⟩) | ⟨k, hk, h⟩) | ⟨k, hk, h⟩) <;> omega
  · rintro (h | h | h | h)
    · exact .inl (.inl (.inl ⟨c, h.2, h.1.symm, rfl⟩))
    · exact .inl (.inl (.inr ⟨r, h.2, rfl, h.1.symm⟩))
    · exact .inl (.inr ⟨c - (size - 8), by omega, h.1.symm, by omega⟩)
    · exact .inr ⟨r - (size - 8), by omega, by omega, h.1.symm⟩

/-! ### The lists of stamps and the reference -/

theorem distance_natAbs {a b c : Nat} (h : c ≤ a) : distance (a - c) b = ((a : Int) - c - b).natAbs := by
  unfold distance; omega

theorem finderSquare_iff {r0 c0 r c : Nat} {v : Bool} :
    Reference.finderSquare r0 c0 r c = some v ↔ ((r, c), v) ∈ squareStamps 7 r0 c0 finderDark := by
  rw [mem_squareStamps, Reference.finderSquare]
  split
  · next h =>
    rw [finderDark, distance_natAbs h.1, distance_natAbs h.2.2.1]
    simp only [Option.some.injEq]
    exact ⟨fun hv => ⟨h.1, by omega, h.2.2.1, by omega, hv.symm⟩, fun hv => hv.2.2.2.2.symm⟩
  · next h => simp; omega

theorem finderAt_iff {size r c : Nat} {v : Bool} (hs : 14 ≤ size) :
    Reference.finderAt size r c = some v ↔ ((r, c), v) ∈ finderStamps size := by
  have hn : ∀ r0 c0, Reference.finderSquare r0 c0 r c = none ↔ ¬(r0 ≤ r ∧ r ≤ r0 + 6 ∧ c0 ≤ c ∧ c ≤ c0 + 6) := by
    intro r0 c0; unfold Reference.finderSquare; split <;> simp_all
  simp only [Reference.finderAt, Option.or_eq_some_iff, finderSquare_iff, hn, finderStamps, List.mem_append,
    mem_squareStamps]
  constructor
  · rintro (h | ⟨-, h | ⟨-, h⟩⟩)
    · exact .inl (.inl h)
    · exact .inl (.inr h)
    · exact .inr h
  · rintro ((h | h) | h)
    · exact .inl h
    · exact .inr ⟨by omega, .inl h⟩
    · exact .inr ⟨by omega, .inr ⟨by omega, h⟩⟩

theorem separatorAt_iff {size r c : Nat} {v : Bool} (hs : 8 ≤ size) :
    Reference.separatorAt size r c = some v ↔ ((r, c), v) ∈ separatorStamps size := by
  rw [mem_separatorStamps, Reference.separatorAt]
  split
  · simp [eq_comm]; intro; omega
  · simp; intro; omega

theorem alignAt_iff {a r c : Nat} {v : Bool} (ha : a = 0 ∨ 2 ≤ a) :
    Reference.alignAt a r c = some v ↔ ((r, c), v) ∈ alignStamps a := by
  unfold alignStamps Reference.alignAt
  by_cases h0 : a = 0
  · simp [h0]
  · rw [if_neg h0, mem_squareStamps]
    split
    · next h =>
      have e1 : distance (r - (a - 2)) 2 = ((r : Int) - a).natAbs := by unfold distance; omega
      have e2 : distance (c - (a - 2)) 2 = ((c : Int) - a).natAbs := by unfold distance; omega
      rw [alignDark, e1, e2]
      simp only [Option.some.injEq]
      exact ⟨fun hv => ⟨by omega, by omega, by omega, by omega, hv.symm⟩, fun hv => hv.2.2.2.2.symm⟩
    · next h => simp; omega

theorem timingAt_iff {size r c : Nat} {v : Bool} (hs : 17 ≤ size) :
    Reference.timingAt size r c = some v ↔ ((r, c), v) ∈ timingStamps size := by
  rw [mem_timingStamps, Reference.timingAt]
  by_cases h1 : r = 6 ∧ 8 ≤ c ∧ c ≤ size - 9
  · rw [if_pos h1, Option.some.injEq]
    exact ⟨fun hv => .inl ⟨h1.1, h1.2.1, by omega, hv.symm⟩, fun h => h.elim (fun h => h.2.2.2.symm) fun h => by omega⟩
  · rw [if_neg h1]
    by_cases h2 : c = 6 ∧ 8 ≤ r ∧ r ≤ size - 9
    · rw [if_pos h2, Option.some.injEq]
      exact ⟨fun hv => .inr ⟨h2.1, h2.2.1, by omega, hv.symm⟩, fun h => h.elim (fun h => by omega) fun h => h.2.2.2.symm⟩
    · rw [if_neg h2]; simp; omega

theorem inBand_iff {size r c : Nat} (hs : 9 ≤ size) :
    Reference.inBand size r c = true ↔ (r, c) ∈ bandCells size ∧ r < size ∧ c < size := by
  rw [mem_bandCells, Reference.inBand, decide_eq_true_iff]; omega

theorem formatBitAt_lt {size r c j : Nat} (hs : 17 ≤ size) (h : Reference.formatBitAt size r c = some j) :
    j < 15 ∧ r < size ∧ c < size := by
  unfold Reference.formatBitAt at h
  split_ifs at h <;> simp only [Option.some.injEq] at h <;> omega

theorem formatCell_iff {size r c j : Nat} (hs : 17 ≤ size) (hj : j < 15) :
    (formatCell1 j = (r, c) ∨ formatCell2 size j = (r, c)) ↔ Reference.formatBitAt size r c = some j := by
  have e1 : formatCell1 j = (r, c) ↔ (j ≤ 5 ∧ r = j ∧ c = 8) ∨ (j = 6 ∧ r = 7 ∧ c = 8) ∨ (j = 7 ∧ r = 8 ∧ c = 8) ∨
      (j = 8 ∧ r = 8 ∧ c = 7) ∨ (9 ≤ j ∧ r = 8 ∧ c = 14 - j) := by
    unfold formatCell1; split_ifs <;> simp only [Prod.mk.injEq] <;> omega
  have e2 : formatCell2 size j = (r, c) ↔ (j ≤ 7 ∧ r = 8 ∧ c = size - 1 - j) ∨ (8 ≤ j ∧ r = size - 15 + j ∧ c = 8) := by
    unfold formatCell2; split_ifs <;> simp only [Prod.mk.injEq] <;> omega
  rw [e1, e2]
  constructor
  · intro h
    unfold Reference.formatBitAt
    rcases h with (h | h | h | h | h) | h | h
    · rw [if_pos ⟨h.2.2, by omega⟩, h.2.1]
    · rw [if_neg (by omega), if_pos ⟨h.2.2, h.2.1⟩, h.1]
    · rw [if_neg (by omega), if_neg (by omega), if_pos ⟨h.2.2, h.2.1⟩, h.1]
    · rw [if_neg (by omega), if_neg (by omega), if_neg (by omega), if_pos h.2, h.1]
    · rw [if_neg (by omega), if_neg (by omega), if_neg (by omega), if_neg (by omega), if_pos ⟨h.2.1, by omega⟩]
      congr 1; omega
    · rw [if_neg (by omega), if_neg (by omega), if_neg (by omega), if_neg (by omega), if_neg (by omega),
        if_pos ⟨h.2.1, by omega, by omega⟩]
      congr 1; omega
    · rw [if_neg (by omega), if_neg (by omega), if_neg (by omega), if_neg (by omega), if_neg (by omega),
        if_neg (by omega), if_pos ⟨h.2.2, by omega, by omega⟩]
      congr 1; omega
  · intro h
    unfold Reference.formatBitAt at h
    split_ifs at h with h1 h2 h3 h4 h5 h6 h7 <;> rw [Option.some.injEq] at h
    · exact .inl (.inl ⟨by omega, h, h1.1⟩)
    · exact .inl (.inr (.inl ⟨h.symm, h2.2, h2.1⟩))
    · exact .inl (.inr (.inr (.inl ⟨h.symm, h3.2, h3.1⟩)))
    · exact .inl (.inr (.inr (.inr (.inl ⟨h.symm, h4⟩))))
    · exact .inl (.inr (.inr (.inr (.inr ⟨by omega, h5.1, by omega⟩))))
    · exact .inr (.inl ⟨by omega, h6.1, by omega⟩)
    · exact .inr (.inr ⟨by omega, by omega, h7.1⟩)

/-- A matrix of legal geometry: its size is one of the five, and its other registers are those of R44. -/
theorem geometry_of_matrix {s : State} (hg : geometryLegal s) (hm : hasMatrix s) :
    SizeLegal s.size ∧ 1 ≤ s.mtxVersion.toNat ∧ s.mtxVersion.toNat ≤ 5 ∧ s.size = 21 + 4 * (s.mtxVersion.toNat - 1) ∧
      (s.mtxAlign.toNat = 0 ∨ 2 ≤ s.mtxAlign.toNat ∧ s.mtxAlign.toNat + 3 ≤ s.size) ∧ s.cursor.legal s.size := by
  rcases hg with h | ⟨h1, h2, h3, h4, h5⟩
  · exact absurd h.2.1 hm
  · refine ⟨by unfold SizeLegal; omega, h1, h2, h3, ?_, h5⟩
    rcases h4 with h4 | h4
    · left; rw [h4]; rfl
    · right; omega

/-! ### Cells after a step -/

/-- Stamps that say for each cell of the symbol what `f` says leave `f` in the cells. -/
theorem cell_stamped (s : State) {l : List ((Nat × Nat) × Bool)} {f : Nat → Nat → Option Bool}
    (hl : ∀ r c v, ((r, c), v) ∈ l ↔ f r c = some v) (hin : ∀ r c v, f r c = some v → r < s.size ∧ c < s.size) (r c : Nat) :
    (s.stamped l).cell r c = stampedCell (f r c) (s.cell r c) := by
  show Grid.get s.size (stampAll s.size l s.matrix) r c = _
  cases hf : f r c with
  | none => exact Grid.get_stampAll_other s.size_le l _ fun v hv => by rw [hl, hf] at hv; exact absurd hv (by simp)
  | some v =>
    obtain ⟨hr, hc⟩ := hin r c v hf
    rw [Grid.get_stampAll_same s.size_le l _ hr hc ((hl r c v).mpr hf) fun w hw => by
      rw [hl, hf] at hw; exact (Option.some.inj hw).symm]
    rfl

/-- Reserving twice is reserving once (44_matrix.md R192). -/
theorem reserveModule_eq (m : QrModule) : reserveModule m = { m with taken := true } := by
  obtain ⟨v, t, d⟩ := m; cases t <;> rfl

theorem Grid.get_updateAll_idem {size : Nat} (hs : size ≤ 64) {f : QrModule → QrModule} (hf : ∀ m, f (f m) = f m)
    (l : List (Nat × Nat)) (g : Grid) {r c : Nat} (hr : r < size) (hc : c < size) (h : (r, c) ∈ l) :
    Grid.get size (updateAll size (fun _ => f) l g) r c = f (Grid.get size g r c) := by
  induction l generalizing g with
  | nil => simp at h
  | cons cell rest ih =>
    rw [updateAll]
    by_cases hm : (r, c) ∈ rest
    · rw [ih _ hm]
      by_cases he : (r, c) = cell
      · subst he; rw [Grid.get_update_same _ _ _ _ hr hc, hf]
      · rw [Grid.get_update_other hs _ _ he]
    · rw [Grid.get_updateAll_other hs _ _ _ hm]
      obtain rfl : (r, c) = cell := by simpa [hm] using h
      rw [Grid.get_update_same _ _ _ _ hr hc]

theorem cell_mtxReserve (s : State) (r c : Nat) :
    (mtxReserve s).cell r c = if (r, c) ∈ bandCells s.size ∧ r < s.size ∧ c < s.size then { s.cell r c with taken := true }
      else s.cell r c := by
  show Grid.get s.size (updateAll s.size (fun _ => reserveModule) (bandCells s.size) s.matrix) r c = _
  split
  · next h =>
    rw [Grid.get_updateAll_idem s.size_le (fun m => by simp [reserveModule_eq]) _ _ h.2.1 h.2.2 h.1, reserveModule_eq]; rfl
  · next h =>
    by_cases hin : r < s.size ∧ c < s.size
    · exact Grid.get_updateAll_other s.size_le _ _ _ fun hm => h ⟨hm, hin⟩
    · rw [Grid.get_outside _ hin, State.cell, Grid.get_outside _ hin]

theorem cell_mtxMask (s : State) (r c : Nat) :
    (mtxMask s).cell r c = if r < s.size ∧ c < s.size then maskModule (r, c) (s.cell r c) else QrModule.zero :=
  Grid.get_mask s.size_le _ r c

/-- Writing format bits changes the value of the cells of those bits, and nothing else (44_matrix.md R204). -/
theorem get_writeFormat {size : Nat} (hs : size ≤ 64) (format : BitVec 18) {f : Nat → Nat → Option Nat} (n i : Nat) (g : Grid)
    {r c : Nat} (hr : r < size) (hc : c < size)
    (h : ∀ j, i ≤ j → j < i + n → (formatCell1 j = (r, c) ∨ formatCell2 size j = (r, c) ↔ f r c = some j)) :
    Grid.get size (writeFormat size format n i g) r c =
      match f r c with
      | none => Grid.get size g r c
      | some j => if i ≤ j ∧ j < i + n then { Grid.get size g r c with value := format.getLsbD j } else Grid.get size g r c := by
  induction n generalizing i g with
  | zero => rw [writeFormat]; split <;> simp
  | succ n ih =>
    rw [writeFormat, ih (i + 1) _ fun j h1 h2 => h j (by omega) (by omega)]
    have hi := h i (Nat.le_refl _) (by omega)
    have hboth : Grid.get size (Grid.update size (Grid.update size g (formatCell1 i) (formatModule (format.getLsbD i)))
        (formatCell2 size i) (formatModule (format.getLsbD i))) r c =
        if f r c = some i then { Grid.get size g r c with value := format.getLsbD i } else Grid.get size g r c := by
      have one : ∀ (g : Grid) (cell : Nat × Nat), Grid.get size (Grid.update size g cell (formatModule (format.getLsbD i))) r c =
          if cell = (r, c) then { Grid.get size g r c with value := format.getLsbD i } else Grid.get size g r c := by
        intro g cell
        split
        · next he => subst he; rw [Grid.get_update_same _ _ _ _ hr hc]; rfl
        · next he => exact Grid.get_update_other hs _ _ fun h => he h.symm
      rw [one, one]
      by_cases h1 : formatCell1 i = (r, c) <;> by_cases h2 : formatCell2 size i = (r, c) <;> simp [h1, h2] at hi <;> simp [h1, h2, hi]
    simp only [hboth]
    cases hf : f r c with
    | none => simp
    | some j =>
      simp only [Option.some.injEq]
      by_cases hj : j = i
      · subst hj; simp
      · simp only [hj, if_false]
        by_cases hj2 : i + 1 ≤ j ∧ j < i + 1 + n
        · rw [if_pos hj2, if_pos (by omega)]
        · rw [if_neg hj2, if_neg (by omega)]

end Sys2Proof.Machine
end

