-- ==== Sys2Proof/Laws/PerInstr.lean ====
section
/-! SUPPORT. For every command: decoding its word gives it back. -/

namespace Sys2Proof.Laws.RoundTrip

/-- Decoding the word of a command gives the command, with every operand at every value of its field. -/
def Statement (i : Instr) : Prop := decode (encode i) = .ok i

theorem gfBuild : Statement Instr.gfBuild := by
  simp [Statement, encode, decode, formatN, acceptIf]

theorem gfExp (e : Byte) : Statement (Instr.gfExp e) := by
  simp [Statement, encode, decode, formatR1, acceptIf]

theorem gfLog (v : Byte) : Statement (Instr.gfLog v) := by
  simp [Statement, encode, decode, formatR1, acceptIf]

theorem gfExpadd (a b : Byte) : Statement (Instr.gfExpadd a b) := by
  simp [Statement, encode, decode, formatR2, acceptIf]

theorem rsGenpoly (ecCount : Byte) : Statement (Instr.rsGenpoly ecCount) := by
  simp [Statement, encode, decode, formatR1, acceptIf]

theorem rsGenerate (ecCount : Byte) (msgLen : BitVec 16) : Statement (Instr.rsGenerate ecCount msgLen) := by
  simp [Statement, encode, decode, formatAI]

theorem fmtGenerate (version ecLevel maskId : Byte) : Statement (Instr.fmtGenerate version ecLevel maskId) := by
  simp [Statement, encode, decode, formatR3]

theorem flavorSelect (len : BitVec 16) : Statement (Instr.flavorSelect len) := by
  simp [Statement, encode, decode, formatI, acceptIf]

theorem msgPack : Statement Instr.msgPack := by
  simp [Statement, encode, decode, formatN, acceptIf]

theorem mtxInit (version alignCenter : Byte) : Statement (Instr.mtxInit version alignCenter) := by
  simp [Statement, encode, decode, formatR2, acceptIf]

theorem mtxFinder : Statement Instr.mtxFinder := by
  simp [Statement, encode, decode, formatN, acceptIf]

theorem mtxSeparator : Statement Instr.mtxSeparator := by
  simp [Statement, encode, decode, formatN, acceptIf]

theorem mtxAlign : Statement Instr.mtxAlign := by
  simp [Statement, encode, decode, formatN, acceptIf]

theorem mtxTiming : Statement Instr.mtxTiming := by
  simp [Statement, encode, decode, formatN, acceptIf]

theorem mtxDark : Statement Instr.mtxDark := by
  simp [Statement, encode, decode, formatN, acceptIf]

theorem mtxReserve : Statement Instr.mtxReserve := by
  simp [Statement, encode, decode, formatN, acceptIf]

theorem mtxPlace (nbits : BitVec 16) : Statement (Instr.mtxPlace nbits) := by
  simp [Statement, encode, decode, formatI, acceptIf]

theorem mtxMask : Statement Instr.mtxMask := by
  simp [Statement, encode, decode, formatN, acceptIf]

theorem mtxFormat : Statement Instr.mtxFormat := by
  simp [Statement, encode, decode, formatN, acceptIf]

theorem mtxBuild : Statement Instr.mtxBuild := by
  simp [Statement, encode, decode, formatN, acceptIf]

theorem encode (len : BitVec 16) : Statement (Instr.encode len) := by
  simp [Statement, Sys2Proof.encode, decode, formatI, acceptIf]

end Sys2Proof.Laws.RoundTrip
end

