-- ==== Sys2Proof/Laws/Placement.lean ====
section
/-! SUPPORT. zig_zag_placement_fsm: what the search for the next free cell answers, and what the loop of `MTX_PLACE`
leaves. Later proofs cite these and do not unfold the loops. -/

namespace Sys2Proof.Machine

/-! ### The search -/

/-- A cell the search answers is free, whatever the state. -/
theorem nextFree_free {size : Nat} {g : Grid} {fuel : Nat} {c c' : Cursor} {cell : Nat × Nat}
    (h : nextFree size g fuel c = (some cell, c')) : (Grid.get size g cell.1 cell.2).taken = false := by
  induction fuel generalizing c with
  | zero => simp [nextFree] at h
  | succ n ih =>
    rw [nextFree] at h
    split at h
    · simp at h
    · split at h
      · exact ih h
      · next hf => simp only [Prod.mk.injEq, Option.some.injEq] at h; rw [← h.1]; simpa using hf

/-- From position `p` the search either finds the first free position, or runs to the end of the walk. -/
theorem nextFree_at {size p fuel : Nat} {g : Grid} (h : SizeLegal size) (hp : p ≤ walkLength size)
    (hf : walkLength size ≤ p + fuel) :
    (∃ q, p ≤ q ∧ q < walkLength size ∧ (Grid.get size g (walkRow size q) (walkCol size q)).taken = false ∧
      (∀ j, p ≤ j → j < q → (Grid.get size g (walkRow size j) (walkCol size j)).taken = true) ∧
      nextFree size g fuel (cursorAt size p) = (some (walkRow size q, walkCol size q), cursorAt size (q + 1))) ∨
    ((∀ j, p ≤ j → j < walkLength size → (Grid.get size g (walkRow size j) (walkCol size j)).taken = true) ∧
      nextFree size g fuel (cursorAt size p) = (none, cursorAt size (walkLength size))) := by
  induction fuel generalizing p with
  | zero =>
    obtain rfl : p = walkLength size := by omega
    exact .inr ⟨fun j h1 h2 => by omega, rfl⟩
  | succ n ih =>
    by_cases hl : p < walkLength size
    · have hx : (cursorAt size p).exhausted = false := by rw [cursorAt_exhausted h]; simpa using hl
      rw [nextFree, hx, cursorAt_row h hl, cursorAt_col h hl, advance_cursorAt h hl]
      simp only [Bool.false_eq_true, if_false]
      cases ht : (Grid.get size g (walkRow size p) (walkCol size p)).taken with
      | false =>
        left
        exact ⟨p, Nat.le_refl _, hl, ht, fun j h1 h2 => by omega, by simp⟩
      | true =>
        simp only [if_true]
        rcases ih (p := p + 1) hl (by omega) with ⟨q, h1, h2, h3, h4, h5⟩ | ⟨h4, h5⟩
        · left
          refine ⟨q, by omega, h2, h3, fun j hj1 hj2 => ?_, h5⟩
          rcases Nat.eq_or_lt_of_le hj1 with rfl | hj
          · exact ht
          · exact h4 j hj hj2
        · right
          refine ⟨fun j hj1 hj2 => ?_, h5⟩
          rcases Nat.eq_or_lt_of_le hj1 with rfl | hj
          · exact ht
          · exact h4 j hj hj2
    · obtain rfl : p = walkLength size := by omega
      right
      refine ⟨fun j h1 h2 => by omega, ?_⟩
      rw [nextFree, cursorAt_exhausted h]; simp

/-! ### The loop -/

/-- One search reaches the end of the walk from every position of it. -/
theorem walkLength_le_walkBound {size : Nat} (h : SizeLegal size) : walkLength size ≤ walkBound :=
  Nat.le_trans (walkLength_le h) (by decide)

/-- The loop stops at once when the stream is used up. -/
theorem placeBits_used {size limit : Nat} {bit : Nat → Bool} {n : Nat} {w : Walk} (h : limit ≤ w.bitpos.toNat) :
    placeBits size limit bit n w = w := by
  cases n with
  | zero => rfl
  | succ n => rw [placeBits, if_pos h]

/-- One turn of the loop at the end of the walk: nothing is placed. -/
theorem placeBits_none {size limit : Nat} {bit : Nat → Bool} {n : Nat} {w : Walk} {c : Cursor}
    (h : ¬limit ≤ w.bitpos.toNat) (hn : nextFree size w.grid walkBound w.cursor = (none, c)) :
    placeBits size limit bit (n + 1) w = { w with cursor := c } := by
  rw [placeBits, if_neg h, hn]

/-- One turn of the loop that finds a free cell. -/
theorem placeBits_some {size limit : Nat} {bit : Nat → Bool} {n : Nat} {w : Walk} {cell : Nat × Nat} {c : Cursor}
    (h : ¬limit ≤ w.bitpos.toNat) (hn : nextFree size w.grid walkBound w.cursor = (some cell, c)) :
    placeBits size limit bit (n + 1) w = placeBits size limit bit n
      ⟨Grid.set size w.grid cell.1 cell.2 ⟨bit w.bitpos.toNat, true, true⟩, c, w.bitpos + 1⟩ := by
  rw [placeBits, if_neg h, hn]

/-- Every cell a placement changes was free and becomes a taken data cell, whatever the state. -/
theorem placeBits_cells {size : Nat} (hs : size ≤ 64) (limit : Nat) (bit : Nat → Bool) (n : Nat) (w : Walk) (r c : Nat) :
    Grid.get size (placeBits size limit bit n w).grid r c = Grid.get size w.grid r c ∨
      ((Grid.get size w.grid r c).taken = false ∧
        ∃ b, Grid.get size (placeBits size limit bit n w).grid r c = ⟨b, true, true⟩) := by
  induction n generalizing w with
  | zero => exact .inl rfl
  | succ n ih =>
    rw [placeBits]
    split
    · exact .inl rfl
    · split
      · exact .inl rfl
      · next cell c' he =>
        have hfree := nextFree_free he
        have hi := ih ⟨Grid.set size w.grid cell.1 cell.2 ⟨bit w.bitpos.toNat, true, true⟩, c', w.bitpos + 1⟩
        by_cases hc : r = cell.1 ∧ c = cell.2
        · obtain ⟨rfl, rfl⟩ := hc
          by_cases hin : cell.1 < size ∧ cell.2 < size
          · rw [Grid.get_set_same _ _ hin.1 hin.2] at hi
            rcases hi with hi | hi
            · exact .inr ⟨hfree, _, hi⟩
            · simp at hi
          · left; rw [Grid.get_outside _ hin, Grid.get_outside _ hin]
        · rw [Grid.get_set_other hs _ _ hc] at hi
          exact hi

theorem wf_placeBits {size : Nat} (hs : size ≤ 64) (limit : Nat) (bit : Nat → Bool) (n : Nat) (w : Walk)
    (h : Grid.wf size w.grid = true) : Grid.wf size (placeBits size limit bit n w).grid = true := by
  induction n generalizing w with
  | zero => exact h
  | succ n ih =>
    rw [placeBits]
    split
    · exact h
    · split
      · exact h
      · exact ih _ (Grid.wf_set hs _ _ _ h)

/-- The stream position only grows, and not beyond the stream. -/
theorem placeBits_bitpos {size limit : Nat} (hl : limit < 8192) (bit : Nat → Bool) (n : Nat) (w : Walk) :
    w.bitpos.toNat ≤ (placeBits size limit bit n w).bitpos.toNat ∧
      ((placeBits size limit bit n w).bitpos = w.bitpos ∨ (placeBits size limit bit n w).bitpos.toNat ≤ limit) := by
  induction n generalizing w with
  | zero => exact ⟨Nat.le_refl _, .inl rfl⟩
  | succ n ih =>
    rw [placeBits]
    split
    · exact ⟨Nat.le_refl _, .inl rfl⟩
    · next hlt =>
      split
      · exact ⟨Nat.le_refl _, .inl rfl⟩
      · next cell c' he =>
        have h1 : (w.bitpos + 1).toNat = w.bitpos.toNat + 1 := by
          rw [BitVec.toNat_add]; simp; omega
        obtain ⟨hi1, hi2⟩ := ih ⟨Grid.set size w.grid cell.1 cell.2 ⟨bit w.bitpos.toNat, true, true⟩, c', w.bitpos + 1⟩
        simp only [h1] at hi1 hi2
        refine ⟨by omega, .inr ?_⟩
        rcases hi2 with hi2 | hi2
        · rw [hi2, h1]; omega
        · exact hi2

/-- Two placements in a row are one of the sum, from every position of the walk. -/
theorem placeBits_add {size p : Nat} (h : SizeLegal size) (hp : p ≤ walkLength size) (limit : Nat) (bit : Nat → Bool)
    (m n : Nat) (w : Walk) (hw : w.cursor = cursorAt size p) :
    placeBits size limit bit n (placeBits size limit bit m w) = placeBits size limit bit (m + n) w := by
  induction m generalizing w p with
  | zero => rw [Nat.zero_add, placeBits]
  | succ m ih =>
    by_cases hu : limit ≤ w.bitpos.toNat
    · rw [placeBits_used hu, placeBits_used hu, placeBits_used hu]
    · have hwb : walkLength size ≤ p + walkBound := Nat.le_trans (walkLength_le_walkBound h) (Nat.le_add_left ..)
      rw [Nat.add_right_comm]
      rcases nextFree_at (g := w.grid) h hp hwb with ⟨q, -, h2, -, -, h5⟩ | ⟨-, h5⟩
      · rw [← hw] at h5
        rw [placeBits_some hu h5, placeBits_some hu h5, ih (p := q + 1) h2 _ rfl]
      · rw [← hw] at h5
        rw [placeBits_none hu h5, placeBits_none hu h5]
        cases n with
        | zero => rw [placeBits]
        | succ n =>
          rcases nextFree_at (g := w.grid) h (Nat.le_refl (walkLength size)) (Nat.le_add_right _ walkBound)
            with ⟨q, h1, h2, -⟩ | ⟨-, h6⟩
          · omega
          · exact placeBits_none (w := ⟨w.grid, cursorAt size (walkLength size), w.bitpos⟩) hu h6

/-- What the loop leaves, from position `p` of the walk (44_matrix.md R197). -/
theorem placeBits_walk {size p : Nat} (h : SizeLegal size) (hp : p ≤ walkLength size) {limit : Nat} (hl : limit < 8192)
    (bit : Nat → Bool) (n : Nat) (w : Walk) (hw : w.cursor = cursorAt size p) {free : List (Nat × Nat)}
    (hfree : free = ((Reference.visitOrder size).drop p).filter fun cell => !(Grid.get size w.grid cell.1 cell.2).taken)
    {wanted k : Nat} (hwanted : wanted = min n (limit - w.bitpos.toNat)) (hk : k = min wanted free.length) :
    (placeBits size limit bit n w).bitpos.toNat = w.bitpos.toNat + k ∧
    (∀ i, i < k → Grid.get size (placeBits size limit bit n w).grid (free.getD i (0, 0)).1 (free.getD i (0, 0)).2 =
      ⟨bit (w.bitpos.toNat + i), true, true⟩) ∧
    (∀ r c, (r, c) ∉ free.take k →
      Grid.get size (placeBits size limit bit n w).grid r c = Grid.get size w.grid r c) ∧
    ∃ q ≤ walkLength size, (placeBits size limit bit n w).cursor = cursorAt size q ∧
      if k < wanted then q = walkLength size
      else if k = 0 then q = p
      else 0 < q ∧ (Reference.visitOrder size)[q - 1]? = free[k - 1]? := by
  induction n generalizing w p free wanted k with
  | zero =>
    obtain rfl : wanted = 0 := by omega
    obtain rfl : k = 0 := by omega
    exact ⟨rfl, fun i hi => by omega, fun _ _ _ => rfl, p, hp, hw, by simp⟩
  | succ n ih =>
    by_cases hu : limit ≤ w.bitpos.toNat
    · rw [placeBits_used hu]
      obtain rfl : wanted = 0 := by omega
      obtain rfl : k = 0 := by omega
      exact ⟨rfl, fun i hi => by omega, fun _ _ _ => rfl, p, hp, hw, by simp⟩
    · have hwb : walkLength size ≤ p + walkBound := Nat.le_trans (walkLength_le_walkBound h) (Nat.le_add_left ..)
      rcases nextFree_at (g := w.grid) h hp hwb with ⟨q, h1, h2, h3, h4, h5⟩ | ⟨h4, h5⟩
      · rw [← hw] at h5
        rw [placeBits_some hu h5]
        have hd : (Reference.visitOrder size).drop q = (walkRow size q, walkCol size q) :: (Reference.visitOrder size).drop (q + 1) := by
          have hg := visitOrder_getElem? h h2
          rw [List.getElem?_eq_some_iff] at hg
          rw [List.drop_eq_getElem_cons hg.1, hg.2]
        have hskip : ((Reference.visitOrder size).drop p).filter (fun cell => !(Grid.get size w.grid cell.1 cell.2).taken) =
            ((Reference.visitOrder size).drop q).filter (fun cell => !(Grid.get size w.grid cell.1 cell.2).taken) := by
          rw [← List.take_append_drop (q - p) ((Reference.visitOrder size).drop p), List.filter_append, List.drop_drop,
            Nat.add_sub_cancel' h1, List.filter_eq_nil_iff.mpr, List.nil_append]
          intro cell hm
          obtain ⟨i, hi, rfl⟩ := List.mem_iff_getElem.mp hm
          rw [List.length_take, List.length_drop, visitOrder_length h] at hi
          have hg := visitOrder_getElem? (p := p + i) h (by omega)
          rw [List.getElem?_eq_some_iff] at hg
          rw [List.getElem_take, List.getElem_drop, hg.2]
          simp [h4 (p + i) (by omega) (by omega)]
        have hnodup := visitOrder_nodup h
        rw [← List.take_append_drop q (Reference.visitOrder size), hd] at hnodup
        have hnotin : (walkRow size q, walkCol size q) ∉ (Reference.visitOrder size).drop (q + 1) :=
          (List.nodup_cons.mp (List.nodup_append.mp hnodup).2.1).1
        obtain ⟨g', hg'⟩ : ∃ g', g' = Grid.set size w.grid (walkRow size q) (walkCol size q) ⟨bit w.bitpos.toNat, true, true⟩ :=
          ⟨_, rfl⟩
        have hs : size ≤ 64 := by rcases h with rfl | rfl | rfl | rfl | rfl <;> omega
        have hother : ∀ r c, (r, c) ≠ (walkRow size q, walkCol size q) → Grid.get size g' r c = Grid.get size w.grid r c :=
          fun r c hne => by rw [hg', Grid.get_set_other hs]; rintro ⟨rfl, rfl⟩; exact hne rfl
        have hsame : Grid.get size g' (walkRow size q) (walkCol size q) = ⟨bit w.bitpos.toNat, true, true⟩ := by
          rw [hg', Grid.get_set_same _ _ (walkRow_lt h) (walkCol_lt h)]
        obtain ⟨free', hfree'⟩ : ∃ free', free' =
            ((Reference.visitOrder size).drop (q + 1)).filter fun cell => !(Grid.get size g' cell.1 cell.2).taken := ⟨_, rfl⟩
        have hcons : free = (walkRow size q, walkCol size q) :: free' := by
          rw [hfree, hskip, hd, List.filter_cons_of_pos (by simp [h3]), hfree']
          congr 1
          refine List.filter_congr fun cell hm => ?_
          rw [hother cell.1 cell.2 fun he => hnotin (he ▸ hm)]
        have hone : (w.bitpos + 1).toNat = w.bitpos.toNat + 1 := by rw [BitVec.toNat_add]; simp; omega
        obtain ⟨i1, i2, i3, r, hr, i4, i5⟩ := ih (p := q + 1) h2 ⟨g', cursorAt size (q + 1), w.bitpos + 1⟩ rfl hfree'
          (wanted := wanted - 1) (k := k - 1) (by simp only [hone]; omega) (by rw [hcons] at hk; simp at hk; omega)
        have hk1 : k = (k - 1) + 1 := by rw [hcons] at hk; simp at hk; omega
        simp only [hone] at i1 i2 i3
        simp only [← hg']
        refine ⟨by rw [i1]; omega, ?_, ?_, r, hr, i4, ?_⟩
        · intro i hi
          rw [hcons]
          cases i with
          | zero =>
            simp only [List.getD_cons_zero, Nat.add_zero]
            rw [i3 _ _ fun hm => hnotin (List.mem_of_mem_filter (hfree' ▸ List.mem_of_mem_take hm)), hsame]
          | succ i =>
            simp only [List.getD_cons_succ]
            rw [i2 i (by omega), Nat.add_right_comm, Nat.add_assoc]
        · intro r c hm
          rw [hcons, hk1, List.take_succ_cons, List.mem_cons, not_or] at hm
          rw [i3 r c hm.2, hother r c hm.1]
        · have hw1 : 0 < wanted := by omega
          rw [if_neg (by omega : ¬k = 0)]
          by_cases hlt : k < wanted
          · rw [if_pos hlt]; rwa [if_pos (by omega)] at i5
          · rw [if_neg hlt]
            rw [if_neg (by omega)] at i5
            by_cases h0 : k - 1 = 0
            · rw [if_pos h0] at i5
              subst i5
              refine ⟨by omega, ?_⟩
              rw [Nat.add_sub_cancel, visitOrder_getElem? h h2, hcons, h0]
              rfl
            · rw [if_neg h0] at i5
              refine ⟨i5.1, ?_⟩
              rw [i5.2, hcons, ← List.getElem?_cons_succ (a := (walkRow size q, walkCol size q))]
              congr 1; omega
      · rw [← hw] at h5
        rw [placeBits_none hu h5]
        have hnil : free = [] := by
          rw [hfree, List.filter_eq_nil_iff]
          intro cell hm
          obtain ⟨i, hi, rfl⟩ := List.mem_iff_getElem.mp hm
          rw [List.length_drop, visitOrder_length h] at hi
          have hg := visitOrder_getElem? (p := p + i) h (by omega)
          rw [List.getElem?_eq_some_iff] at hg
          rw [List.getElem_drop, hg.2]
          simp [h4 (p + i) (by omega) (by omega)]
        subst hnil
        obtain rfl : k = 0 := by simpa using hk
        exact ⟨rfl, fun i hi => by omega, fun _ _ _ => rfl, walkLength size, Nat.le_refl _, rfl, by rw [if_pos]; omega⟩

/-- The walk `MTX_PLACE` runs from a state (44_matrix.md R197). -/
def State.walked (s : State) (n : Nat) : Walk :=
  placeBits s.size (8 * s.cwTotalLen.toNat) s.streamBit n ⟨s.matrix, s.cursor, s.bitpos⟩

theorem mtxPlace_eq (n : Nat) (s : State) :
    mtxPlace n s = { s with matrix := (s.walked n).grid, cursor := (s.walked n).cursor, bitpos := (s.walked n).bitpos } := rfl

theorem mtxPlace_mtxPlace {s : State} {p : Nat} (h : SizeLegal s.size) (hp : p ≤ walkLength s.size)
    (hc : s.cursor = cursorAt s.size p) (m n : Nat) : mtxPlace n (mtxPlace m s) = mtxPlace (m + n) s := by
  have h2 : (mtxPlace m s).walked n = s.walked (m + n) :=
    placeBits_add h hp (8 * s.cwTotalLen.toNat) s.streamBit m n ⟨s.matrix, s.cursor, s.bitpos⟩ hc
  rw [mtxPlace_eq n, h2]; rfl

end Sys2Proof.Machine
end

