-- ==== Sys2Proof/Laws/Polynomials.lean ====
section
/-! SUPPORT. Polynomials over GF(256) as lists of coefficients, highest degree first: evaluation, the product of the roots,
and that no coefficient of that product is zero (41_rs.md R122 (a)). -/

namespace Sys2Proof.Reference

/-! ### Evaluation -/

theorem xor_cancel {a b : Byte} : a ^^^ (a ^^^ b) = b := by rw [← BitVec.xor_assoc, BitVec.xor_self, BitVec.zero_xor]

theorem xor_eq_zero {a b : Byte} : a ^^^ b = 0 ↔ a = b := by
  constructor
  · intro h
    have : a ^^^ (a ^^^ b) = a ^^^ 0 := by rw [h]
    rw [xor_cancel] at this
    simpa using this.symm
  · rintro rfl; exact BitVec.xor_self

theorem xor_left_comm (a b c : Byte) : a ^^^ (b ^^^ c) = b ^^^ (a ^^^ c) := by
  rw [← BitVec.xor_assoc, BitVec.xor_comm a, BitVec.xor_assoc]

/-- x^n. -/
def pow (x : Byte) : Nat → Byte
  | 0 => 1
  | n + 1 => mul x (pow x n)

theorem pow_add (x : Byte) (m n : Nat) : pow x (m + n) = mul (pow x m) (pow x n) := by
  induction m with
  | zero => rw [Nat.zero_add]; exact (one_mul' _).symm
  | succ m ih => rw [Nat.succ_add, pow, ih, pow, mul_assoc']

/-- Evaluation that starts with `acc` in place of 0. -/
theorem foldl_eval (x acc : Byte) (p : List Byte) :
    p.foldl (fun acc c => mul acc x ^^^ c) acc = mul acc (pow x p.length) ^^^ eval x p := by
  induction p generalizing acc with
  | nil =>
    show acc = mul acc 1 ^^^ 0
    rw [show mul acc 1 = acc from mul_one' acc]; simp
  | cons c rest ih =>
    simp only [eval, List.foldl_cons, List.length_cons]
    rw [ih, ih, pow, xor_mul, show mul 0 x = 0 from zero_mul' x]
    simp only [xor_mul, ← mul_assoc', BitVec.xor_assoc]
    simp

theorem eval_nil (x : Byte) : eval x [] = 0 := rfl

theorem eval_cons (x c : Byte) (p : List Byte) : eval x (c :: p) = mul c (pow x p.length) ^^^ eval x p := by
  rw [eval, List.foldl_cons, foldl_eval]
  congr 1
  rw [show mul 0 x = 0 from zero_mul' x]; simp

theorem eval_append (x : Byte) (p q : List Byte) :
    eval x (p ++ q) = mul (eval x p) (pow x q.length) ^^^ eval x q := by
  rw [eval, List.foldl_append, ← eval, foldl_eval]

theorem eval_replicate_zero (x : Byte) (n : Nat) : eval x (List.replicate n 0) = 0 := by
  induction n with
  | zero => rfl
  | succ n ih => rw [List.replicate_succ, eval_cons, ih, show mul 0 _ = 0 from zero_mul' _]; rfl

/-! ### The product of the roots -/

theorem length_timesLinearTail (root prev : Byte) (p : List Byte) :
    (timesLinearTail root prev p).length = p.length + 1 := by
  induction p generalizing prev with
  | nil => rfl
  | cons c rest ih => rw [timesLinearTail, List.length_cons, ih, List.length_cons]

theorem length_rootProduct (n : Nat) : (rootProduct n).length = n + 1 := by
  induction n with
  | zero => rfl
  | succ n ih =>
    rw [rootProduct]
    cases h : rootProduct n with
    | nil => rw [h] at ih; simp at ih
    | cons c rest =>
      rw [h] at ih
      rw [timesLinear, List.length_cons, length_timesLinearTail]; simpa using ih

theorem eval_timesLinearTail (x root prev : Byte) (p : List Byte) :
    eval x (timesLinearTail root prev p) =
      mul (mul prev root) (pow x p.length) ^^^ mul (eval x p) (x ^^^ root) := by
  induction p generalizing prev with
  | nil =>
    rw [timesLinearTail, eval_cons, eval_nil, show mul 0 _ = 0 from zero_mul' _]
  | cons c rest ih =>
    rw [timesLinearTail, eval_cons, ih, length_timesLinearTail, eval_cons]
    simp only [List.length_cons, pow, xor_mul, mul_xor, BitVec.xor_assoc]
    have h1 : mul c (mul x (pow x rest.length)) = mul (mul c (pow x rest.length)) x := by
      rw [mul_comm' x, mul_assoc']
    have h2 : mul (mul c root) (pow x rest.length) = mul (mul c (pow x rest.length)) root := by
      rw [mul_assoc', mul_comm' root, mul_assoc']
    rw [h1, h2]
    generalize mul (mul c (pow x rest.length)) x = A
    generalize mul (mul prev root) (mul x (pow x rest.length)) = B
    generalize mul (mul c (pow x rest.length)) root = C
    ac_rfl

theorem eval_timesLinear (x root : Byte) (p : List Byte) : eval x (timesLinear root p) = mul (eval x p) (x ^^^ root) := by
  cases p with
  | nil => exact (zero_mul' _).symm
  | cons c rest =>
    rw [timesLinear, eval_cons, eval_timesLinearTail, length_timesLinearTail, eval_cons]
    simp only [pow, xor_mul, mul_xor]
    have h1 : mul c (mul x (pow x rest.length)) = mul (mul c (pow x rest.length)) x := by
      rw [mul_comm' x, mul_assoc']
    have h2 : mul (mul c root) (pow x rest.length) = mul (mul c (pow x rest.length)) root := by
      rw [mul_assoc', mul_comm' root, mul_assoc']
    rw [h1, h2]
    generalize mul (mul c (pow x rest.length)) x = A
    generalize mul (mul c (pow x rest.length)) root = C
    ac_rfl

/-- The product vanishes at each of its roots. -/
theorem eval_rootProduct {n i : Nat} (h : i < n) : eval (power i) (rootProduct n) = 0 := by
  induction n with
  | zero => omega
  | succ n ih =>
    rw [rootProduct, eval_timesLinear]
    by_cases hi : i = n
    · subst hi; rw [BitVec.xor_self]; exact mul_zero' _
    · rw [ih (by omega)]; exact zero_mul' _

theorem rootProduct_head (n : Nat) : ∃ rest, rootProduct n = 1 :: rest := by
  induction n with
  | zero => exact ⟨[], rfl⟩
  | succ n ih => obtain ⟨rest, h⟩ := ih; rw [rootProduct, h, timesLinear]; exact ⟨_, rfl⟩

/-! ### No coefficient of the product is zero -/

/-- The coefficient `k` of the product of `n` roots, 0 above its degree. -/
def coeff (n k : Nat) : Byte := (rootProduct n).getD k 0

theorem getD_timesLinearTail (root prev : Byte) (p : List Byte) (k : Nat) :
    (timesLinearTail root prev p).getD k 0 =
      p.getD k 0 ^^^ mul ((prev :: p).getD k 0) root := by
  induction p generalizing prev k with
  | nil =>
    cases k with
    | zero => simp [timesLinearTail]
    | succ k => simp [timesLinearTail]
  | cons c rest ih =>
    cases k with
    | zero => simp [timesLinearTail]
    | succ k => simpa [timesLinearTail] using ih c k

theorem coeff_zero (n : Nat) : coeff n 0 = 1 := by
  obtain ⟨rest, h⟩ := rootProduct_head n; simp [coeff, h]

theorem coeff_succ (n k : Nat) : coeff (n + 1) (k + 1) = coeff n (k + 1) ^^^ mul (coeff n k) (power n) := by
  obtain ⟨rest, h⟩ := rootProduct_head n
  simp only [coeff, rootProduct, h, timesLinear]
  simpa using getD_timesLinearTail (power n) 1 rest k

theorem power_mul_mul (d e : Nat) (a : Byte) : mul (power d) (mul (power e) a) = mul (power (d + e)) a := by
  rw [← mul_assoc', power_mul_power]

/-- Each coefficient from the one before it: (1 + 2^(k+1)) c(k+1) = (2^k + 2^n) c(k). -/
theorem coeff_ratio (n k : Nat) :
    mul (power 0 ^^^ power (k + 1)) (coeff n (k + 1)) = mul (power k ^^^ power n) (coeff n k) := by
  induction n generalizing k with
  | zero =>
    cases k with
    | zero => decide
    | succ k => simp [coeff, rootProduct]
  | succ n ih =>
    rw [coeff_succ, mul_xor, ih, mul_comm' (coeff n k) (power n), xor_mul (power 0), power_mul_mul, power_mul_mul]
    cases k with
    | zero =>
      rw [coeff_zero, coeff_zero]
      simp only [show ∀ b, mul b 1 = b from mul_one', Nat.zero_add, BitVec.xor_assoc, xor_cancel, Nat.add_comm 1 n]
    | succ i =>
      have hi := congrArg (mul (power (n + 1))) (ih i)
      rw [xor_mul, mul_xor, power_mul_mul, power_mul_mul, xor_mul, mul_xor, power_mul_mul, power_mul_mul] at hi
      rw [coeff_succ, mul_comm' (coeff n i) (power n), mul_xor, xor_mul, xor_mul, xor_mul, power_mul_mul, power_mul_mul,
        Nat.zero_add]
      have e1 : i + 1 + n = n + 1 + i := by omega
      have e2 : i + 1 + 1 + n = n + 1 + (i + 1) := by omega
      rw [Nat.add_zero] at hi
      rw [e1, e2]
      have h2 : mul (power (n + 1 + (i + 1))) (coeff n (i + 1)) = mul (power (n + 1)) (coeff n (i + 1)) ^^^
          (mul (power (n + 1 + i)) (coeff n i) ^^^ mul (power (n + 1 + n)) (coeff n i)) := by rw [← hi, xor_cancel]
      rw [h2]
      generalize mul (power (i + 1)) (coeff n (i + 1)) = A
      generalize mul (power n) (coeff n (i + 1)) = B
      generalize mul (power (n + 1)) (coeff n (i + 1)) = C
      generalize mul (power (n + 1 + i)) (coeff n i) = D
      generalize mul (power (n + 1 + n)) (coeff n i) = E
      rw [BitVec.xor_assoc A B, xor_cancel]
      ac_rfl

/-- 41_rs.md R122 (a): no coefficient is zero, up to degree 254. -/
theorem coeff_ne_zero {n k : Nat} (hn : n ≤ 254) (hk : k ≤ n) : coeff n k ≠ 0 := by
  induction k with
  | zero => rw [coeff_zero]; decide
  | succ k ih =>
    intro h0
    have h := coeff_ratio n k
    rw [h0, show mul _ 0 = 0 from mul_zero' _] at h
    rcases mul_eq_zero'.mp h.symm with h1 | h1
    · have := power_inj (by omega) (by omega) (xor_eq_zero.mp h1); omega
    · exact ih (by omega) h1

end Sys2Proof.Reference
end

