-- ==== Sys2Proof/Laws/ReedSolomon.lean ====
section
/-! SUPPORT. reed_solomon_encoder: the generator is the product of the roots, the division keeps the value at every root, and
what the two commands leave. -/

namespace Sys2Proof.Machine
open Reference

/-- The two tables, as functions, are those of the field. -/
structure IsTables (expOf logOf : Byte → Byte) : Prop where
  exp : ∀ e, expOf e = power e.toNat
  log : ∀ v, v ≠ 0 → power (logOf v).toNat = v
  le : ∀ v, (logOf v).toNat ≤ 254

theorem expAt_eq {s : State} (h : tablesReady s) : s.expAt = fun e => expTable.getD e.toNat 0 :=
  funext fun e => (h.2 h.1 e).1

theorem logAt_eq {s : State} (h : tablesReady s) : s.logAt = fun v => logTable.getD v.toNat 0 :=
  funext fun v => (h.2 h.1 v).2

theorem isTables_reference : IsTables (fun e => expTable.getD e.toNat 0) (fun v => logTable.getD v.toNat 0) :=
  ⟨expTable_eq, power_log, logTable_le⟩

theorem isTables_of_ready {s : State} (h : tablesReady s) : IsTables s.expAt s.logAt := by
  rw [expAt_eq h, logAt_eq h]; exact isTables_reference

/-! ### The generator -/

theorem length_genTail (expOf logOf : Byte → Byte) (i prev : Byte) (p : List Byte) :
    (genTail expOf logOf i prev p).length = p.length + 1 := by
  induction p generalizing prev with
  | nil => rfl
  | cons c rest ih => rw [genTail, List.length_cons, ih, List.length_cons]

theorem length_genPass (expOf logOf : Byte → Byte) (i : Byte) {p : List Byte} (h : p ≠ []) :
    (genPass expOf logOf i p).length = p.length + 1 := by
  cases p with
  | nil => exact absurd rfl h
  | cons c rest => rw [genPass, List.length_cons, length_genTail, List.length_cons]

theorem length_genPasses (expOf logOf : Byte → Byte) (n i : Nat) {p : List Byte} (h : p ≠ []) :
    (genPasses expOf logOf n i p).length = p.length + n := by
  induction n generalizing i p with
  | zero => rfl
  | succ n ih =>
    have hl := length_genPass expOf logOf (BitVec.ofNat 8 i) h
    rw [genPasses, ih _ (by intro h0; rw [h0] at hl; simp at hl), hl]
    omega

/-- A generator of degree `n` has `n + 1` coefficients. -/
theorem length_generator (expOf logOf : Byte → Byte) {n : Nat} (h : 1 ≤ n) : (generator expOf logOf n).length = n + 1 := by
  rw [generator, length_genPasses _ _ _ _ (by simp)]
  simp only [List.length_cons, List.length_nil]
  omega

theorem genTail_values {expOf logOf : Byte → Byte} (ht : IsTables expOf logOf) (i prev : Byte) (p : List Byte)
    (hz : ∀ x ∈ timesLinearTail (power i.toNat) (expOf prev) (p.map expOf), x ≠ 0) :
    (genTail expOf logOf i prev p).map expOf = timesLinearTail (power i.toNat) (expOf prev) (p.map expOf) := by
  induction p generalizing prev with
  | nil => simp only [genTail, List.map, timesLinearTail]; rw [ht.exp, power_expadd, ← ht.exp prev]
  | cons c rest ih =>
    simp only [genTail, List.map, timesLinearTail, List.mem_cons, forall_eq_or_imp] at hz ⊢
    rw [ih c hz.2]
    congr 1
    have hv : expOf c ^^^ expOf (expadd prev i) = expOf c ^^^ mul (expOf prev) (power i.toNat) := by
      rw [ht.exp (expadd prev i), power_expadd, ← ht.exp prev]
    rw [hv, ht.exp, ht.log _ hz.1]

theorem genPass_values {expOf logOf : Byte → Byte} (ht : IsTables expOf logOf) {n : Nat} (hn : n + 1 ≤ 254)
    {p : List Byte} (hp : p.map expOf = rootProduct n) :
    (genPass expOf logOf (BitVec.ofNat 8 n) p).map expOf = rootProduct (n + 1) := by
  have hi : (BitVec.ofNat 8 n).toNat = n := by rw [BitVec.toNat_ofNat]; omega
  cases p with
  | nil => obtain ⟨rest, h⟩ := rootProduct_head n; rw [h] at hp; simp at hp
  | cons c rest =>
    have hr : rootProduct (n + 1) = expOf c :: timesLinearTail (power n) (expOf c) (rest.map expOf) := by
      rw [rootProduct, ← hp]; rfl
    rw [hr, genPass, List.map_cons]
    congr 1
    have := genTail_values ht (BitVec.ofNat 8 n) c rest (by
      rw [hi]
      intro x hx
      obtain ⟨k, hk, rfl⟩ := List.getElem_of_mem hx
      have hl := length_rootProduct (n + 1)
      rw [hr, List.length_cons] at hl
      have hc := coeff_ne_zero (n := n + 1) (k := k + 1) hn (by omega)
      rw [coeff, hr] at hc
      simpa [hk] using hc)
    rw [hi] at this
    exact this

theorem genPasses_values {expOf logOf : Byte → Byte} (ht : IsTables expOf logOf) (n i : Nat) {p : List Byte}
    (h : i + n ≤ 254) (hp : p.map expOf = rootProduct i) :
    (genPasses expOf logOf n i p).map expOf = rootProduct (i + n) := by
  induction n generalizing i p with
  | zero => exact hp
  | succ n ih =>
    rw [genPasses, ih (i + 1) (by omega) (genPass_values ht (by omega) hp)]
    congr 1; omega

/-- 41_rs.md R121: the values of the generator's coefficients are those of the product of its roots. -/
theorem generator_values {expOf logOf : Byte → Byte} (ht : IsTables expOf logOf) {n : Nat} (h1 : 1 ≤ n) (hn : n ≤ 254) :
    (generator expOf logOf n).map expOf = rootProduct n := by
  have h0 : expOf 0 = 1 := by rw [ht.exp]; rfl
  have hp : ([0, 0] : List Byte).map expOf = rootProduct 1 := by
    simp only [List.map, h0]; decide
  have := genPasses_values ht (n - 1) 1 (by omega) hp
  rw [generator, this]
  congr 1; omega

theorem getD_genTail_middle {expOf logOf : Byte → Byte} (ht : IsTables expOf logOf) (i prev : Byte) (p : List Byte)
    {k : Nat} (hk : k < p.length) : ((genTail expOf logOf i prev p).getD k 0).toNat ≤ 254 := by
  induction p generalizing prev k with
  | nil => simp at hk
  | cons c rest ih =>
    cases k with
    | zero => simpa [genTail] using ht.le _
    | succ k => simpa [genTail] using ih c (by simpa using hk)

theorem getD_genTail_last (expOf logOf : Byte → Byte) {i : Byte} (hi : 1 ≤ i.toNat) (prev : Byte) (p : List Byte) :
    1 ≤ ((genTail expOf logOf i prev p).getD p.length 0).toNat := by
  induction p generalizing prev with
  | nil =>
    simp only [genTail, List.length_nil, List.getD_cons_zero]
    rw [expadd_toNat]; split <;> omega
  | cons c rest ih => simpa [genTail] using ih c

/-- The shape 41_rs.md R122 (b) to (d) gives the coefficients of a generator of degree `n`. -/
structure GeneratorShape (n : Nat) (g : List Byte) : Prop where
  first : g.getD 0 0 = 0
  middle : ∀ j, 1 ≤ j → j < n → (g.getD j 0).toNat ≤ 254
  last : 1 ≤ (g.getD n 0).toNat

theorem genPass_shape {expOf logOf : Byte → Byte} (ht : IsTables expOf logOf) {i : Byte} (hi : 1 ≤ i.toNat)
    {c : Byte} {rest : List Byte} (hc : c = 0) :
    GeneratorShape (rest.length + 1) (genPass expOf logOf i (c :: rest)) where
  first := by simp [genPass, hc]
  middle := fun j h1 h2 => by
    obtain ⟨k, rfl⟩ : ∃ k, j = k + 1 := ⟨j - 1, by omega⟩
    simpa [genPass] using getD_genTail_middle ht i c rest (k := k) (by omega)
  last := by simpa [genPass] using getD_genTail_last expOf logOf hi c rest

theorem genPasses_shape {expOf logOf : Byte → Byte} (ht : IsTables expOf logOf) (n i : Nat) (hi : 1 ≤ i) (hin : i + n ≤ 254)
    {p : List Byte} {d : Nat} (hd : p.length = d + 1) (hp : GeneratorShape d p) :
    GeneratorShape (d + n) (genPasses expOf logOf n i p) := by
  induction n generalizing i p d with
  | zero => exact hp
  | succ n ih =>
    cases p with
    | nil => simp at hd
    | cons c rest =>
      have hl : rest.length = d := by simpa using hd
      have hshape := genPass_shape ht (i := BitVec.ofNat 8 i) (by rw [BitVec.toNat_ofNat]; omega) (c := c) (rest := rest)
        (by simpa using hp.first)
      rw [hl] at hshape
      have := ih (i + 1) (by omega) (by omega) (p := genPass expOf logOf (BitVec.ofNat 8 i) (c :: rest)) (d := d + 1)
        (by rw [length_genPass _ _ _ (by simp), hd]) hshape
      rw [genPasses]
      rwa [show d + (n + 1) = d + 1 + n by omega]

theorem generator_shape {expOf logOf : Byte → Byte} (ht : IsTables expOf logOf) {n : Nat} (h2 : 2 ≤ n) (hn : n ≤ 254) :
    GeneratorShape n (generator expOf logOf n) := by
  obtain ⟨m, rfl⟩ : ∃ m, n = m + 2 := ⟨n - 2, by omega⟩
  rw [generator, show m + 2 - 1 = m + 1 by omega, genPasses]
  have h1 := genPass_shape ht (i := BitVec.ofNat 8 1) (by decide) (c := 0) (rest := [0]) rfl
  have h3 := genPasses_shape ht m 2 (by omega) (by omega) (d := 2)
    (by rw [length_genPass _ _ _ (by simp)]; rfl) h1
  rwa [show 2 + m = m + 2 by omega] at h3

/-! ### The division -/

theorem length_xorFront (expOf : Byte → Byte) (le : Byte) (g r : List Byte) :
    (xorFront expOf le g r).length = r.length := by
  induction r generalizing g with
  | nil => cases g <;> rfl
  | cons a r ih => cases g with
    | nil => rfl
    | cons b g => simpa [xorFront] using ih g

theorem length_divideStep (expOf logOf : Byte → Byte) (gen r : List Byte) :
    (divideStep expOf logOf gen r).length = r.length - 1 := by
  cases r with
  | nil => rfl
  | cons lead rest =>
    rw [divideStep]
    split
    · simp
    · rw [length_xorFront]; simp

theorem length_divideSteps (expOf logOf : Byte → Byte) (gen : List Byte) (len : Nat) (r : List Byte) :
    (divideSteps expOf logOf gen len r).length = r.length - len := by
  induction len generalizing r with
  | zero => simp [divideSteps]
  | succ n ih => rw [divideSteps, ih, length_divideStep]; omega

@[simp] theorem length_ecCodewords (n len : Nat) (s : State) : (ecCodewords n len s).length = n := by
  simp [ecCodewords, length_divideSteps]

/-- The multiple of `g` by `a`, added to the front of `r`. -/
def addMultiple (a : Byte) : List Byte → List Byte → List Byte
  | g :: gs, r :: rs => (r ^^^ mul g a) :: addMultiple a gs rs
  | _, rs => rs

theorem addMultiple_zero (g r : List Byte) : addMultiple 0 g r = r := by
  induction g generalizing r with
  | nil => cases r <;> rfl
  | cons a g ih =>
    cases r with
    | nil => rfl
    | cons b r => rw [addMultiple, ih, show mul a 0 = 0 from mul_zero' a]; simp

/-- With the field's tables one step adds a multiple of the generator, the zero lead included (41_rs.md R124). -/
theorem divideStep_cons {expOf logOf : Byte → Byte} (ht : IsTables expOf logOf) (gen : List Byte) (lead : Byte)
    (rest : List Byte) : divideStep expOf logOf gen (lead :: rest) = addMultiple lead (gen.map expOf) rest := by
  rw [divideStep]
  split
  · rename_i h; rw [h, addMultiple_zero]
  · rename_i h
    generalize rest = r
    induction gen generalizing r with
    | nil => cases r <;> rfl
    | cons g gs ih =>
      cases r with
      | nil => rfl
      | cons a r =>
        rw [xorFront, List.map_cons, addMultiple, ih, ht.exp, power_expadd, ht.log _ h, ht.exp g]

theorem length_addMultiple (a : Byte) (g r : List Byte) : (addMultiple a g r).length = r.length := by
  induction r generalizing g with
  | nil => cases g <;> rfl
  | cons b r ih => cases g with
    | nil => rfl
    | cons c g => simpa [addMultiple] using ih g

theorem eval_addMultiple (x a : Byte) (g r : List Byte) (h : g.length ≤ r.length) :
    eval x (addMultiple a g r) = eval x r ^^^ mul (mul (eval x g) a) (pow x (r.length - g.length)) := by
  induction g generalizing r with
  | nil =>
    have h0 : addMultiple a [] r = r := by cases r <;> rfl
    rw [h0, eval_nil, show mul 0 a = 0 from zero_mul' a, show mul 0 _ = 0 from zero_mul' _]; simp
  | cons b g ih =>
    cases r with
    | nil => simp at h
    | cons c r =>
      simp only [List.length_cons] at h ⊢
      rw [addMultiple, eval_cons, length_addMultiple, ih r (by omega), eval_cons, eval_cons]
      have e1 : r.length = g.length + (r.length - g.length) := by omega
      have e2 : mul (mul b a) (pow x r.length) = mul (mul (mul b (pow x g.length)) a) (pow x (r.length - g.length)) := by
        conv => lhs; rw [e1, pow_add]
        rw [← mul_assoc', mul_assoc' b a, Reference.mul_comm' a, ← mul_assoc' b]
      rw [show r.length + 1 - (g.length + 1) = r.length - g.length by omega, xor_mul, xor_mul, xor_mul, e2]
      ac_rfl

/-- One step keeps the value at a root `x` of the generator (1 followed by `g`). -/
theorem eval_divideStep {expOf logOf : Byte → Byte} (ht : IsTables expOf logOf) {x : Byte} {gen r : List Byte}
    (hroot : eval x (gen.map expOf) = pow x gen.length) (hr : gen.length + 1 ≤ r.length) :
    eval x (divideStep expOf logOf gen r) = eval x r := by
  cases r with
  | nil => simp at hr
  | cons lead rest =>
    simp only [List.length_cons] at hr
    rw [divideStep_cons ht, eval_addMultiple _ _ _ _ (by simpa using hr), hroot, eval_cons, List.length_map]
    rw [Reference.mul_comm' _ lead, mul_assoc', ← pow_add, show gen.length + (rest.length - gen.length) = rest.length by omega]
    exact BitVec.xor_comm _ _

theorem eval_divideSteps {expOf logOf : Byte → Byte} (ht : IsTables expOf logOf) {x : Byte} {gen : List Byte}
    (hroot : eval x (gen.map expOf) = pow x gen.length) (len : Nat) {r : List Byte} (hr : gen.length + len ≤ r.length) :
    eval x (divideSteps expOf logOf gen len r) = eval x r := by
  induction len generalizing r with
  | zero => rfl
  | succ n ih =>
    rw [divideSteps, ih (by rw [length_divideStep]; omega), eval_divideStep ht hroot (by omega)]

/-- The generator without its leading 1 has the value of its leading power at each root. -/
theorem eval_tail_rootProduct {n i : Nat} (h : i < n) : eval (power i) (rootProduct n).tail = pow (power i) n := by
  have h0 := eval_rootProduct h
  have hl := length_rootProduct n
  obtain ⟨rest, hr⟩ := rootProduct_head n
  rw [hr] at h0 hl ⊢
  rw [eval_cons, show ∀ b, mul 1 b = b from one_mul'] at h0
  rw [List.tail_cons, ← xor_eq_zero.mp h0, show rest.length = n by simpa using hl]

/-! ### Linearity -/

theorem addMultiple_linear (a a' : Byte) (g r r' : List Byte) (h : r.length = r'.length) :
    addMultiple (a ^^^ a') g (List.zipWith (· ^^^ ·) r r') =
      List.zipWith (· ^^^ ·) (addMultiple a g r) (addMultiple a' g r') := by
  induction g generalizing r r' with
  | nil => cases r <;> cases r' <;> rfl
  | cons b g ih =>
    cases r with
    | nil => cases r' <;> rfl
    | cons c r =>
      cases r' with
      | nil => simp at h
      | cons c' r' =>
        simp only [List.zipWith_cons_cons, addMultiple, mul_xor]
        rw [ih r r' (by simpa using h)]
        congr 1
        ac_rfl

theorem divideSteps_linear {expOf logOf : Byte → Byte} (ht : IsTables expOf logOf) (gen : List Byte) (len : Nat)
    {r r' : List Byte} (h : r.length = r'.length) :
    divideSteps expOf logOf gen len (List.zipWith (· ^^^ ·) r r') =
      List.zipWith (· ^^^ ·) (divideSteps expOf logOf gen len r) (divideSteps expOf logOf gen len r') := by
  induction len generalizing r r' with
  | zero => rfl
  | succ n ih =>
    cases r with
    | nil => cases r' with
      | nil => simpa [divideSteps, divideStep] using ih (r := []) (r' := []) rfl
      | cons a r' => simp at h
    | cons a r =>
      cases r' with
      | nil => simp at h
      | cons a' r' =>
        have hl : r.length = r'.length := by simpa using h
        rw [List.zipWith_cons_cons, divideSteps, divideSteps, divideSteps, divideStep_cons ht, divideStep_cons ht,
          divideStep_cons ht, addMultiple_linear _ _ _ _ _ hl, ih (by rw [length_addMultiple, length_addMultiple, hl])]

/-! ### The commands -/

/-- `RS_GENPOLY` with its checks passed. -/
theorem execRsGenpoly_runs {s : State} {n : Byte} (hv : s.flags.gfValid = true) (h : 7 ≤ n.toNat ∧ n.toNat ≤ 254) :
    execRsGenpoly n s = .next (genpoly n.toNat s).complete := by
  simp [execRsGenpoly, hv, (ecCountLegal_iff n.toNat).mpr h]

/-- `RS_GENERATE` with its checks passed. -/
theorem execRsGenerate_runs {s : State} {n : Byte} {len : BitVec 16} (hv : s.flags.gfValid = true)
    (h : 7 ≤ n.toNat ∧ n.toNat ≤ 254) (hl : len.toNat ≤ 256) :
    execRsGenerate n len s = .next ((rsDivide n.toNat len.toNat (genpoly n.toNat s)).setStreamLen len.toNat
      (len.toNat + n.toNat)).complete := by
  simp [execRsGenerate, hv, (ecCountLegal_iff n.toNat).mpr h, (msgLenLegal_iff len.toNat).mpr hl]

theorem genpoly_bank_other (n : Nat) (s : State) {sp : Space} (h : sp ≠ .gen) : (genpoly n s).bank sp = s.bank sp := by
  cases sp <;> first | rfl | exact absurd rfl h

@[simp] theorem genpoly_resets (n : Nat) (s : State) : (genpoly n s).resets = s.resets := rfl

theorem genpoly_read_other (n : Nat) (s : State) {sp : Space} (h : sp ≠ .gen) (i : Nat) :
    (genpoly n s).read sp i = s.read sp i := State.read_congr (genpoly_bank_other n s h) (genpoly_resets n s) i

theorem genpoly_block_other (n : Nat) (s : State) {sp : Space} (h : sp ≠ .gen) (b k : Nat) :
    (genpoly n s).block sp b k = s.block sp b k := State.block_congr (genpoly_bank_other n s h) (genpoly_resets n s) b k

@[simp] theorem genpoly_expAt (n : Nat) (s : State) : (genpoly n s).expAt = s.expAt :=
  funext fun e => genpoly_read_other n s (by decide) _

@[simp] theorem genpoly_logAt (n : Nat) (s : State) : (genpoly n s).logAt = s.logAt :=
  funext fun e => genpoly_read_other n s (by decide) _

/-- `GEN[0..n]` after `genpoly(n)`. -/
theorem genpoly_block {n : Nat} (h1 : 1 ≤ n) (hn : n ≤ 254) (s : State) :
    (genpoly n s).block .gen 0 (n + 1) = generator s.expAt s.logAt n := by
  have hl := length_generator s.expAt s.logAt h1
  have hb : (genpoly n s).block .gen 0 (n + 1) = (s.store .gen 0 (generator s.expAt s.logAt n)).block .gen 0 (n + 1) :=
    State.block_congr rfl (by simp) 0 (n + 1)
  rw [hb, ← hl, State.block_store_same _ _ _ (by show 0 + _ ≤ 255; omega)]

theorem block_cons (s : State) (sp : Space) (b n : Nat) : s.block sp b (n + 1) = s.read sp b :: s.block sp (b + 1) n := by
  simp only [State.block, List.range_succ_eq_map, List.map_cons, List.map_map, Nat.add_zero]
  congr 1
  apply List.map_congr_left
  intro k _
  simp only [Function.comp, Nat.succ_eq_add_one]
  congr 1; omega

theorem block_tail (s : State) (sp : Space) (b n : Nat) : (s.block sp b (n + 1)).tail = s.block sp (b + 1) n := by
  rw [block_cons, List.tail_cons]

theorem block_append (s : State) (sp : Space) (b m n : Nat) :
    s.block sp b (m + n) = s.block sp b m ++ s.block sp (b + m) n := by
  simp only [State.block, List.range_add, List.map_append, List.map_map]
  congr 1
  apply List.map_congr_left
  intro k _
  simp only [Function.comp]
  congr 1; omega

theorem block_getD (s : State) (sp : Space) (b : Nat) {n k : Nat} (h : k < n) : (s.block sp b n).getD k 0 = s.read sp (b + k) := by
  simp [State.block, h]

/-- The division after `genpoly(n)`: the generator without its leading term, from the tables. -/
theorem ecCodewords_genpoly {n : Nat} (h1 : 1 ≤ n) (hn : n ≤ 254) (len : Nat) (s : State) :
    ecCodewords n len (genpoly n s) =
      divideSteps s.expAt s.logAt (generator s.expAt s.logAt n).tail len (s.block .cw 0 len ++ List.replicate n 0) := by
  rw [ecCodewords, genpoly_expAt, genpoly_logAt, genpoly_block_other n s (sp := .cw) (by decide), ← genpoly_block h1 hn,
    block_tail]

/-- `CW` after `rs_divide(n, len)`. -/
theorem rsDivide_cw (n len : Nat) (s : State) :
    (rsDivide n len s).cw = (s.store .cw len (ecCodewords n len s)).cw := rfl

theorem rsDivide_bank_other (n len : Nat) (s : State) {sp : Space} (h : sp ≠ .cw) (h' : sp ≠ .rem) :
    (rsDivide n len s).bank sp = s.bank sp := by
  cases sp <;> first | rfl | exact absurd rfl h | exact absurd rfl h'

theorem rsDivide_read_cw (n len : Nat) (s : State) (i : Nat) :
    (rsDivide n len s).read .cw i = (s.store .cw len (ecCodewords n len s)).read .cw i :=
  State.read_congr rfl (by simp [rsDivide]) i

theorem rsDivide_read_outside (n len : Nat) (s : State) {i : Nat} (h : i < len ∨ len + n ≤ i) :
    (rsDivide n len s).read .cw i = s.read .cw i := by
  rw [rsDivide_read_cw]
  rcases h with h | h
  · exact State.read_store_below _ _ _ h
  · exact State.read_store_above _ _ _ (by simpa using h)

theorem rsDivide_block_message (n len : Nat) (s : State) {b k : Nat} (h : b + k ≤ len) :
    (rsDivide n len s).block .cw b k = s.block .cw b k := by
  simp only [State.block]
  apply List.map_congr_left
  intro j hj
  simp only [List.mem_range] at hj
  exact rsDivide_read_outside n len s (.inl (by omega))

theorem rsDivide_block_check {n len : Nat} (s : State) (h : len + n ≤ 512) :
    (rsDivide n len s).block .cw len n = ecCodewords n len s := by
  have hb : (rsDivide n len s).block .cw len n = (s.store .cw len (ecCodewords n len s)).block .cw len n := by
    simp only [State.block, rsDivide_read_cw]
  have := State.block_store_same s (sp := .cw) len (ecCodewords n len s) (by rw [length_ecCodewords]; exact h)
  rw [length_ecCodewords] at this
  rw [hb, this]

theorem block_finished (s : State) (d n : Nat) (sp : Space) (b k : Nat) :
    (s.setStreamLen d n).complete.block sp b k = s.block sp b k :=
  State.block_congr (by cases sp <;> rfl) rfl b k

/-- What `RS_GENERATE` leaves in `CW` and `GEN`, as lists. -/
theorem rsGenerate_blocks {n len : Nat} (h1 : 1 ≤ n) (hn : n ≤ 254) (hl : len ≤ 256) (s : State) (d k : Nat) :
    let t := ((rsDivide n len (genpoly n s)).setStreamLen d k).complete
    t.block .cw 0 len = s.block .cw 0 len ∧
    t.block .cw len n =
      divideSteps s.expAt s.logAt (generator s.expAt s.logAt n).tail len (s.block .cw 0 len ++ List.replicate n 0) ∧
    t.block .gen 0 (n + 1) = generator s.expAt s.logAt n := by
  simp only [block_finished]
  refine ⟨?_, ?_, ?_⟩
  · rw [rsDivide_block_message _ _ _ (by omega), genpoly_block_other _ _ (by decide)]
  · rw [rsDivide_block_check _ (by omega), ecCodewords_genpoly h1 hn]
  · rw [State.block_congr (rsDivide_bank_other n len _ (by decide) (by decide)) (by simp [rsDivide]), genpoly_block h1 hn]

end Sys2Proof.Machine
end

