-- ==== Sys2Proof/Laws/Step.lean ====
section
/-! SUPPORT. Once for all commands: a command is refused and writes `STATUS` alone, or its checks have passed and its body
has run. Then what each body leaves alone. -/

namespace Sys2Proof.Machine

/-- The body of `MTX_BUILD` (44_matrix.md R205), its checks passed. -/
def built (s : State) : State :=
  (buildSteps (mtxInit s.flavor.version.toNat s.flavor.alignCenter.toNat
    (s.setFormat ((fmtGenerate s.flavor.version.toNat s.flavor.ecLevel.toNat Config.maskId).getD 0)))).setMtxDone true

theorem buildSymbol_built (s : State) : buildSymbol s = none ∨ buildSymbol s = some (built s) := by
  unfold buildSymbol built
  dsimp only
  cases fmtGenerate s.flavor.version.toNat s.flavor.ecLevel.toNat Config.maskId with
  | none => exact .inl rfl
  | some format =>
    dsimp only
    split
    · exact .inr rfl
    · exact .inl rfl

theorem buildSymbol_eq_built {s : State} (h : Config.flavorOk s.flavor = true) : buildSymbol s = some (built s) := by
  rcases buildSymbol_built s with h' | h'
  · rw [buildSymbol_some h] at h'; exact absurd h' (by simp)
  · exact h'

/-- What a command does before `CSR.STATUS <- OK`, its checks passed. -/
def commandBody (i : Instr) (s : State) : State :=
  match i with
  | .gfBuild => (gfBuild s).setGfValid
  | .gfExp e => s.setResult (s.expAt e)
  | .gfLog v => s.setResult (s.logAt v)
  | .gfExpadd a b => s.setResult (expadd a b)
  | .rsGenpoly n => genpoly n.toNat s
  | .rsGenerate n len =>
    (rsDivide n.toNat len.toNat (genpoly n.toNat s)).setStreamLen len.toNat (len.toNat + n.toNat)
  | .fmtGenerate v e m => s.setFormat ((fmtGenerate v.toNat e.toNat m.toNat).getD 0)
  | .flavorSelect len => s.selected len.toNat
  | .msgPack => msgPack s
  | .mtxInit v a => mtxInit v.toNat a.toNat s
  | .mtxFinder => mtxFinder (s.setMtxDone false)
  | .mtxSeparator => mtxSeparator (s.setMtxDone false)
  | .mtxAlign => mtxAlign (s.setMtxDone false)
  | .mtxTiming => mtxTiming (s.setMtxDone false)
  | .mtxDark => mtxDark (s.setMtxDone false)
  | .mtxReserve => mtxReserve (s.setMtxDone false)
  | .mtxPlace n => mtxPlace n.toNat (s.setMtxDone false)
  | .mtxMask => mtxMask (s.setMtxDone false)
  | .mtxFormat => mtxFormat (s.setMtxDone false)
  | .mtxBuild => built s
  | .encode len => built (encodeStream (s.selected len.toNat))

theorem flavorSelect_cases (len : Nat) (s : State) :
    (106 < len ∧ flavorSelect len s = none) ∨ (len ≤ 106 ∧ flavorSelect len s = some (s.selected len)) := by
  by_cases h : 106 < len
  · exact .inl ⟨h, flavorSelect_none h⟩
  · exact .inr ⟨by omega, flavorSelect_some (by omega)⟩

theorem fmtGenerate_cases (v e m : Nat) :
    (¬((1 ≤ v ∧ v ≤ 40) ∧ e ≤ 3 ∧ m ≤ 7) ∧ fmtGenerate v e m = none) ∨
      (((1 ≤ v ∧ v ≤ 40) ∧ e ≤ 3 ∧ m ≤ 7) ∧ fmtGenerate v e m = some ((fmtGenerate v e m).getD 0)) := by
  by_cases h : (1 ≤ v ∧ v ≤ 40) ∧ e ≤ 3 ∧ m ≤ 7
  · exact .inr ⟨h, by rw [fmtGenerate_legal h.1 h.2.1 h.2.2]; rfl⟩
  · exact .inl ⟨h, fmtGenerate_illegal h⟩

theorem mtxInitLegal_wellFormed (v a : Byte) :
    mtxInitLegal v.toNat a.toNat = (Instr.mtxInit v a).wellFormed := by
  rw [Bool.eq_iff_iff, mtxInitLegal_iff]
  simp only [Instr.wellFormed, Bool.and_eq_true, decide_eq_true_iff, Config.symbolSize]
  omega

theorem matrixStep_outcome (body : State → State) (s : State) :
    (∃ code, code ≠ Status.ok ∧ matrixStep body s = .next (s.raise code)) ∨
      ((s.mtxSize != 0) = true ∧ matrixStep body s = .next (body (s.setMtxDone false)).complete) := by
  by_cases h : s.mtxSize = 0
  · exact .inl ⟨_, by decide, matrixStep_refused h⟩
  · exact .inr ⟨bne_iff_ne.mpr h, matrixStep_runs h⟩

/-- A command is refused, and then `STATUS` alone changes; or its precondition and operands are legal, and its body runs
to the end. -/
theorem exec_outcome (i : Instr) (s : State) :
    (∃ code, code ≠ Status.ok ∧ exec i s = .next (s.raise code)) ∨
      (precondition i s = true ∧ i.wellFormed = true ∧ exec i s = .next (commandBody i s).complete) := by
  have step (body : State → State) (h : exec i s = matrixStep body s)
      (hp : precondition i s = (s.mtxSize != 0)) (hw : i.wellFormed = true)
      (hb : commandBody i s = body (s.setMtxDone false)) :
      (∃ code, code ≠ Status.ok ∧ exec i s = .next (s.raise code)) ∨
        (precondition i s = true ∧ i.wellFormed = true ∧ exec i s = .next (commandBody i s).complete) := by
    rw [h, hp, hb]
    rcases matrixStep_outcome body s with h' | h'
    · exact .inl h'
    · exact .inr ⟨h'.1, hw, h'.2⟩
  cases i with
  | gfBuild => exact .inr ⟨rfl, rfl, rfl⟩
  | gfExp e =>
    by_cases h : s.flags.gfValid = true
    · exact .inr ⟨h, rfl, if_pos h⟩
    · exact .inl ⟨_, by decide, if_neg h⟩
  | gfLog v =>
    by_cases h : s.flags.gfValid = true
    · exact .inr ⟨h, rfl, if_pos h⟩
    · exact .inl ⟨_, by decide, if_neg h⟩
  | gfExpadd a b => exact .inr ⟨rfl, rfl, rfl⟩
  | rsGenpoly n =>
    show (∃ code, _ ∧ execRsGenpoly n s = _) ∨ (s.flags.gfValid = true ∧ ecCountLegal n.toNat = true ∧ execRsGenpoly n s = _)
    unfold execRsGenpoly
    cases h1 : s.flags.gfValid
    · exact .inl ⟨_, by decide, rfl⟩
    cases h2 : ecCountLegal n.toNat
    · exact .inl ⟨_, by decide, rfl⟩
    · exact .inr ⟨rfl, rfl, rfl⟩
  | rsGenerate n len =>
    show (∃ code, _ ∧ execRsGenerate n len s = _) ∨
      (s.flags.gfValid = true ∧ (ecCountLegal n.toNat && msgLenLegal len.toNat) = true ∧ execRsGenerate n len s = _)
    unfold execRsGenerate
    cases h1 : s.flags.gfValid
    · exact .inl ⟨_, by decide, rfl⟩
    cases h2 : ecCountLegal n.toNat
    · exact .inl ⟨_, by decide, rfl⟩
    cases h3 : msgLenLegal len.toNat
    · exact .inl ⟨_, by decide, rfl⟩
    · exact .inr ⟨rfl, rfl, rfl⟩
  | fmtGenerate v e m =>
    show (∃ code, _ ∧ execFmtGenerate v e m s = _) ∨ (true = true ∧ _ ∧ execFmtGenerate v e m s = _)
    unfold execFmtGenerate
    rcases fmtGenerate_cases v.toNat e.toNat m.toNat with ⟨h, h'⟩ | ⟨h, h'⟩
    · rw [h']; exact .inl ⟨_, by decide, rfl⟩
    · rw [h']
      exact .inr ⟨rfl, by simp [Instr.wellFormed, h.1.1, h.1.2, h.2.1, h.2.2], by rw [commandBody]⟩
  | flavorSelect len =>
    show (∃ code, _ ∧ execFlavorSelect len s = _) ∨ (true = true ∧ _ ∧ execFlavorSelect len s = _)
    unfold execFlavorSelect
    rcases flavorSelect_cases len.toNat s with ⟨h, h'⟩ | ⟨h, h'⟩
    · rw [h']; exact .inl ⟨_, by decide, rfl⟩
    · rw [h']; exact .inr ⟨rfl, by simp [Instr.wellFormed, h], rfl⟩
  | msgPack =>
    by_cases h : s.flags.flavorValid = true
    · exact .inr ⟨h, rfl, if_pos h⟩
    · exact .inl ⟨_, by decide, if_neg h⟩
  | mtxInit v a =>
    show (∃ code, _ ∧ execMtxInit v a s = _) ∨ (true = true ∧ _ ∧ execMtxInit v a s = _)
    rw [← mtxInitLegal_wellFormed]
    unfold execMtxInit
    by_cases h : mtxInitLegal v.toNat a.toNat = true
    · exact .inr ⟨rfl, h, if_pos h⟩
    · exact .inl ⟨_, by decide, if_neg h⟩
  | mtxFinder => exact step mtxFinder rfl rfl rfl rfl
  | mtxSeparator => exact step mtxSeparator rfl rfl rfl rfl
  | mtxAlign => exact step mtxAlign rfl rfl rfl rfl
  | mtxTiming => exact step mtxTiming rfl rfl rfl rfl
  | mtxDark => exact step mtxDark rfl rfl rfl rfl
  | mtxReserve => exact step mtxReserve rfl rfl rfl rfl
  | mtxPlace n => exact step (mtxPlace n.toNat) rfl rfl rfl rfl
  | mtxMask => exact step mtxMask rfl rfl rfl rfl
  | mtxFormat => exact step mtxFormat rfl rfl rfl rfl
  | mtxBuild =>
    show (∃ code, _ ∧ execMtxBuild s = _) ∨ (s.flags.flavorValid = true ∧ true = true ∧ execMtxBuild s = _)
    unfold execMtxBuild
    cases h : s.flags.flavorValid
    · exact .inl ⟨_, by decide, rfl⟩
    · rcases buildSymbol_built s with h' | h' <;> rw [h']
      · exact .inl ⟨_, by decide, rfl⟩
      · exact .inr ⟨rfl, rfl, rfl⟩
  | encode len =>
    show (∃ code, _ ∧ execEncode len s = _) ∨ (true = true ∧ _ ∧ execEncode len s = _)
    unfold execEncode
    rcases flavorSelect_cases len.toNat s with ⟨h, h'⟩ | ⟨h, h'⟩ <;> rw [h'] <;> dsimp only
    · exact .inl ⟨_, by decide, rfl⟩
    · rcases buildSymbol_built (encodeStream (s.selected len.toNat)) with h2 | h2 <;> rw [h2]
      · exact .inl ⟨_, by decide, rfl⟩
      · exact .inr ⟨rfl, by simp [Instr.wellFormed, h], rfl⟩

/-- `exec_outcome` for a next state. -/
theorem exec_cases {i : Instr} {s t : State} (h : exec i s = .next t) :
    (∃ code, code ≠ Status.ok ∧ t = s.raise code) ∨
      (precondition i s = true ∧ i.wellFormed = true ∧ t = (commandBody i s).complete) := by
  rcases exec_outcome i s with ⟨code, hc, h'⟩ | ⟨hp, hw, h'⟩ <;> rw [h'] at h <;> injection h with h
  · exact .inl ⟨code, hc, h.symm⟩
  · exact .inr ⟨hp, hw, h.symm⟩

/-! ### What each body leaves alone -/

/-- From `s` to `t` the parts outside `ps`, and `STATUS`, are the same. -/
def Keeps (ps : List Part) (s t : State) : Prop := t.status = s.status ∧ ∀ p, p ∉ ps → p.same s t

theorem Part.same_trans {s t u : State} {p : Part} (h : p.same s t) (h' : p.same t u) : p.same s u := by
  cases p <;> exact Eq.trans h' h

theorem Keeps.trans {ps : List Part} {s t u : State} (h : Keeps ps s t) (h' : Keeps ps t u) : Keeps ps s u :=
  ⟨h'.1.trans h.1, fun p hp => Part.same_trans (h.2 p hp) (h'.2 p hp)⟩

theorem Keeps.mono {ps qs : List Part} {s t : State} (h : Keeps ps s t) (hq : ∀ p ∈ ps, p ∈ qs) : Keeps qs s t :=
  ⟨h.1, fun p hp => h.2 p fun hm => hp (hq p hm)⟩

theorem keeps_setMtxDone (s : State) (b : Bool) : Keeps [.mtxDone] s (s.setMtxDone b) :=
  ⟨rfl, fun p hp => by cases p <;> first | exact absurd (by decide) hp | rfl⟩

theorem keeps_mtxFinder (s : State) : Keeps [.matrix] s (mtxFinder s) :=
  ⟨rfl, fun p hp => by cases p <;> first | exact absurd (by decide) hp | rfl⟩

theorem keeps_mtxSeparator (s : State) : Keeps [.matrix] s (mtxSeparator s) :=
  ⟨rfl, fun p hp => by cases p <;> first | exact absurd (by decide) hp | rfl⟩

theorem keeps_mtxAlign (s : State) : Keeps [.matrix] s (mtxAlign s) :=
  ⟨rfl, fun p hp => by cases p <;> first | exact absurd (by decide) hp | rfl⟩

theorem keeps_mtxTiming (s : State) : Keeps [.matrix] s (mtxTiming s) :=
  ⟨rfl, fun p hp => by cases p <;> first | exact absurd (by decide) hp | rfl⟩

theorem keeps_mtxDark (s : State) : Keeps [.matrix] s (mtxDark s) :=
  ⟨rfl, fun p hp => by cases p <;> first | exact absurd (by decide) hp | rfl⟩

theorem keeps_mtxReserve (s : State) : Keeps [.matrix] s (mtxReserve s) :=
  ⟨rfl, fun p hp => by cases p <;> first | exact absurd (by decide) hp | rfl⟩

theorem keeps_mtxPlace (n : Nat) (s : State) : Keeps [.matrix, .cursor, .bitpos] s (mtxPlace n s) :=
  ⟨rfl, fun p hp => by cases p <;> first | exact absurd (by decide) hp | rfl⟩

theorem keeps_mtxMask (s : State) : Keeps [.matrix] s (mtxMask s) :=
  ⟨rfl, fun p hp => by cases p <;> first | exact absurd (by decide) hp | rfl⟩

theorem keeps_mtxFormat (s : State) : Keeps [.matrix] s (mtxFormat s) :=
  ⟨rfl, fun p hp => by cases p <;> first | exact absurd (by decide) hp | rfl⟩

theorem keeps_mtxInit (v a : Nat) (s : State) : Keeps matrixParts s (mtxInit v a s) :=
  ⟨rfl, fun p hp => by cases p <;> first | exact absurd (by decide) hp | rfl⟩

theorem keeps_buildSteps (s : State) : Keeps [.matrix, .cursor, .bitpos] s (buildSteps s) := by
  have one {f : State → State} (h : ∀ s, Keeps [.matrix] s (f s)) (s : State) : Keeps [.matrix, .cursor, .bitpos] s (f s) :=
    (h s).mono (by decide)
  exact (one keeps_mtxFinder s).trans <| (one keeps_mtxSeparator _).trans <| (one keeps_mtxAlign _).trans <|
    (one keeps_mtxTiming _).trans <| (one keeps_mtxDark _).trans <| (one keeps_mtxReserve _).trans <|
    (keeps_mtxPlace _ _).trans <| (one keeps_mtxMask _).trans <| one keeps_mtxFormat _

theorem keeps_setFormat (s : State) (v : BitVec 18) : Keeps [.format] s (s.setFormat v) :=
  ⟨rfl, fun p hp => by cases p <;> first | exact absurd (by decide) hp | rfl⟩

theorem keeps_built (s : State) : Keeps (.format :: matrixParts) s (built s) :=
  ((keeps_setFormat s _).mono (by decide)).trans <| ((keeps_mtxInit _ _ _).mono (by decide)).trans <|
    ((keeps_buildSteps _).mono (by decide)).trans <| (keeps_setMtxDone _ _).mono (by decide)

theorem keeps_gfBuild (s : State) : Keeps [.gfExp, .gfLog] s (gfBuild s) := by
  unfold gfBuild
  generalize gfFill Config.gfTableLen 0 1 s.gfExp s.gfLog = tables
  exact ⟨rfl, fun p hp => by cases p <;> first | exact absurd (by decide) hp | rfl⟩

theorem keeps_setGfValid (s : State) : Keeps [.gfValid] s s.setGfValid :=
  ⟨rfl, fun p hp => by cases p <;> first | exact absurd (by decide) hp | rfl⟩

theorem keeps_msgPack (s : State) : Keeps [.cw, .cwDataLen, .cwTotalLen] s (msgPack s) :=
  ⟨rfl, fun p hp => by cases p <;> first | exact absurd (by decide) hp | rfl⟩

theorem keeps_genpoly (n : Nat) (s : State) : Keeps [.gen, .genLen] s (genpoly n s) :=
  ⟨rfl, fun p hp => by cases p <;> first | exact absurd (by decide) hp | rfl⟩

theorem keeps_rsDivide (n len : Nat) (s : State) : Keeps [.cw, .rem] s (rsDivide n len s) :=
  ⟨rfl, fun p hp => by cases p <;> first | exact absurd (by decide) hp | rfl⟩

theorem keeps_setStreamLen (s : State) (d t : Nat) : Keeps [.cwDataLen, .cwTotalLen] s (s.setStreamLen d t) :=
  ⟨rfl, fun p hp => by cases p <;> first | exact absurd (by decide) hp | rfl⟩

theorem keeps_selected (s : State) (len : Nat) :
    Keeps [.payloadLen, .flavorIdx, .flavorRow, .flavorValid] s (s.selected len) :=
  ⟨rfl, fun p hp => by cases p <;> first | exact absurd (by decide) hp | rfl⟩

theorem keeps_setResult (s : State) (v : Byte) : Keeps [.result] s (s.setResult v) :=
  ⟨rfl, fun p hp => by cases p <;> first | exact absurd (by decide) hp | rfl⟩

theorem keeps_divided (n len d t : Nat) (s : State) :
    Keeps divisionParts s ((rsDivide n len (genpoly n s)).setStreamLen d t) :=
  ((keeps_genpoly n s).mono (by decide)).trans <| ((keeps_rsDivide n len _).mono (by decide)).trans <|
    (keeps_setStreamLen _ _ _).mono (by decide)

theorem keeps_encodeStream (s : State) : Keeps ([.gfExp, .gfLog, .gfValid] ++ divisionParts) s (encodeStream s) :=
  ((keeps_gfBuild s).mono (by decide)).trans <| ((keeps_setGfValid _).mono (by decide)).trans <|
    ((keeps_msgPack _).mono (by decide)).trans <| (keeps_divided _ _ _ _ _).mono (by decide)

/-! ### Commands in a row -/

theorem execAll_cons {i : Instr} {s t : State} (h : exec i s = .next t) (rest : List Instr) :
    execAll (i :: rest) s = execAll rest t := by rw [execAll, h]

/-- A body does not depend on `MTX_DONE` and `STATUS`, and leaves both as they are (44_matrix.md R205: the inner commands
run "without their own `STATUS` and `MTX_DONE` writes"); and it leaves the size. -/
structure Inner (f : State → State) : Prop where
  mtxDone : ∀ s b, f (s.setMtxDone b) = (f s).setMtxDone b
  status  : ∀ s, f s.complete = (f s).complete
  mtxSize : ∀ s, (f s).mtxSize = s.mtxSize

theorem inner_mtxFinder : Inner mtxFinder := ⟨fun _ _ => rfl, fun _ => rfl, fun _ => rfl⟩
theorem inner_mtxSeparator : Inner mtxSeparator := ⟨fun _ _ => rfl, fun _ => rfl, fun _ => rfl⟩
theorem inner_mtxAlign : Inner mtxAlign := ⟨fun _ _ => rfl, fun _ => rfl, fun _ => rfl⟩
theorem inner_mtxTiming : Inner mtxTiming := ⟨fun _ _ => rfl, fun _ => rfl, fun _ => rfl⟩
theorem inner_mtxDark : Inner mtxDark := ⟨fun _ _ => rfl, fun _ => rfl, fun _ => rfl⟩
theorem inner_mtxReserve : Inner mtxReserve := ⟨fun _ _ => rfl, fun _ => rfl, fun _ => rfl⟩
theorem inner_mtxPlace (n : Nat) : Inner (mtxPlace n) := ⟨fun _ _ => rfl, fun _ => rfl, fun _ => rfl⟩
theorem inner_mtxMask : Inner mtxMask := ⟨fun _ _ => rfl, fun _ => rfl, fun _ => rfl⟩
theorem inner_mtxFormat : Inner mtxFormat := ⟨fun _ _ => rfl, fun _ => rfl, fun _ => rfl⟩

/-- A step command after a completed command that left `MTX_DONE` at 0. -/
theorem Inner.execAll {f : State → State} (h : Inner f) {i : Instr} (hx : ∀ s, exec i s = matrixStep f s)
    {s : State} (hm : s.mtxSize ≠ 0) (rest : List Instr) :
    execAll (i :: rest) (s.setMtxDone false).complete = execAll rest ((f s).setMtxDone false).complete := by
  refine execAll_cons ?_ rest
  rw [hx, matrixStep_runs (by exact hm)]
  show Host.Outcome.next (f (s.setMtxDone false).complete).complete = _
  rw [h.status, h.mtxDone]; rfl

theorem buildSteps_def (s : State) : buildSteps s =
    mtxFormat (mtxMask (mtxPlace (8 * s.cwTotalLen.toNat)
      (mtxReserve (mtxDark (mtxTiming (mtxAlign (mtxSeparator (mtxFinder s)))))))) := rfl

@[simp] theorem State.setMtxDone_setMtxDone (s : State) (a b : Bool) : (s.setMtxDone a).setMtxDone b = s.setMtxDone b := rfl

theorem State.setMtxDone_complete (s : State) (b : Bool) : s.complete.setMtxDone b = (s.setMtxDone b).complete := rfl

/-! ### Bodies and `STATUS` -/

theorem gfBuild_complete (s : State) : gfBuild s.complete = (gfBuild s).complete := by
  unfold gfBuild
  generalize h : gfFill Config.gfTableLen 0 1 s.gfExp s.gfLog = tables
  rw [State.complete_gfExp, State.complete_gfLog, h]; rfl

theorem msgPack_complete (s : State) : msgPack s.complete = (msgPack s).complete := rfl

theorem genpoly_complete (n : Nat) (s : State) : genpoly n s.complete = (genpoly n s).complete := rfl

theorem rsDivide_complete (n len : Nat) (s : State) : rsDivide n len s.complete = (rsDivide n len s).complete := rfl

theorem buildSteps_complete (s : State) : buildSteps s.complete = (buildSteps s).complete := by
  rw [buildSteps_def, buildSteps_def, inner_mtxFinder.status, inner_mtxSeparator.status, inner_mtxAlign.status,
    inner_mtxTiming.status, inner_mtxDark.status, inner_mtxReserve.status, (inner_mtxPlace _).status, inner_mtxMask.status, inner_mtxFormat.status]
  rfl

theorem built_complete (s : State) : built s.complete = (built s).complete := by
  unfold built
  have : ∀ v a f, mtxInit v a (s.complete.setFormat f) = (mtxInit v a (s.setFormat f)).complete := fun _ _ _ => rfl
  rw [this, buildSteps_complete]; rfl

end Sys2Proof.Machine
end

