-- ==== Sys2Proof/Tests/Slice0.lean ====
section
/-! SUPPORT. Tests. Expected values come from the spec: words from 30_encoding.md R82 and 95_test_vectors.md, results from
95_test_vectors.md T2 to T28 and the printed tables. Then, for every obligation with hypotheses, a witness that they can be
met. -/

namespace Sys2Proof.Tests
set_option Elab.async false
open Sys2Proof Sys2Proof.Machine

/-! ### Decoding: words written out field by field from 30_encoding.md R82 -/

/-- A word from its four bytes, opcode first (30_encoding.md R80). -/
def bytesWord (opcode a b c : Nat) : Word := BitVec.ofNat 32 (opcode * 16777216 + a * 65536 + b * 256 + c)

theorem test_decode_gf :
    decode 0b00010000_00000000_00000000_00000000 = .ok .gfBuild ∧
    decode 0b00010001_00001000_00000000_00000000 = .ok (.gfExp 8) ∧
    decode 0b00010010_00011101_00000000_00000000 = .ok (.gfLog 0x1D) ∧
    decode 0b00010011_11001000_01100100_00000000 = .ok (.gfExpadd 200 100) := by decide

theorem test_decode_rs :
    decode 0b00100000_00000111_00000000_00000000 = .ok (.rsGenpoly 7) ∧
    decode 0b00100001_00010001_00000000_00001001 = .ok (.rsGenerate 17 9) ∧
    decode 0b00100001_11111110_00000001_00000000 = .ok (.rsGenerate 254 256) := by decide

theorem test_decode_fmt : decode 0b00110000_00000001_00000011_00000110 = .ok (.fmtGenerate 1 3 6) := by decide

theorem test_decode_msg :
    decode 0b01000000_00000000_00000000_01101011 = .ok (.flavorSelect 107) ∧
    decode 0b01000000_00000000_11111111_11111111 = .ok (.flavorSelect 65535) ∧
    decode 0b01000001_00000000_00000000_00000000 = .ok .msgPack := by decide

theorem test_decode_mtx :
    decode 0b01010000_00000010_00010010_00000000 = .ok (.mtxInit 2 18) ∧
    decode 0b01010001_00000000_00000000_00000000 = .ok .mtxFinder ∧
    decode 0b01010010_00000000_00000000_00000000 = .ok .mtxSeparator ∧
    decode 0b01010011_00000000_00000000_00000000 = .ok .mtxAlign ∧
    decode 0b01010100_00000000_00000000_00000000 = .ok .mtxTiming ∧
    decode 0b01010101_00000000_00000000_00000000 = .ok .mtxDark ∧
    decode 0b01010110_00000000_00000000_00000000 = .ok .mtxReserve ∧
    decode 0b01010111_00000000_00000001_10010000 = .ok (.mtxPlace 400) ∧
    decode 0b01011000_00000000_00000000_00000000 = .ok .mtxMask ∧
    decode 0b01011001_00000000_00000000_00000000 = .ok .mtxFormat ∧
    decode 0b01011111_00000000_00000000_00000000 = .ok .mtxBuild := by decide

theorem test_decode_pipeline : decode 0b01100000_00000000_00000000_00001011 = .ok (.encode 11) := by decide

/-- T28, 30_encoding.md R83: unused opcodes, and a field that must be zero in each format. -/
theorem test_decode_illegal :
    decode 0x00000000 = .error (.unusedOpcode 0x00) ∧ decode 0xFFFFFFFF = .error (.unusedOpcode 0xFF) ∧
    decode 0x14000000 = .error (.unusedOpcode 0x14) ∧ decode 0x5A000000 = .error (.unusedOpcode 0x5A) ∧
    decode 0x10000001 = .error (.reservedFieldNotZero 0x10) ∧ decode 0x11080100 = .error (.reservedFieldNotZero 0x11) ∧
    decode 0x13C86401 = .error (.reservedFieldNotZero 0x13) ∧ decode 0x40010000 = .error (.reservedFieldNotZero 0x40) ∧
    decode 0x5F000100 = .error (.reservedFieldNotZero 0x5F) ∧ decode 0x60010000 = .error (.reservedFieldNotZero 0x60) := by
  decide

/-- Table words: 32 bits, bit 0 the least significant. -/
theorem test_decodeTableWord :
    decodeTableWord 32 0x57000064 = some (.mtxPlace 100) ∧ decodeTableWord 32 0x10000001 = none := by decide

/-! ### WellFormed: an ill-formed term for each check, and the bounds it lets through (T8, T10, T11, T13) -/

theorem test_wf_rs :
    (Instr.rsGenpoly 6).wellFormed = false ∧ (Instr.rsGenpoly 255).wellFormed = false ∧
    (Instr.rsGenpoly 7).wellFormed = true ∧ (Instr.rsGenpoly 254).wellFormed = true ∧
    (Instr.rsGenerate 6 9).wellFormed = false ∧ (Instr.rsGenerate 255 9).wellFormed = false ∧
    (Instr.rsGenerate 17 257).wellFormed = false ∧ (Instr.rsGenerate 254 256).wellFormed = true := by decide

theorem test_wf_fmt :
    (Instr.fmtGenerate 0 0 0).wellFormed = false ∧ (Instr.fmtGenerate 41 0 0).wellFormed = false ∧
    (Instr.fmtGenerate 1 4 0).wellFormed = false ∧ (Instr.fmtGenerate 1 0 8).wellFormed = false ∧
    (Instr.fmtGenerate 40 3 7).wellFormed = true := by decide

theorem test_wf_msg :
    (Instr.flavorSelect 107).wellFormed = false ∧ (Instr.flavorSelect 106).wellFormed = true ∧
    (Instr.encode 107).wellFormed = false ∧ (Instr.encode 0).wellFormed = true := by decide

theorem test_wf_mtx :
    (Instr.mtxInit 0 0).wellFormed = false ∧ (Instr.mtxInit 6 0).wellFormed = false ∧
    (Instr.mtxInit 1 1).wellFormed = false ∧ (Instr.mtxInit 1 19).wellFormed = false ∧
    (Instr.mtxInit 1 18).wellFormed = true ∧ (Instr.mtxInit 1 0).wellFormed = true := by decide

/-! ### Small states, and one step on them -/

/-- The state after one step that takes a command, if there is one. -/
def after (s : State) (w : Word) : Option State :=
  match step { s with inbox := [.command w] } with
  | .next t => some t
  | .fault _ => none
  | .refused _ => none

/-- What a register reads after one command. -/
def regAfter (s : State) (w : Word) (n : Nat) : Option Nat := (after s w).map fun t => (csrRead t n).toNat

/-- A table as a memory. -/
def asMemory (l : List Byte) : Memory := l.zipIdx.map fun e => (e.2, e.1)

/-- After `GF_BUILD`: the tables printed in 40_gf.md R102. -/
def tabled : State :=
  { State.reset with
    flags := ⟨true, false, false⟩, gfExp := asMemory Reference.expTable, gfLog := asMemory Reference.logTable }

/-- `tabled` with the golden message of T5 in `CW[0..8]`. -/
def goldenMessage : State := tabled.store .cw 0 [0x40, 0x00, 0xEC, 0x11, 0xEC, 0x11, 0xEC, 0x11, 0xEC]

/-- Row 0 selected for the text "A" (T12). -/
def selectedA : State :=
  { State.reset.store .payload 0 [0x41] with
    payloadLen := 1, flavor := ⟨7, 1, 3, 17, 0⟩, flags := ⟨false, true, false⟩ }

/-- After `MTX_INIT 1, 0`. -/
def version1 : State := (mtxInit 1 0 State.reset).complete

/-- After `MTX_INIT 2, 18`. -/
def version2 : State := (mtxInit 2 18 State.reset).complete

/-- `version1` with the byte 40 as the whole stream (T16 begins so). -/
def streamed : State := { version1.store .cw 0 [0x40] with cwTotalLen := 1 }

/-- The values of a row of the matrix as a binary number, column 0 the most significant bit (95_test_vectors.md). -/
def rowValue (s : State) (r : Nat) : Nat :=
  (List.range s.size).foldl (fun acc c => 2 * acc + (s.cell r c).value.toNat) 0

/-- The number of taken cells of a row. -/
def rowTaken (s : State) (r : Nat) : Nat := ((List.range s.size).filter fun c => (s.cell r c).taken).length

/-- 00_scope.md R8: the parameters, as its table prints them. -/
theorem test_parameters :
    Config.gfPoly = 0x11D ∧ Config.gfTableLen = 256 ∧ (Config.ecMin, Config.ecMax) = (7, 254) ∧ Config.msgMax = 256 ∧
    Config.fmtGen15 = 0x537 ∧ Config.fmtMask15 = 0x5412 ∧ Config.fmtGen18 = 0x1F25 ∧ Config.modeByte = 4 ∧
    (Config.pad0, Config.pad1) = (0xEC, 0x11) ∧ Config.maxPayload = 106 ∧ Config.flavorCount = 11 ∧
    (Config.mtxVersionMin, Config.mtxVersionMax) = (1, 5) ∧
    [1, 2, 3, 4, 5].map Config.symbolSize = [21, 25, 29, 33, 37] ∧ Config.sizeMax = 37 ∧ Config.maskId = 6 ∧
    Config.fmtVersionMax = 40 := by decide

/-- T2, 40_gf.md R102: the printed `GF_EXP`, and a logarithm. -/
theorem test_gfBuild :
    (after State.reset 0x10000000).map (fun t => (t.gfExp == tabled.gfExp, (t.read .gfLog 3).toNat)) = some (true, 25) := by
  decide +kernel

/-- T4, T24: refused before `GF_BUILD`, 0x1D after it. -/
theorem test_gfExp :
    regAfter State.reset 0x11080000 0 = some 1 ∧ regAfter State.reset 0x11080000 1 = some 0 ∧
    regAfter tabled 0x11080000 1 = some 0x1D ∧ regAfter tabled 0x11FF0000 1 = some 1 := by decide +kernel

/-- T4, T24. -/
theorem test_gfLog :
    regAfter State.reset 0x121D0000 0 = some 1 ∧ regAfter tabled 0x121D0000 1 = some 8 ∧
    regAfter tabled 0x12000000 1 = some 0 ∧ regAfter tabled 0x12010000 1 = some 0 := by decide +kernel

/-- T3: with and without a carry, at both ends. -/
theorem test_gfExpadd :
    regAfter State.reset 0x13C86400 1 = some 45 ∧ regAfter State.reset 0x13649B00 1 = some 255 ∧
    regAfter State.reset 0x13FE0200 1 = some 1 ∧ regAfter State.reset 0x13FFFF00 1 = some 255 := by decide +kernel

/-- 41_rs.md R130, degree 7; T8. -/
theorem test_rsGenpoly :
    (after tabled 0x20070000).map (fun t => ((t.block .gen 0 8).map BitVec.toNat, t.genLen.toNat)) =
      some ([0, 87, 229, 146, 149, 238, 102, 21], 8) ∧
    regAfter tabled 0x20060000 0 = some 1 ∧ regAfter State.reset 0x20070000 0 = some 1 := by decide +kernel

/-- T5, the golden vector. -/
theorem test_rsGenerate_golden :
    (after goldenMessage 0x21110009).map (fun t => (t.block .cw 9 17).map BitVec.toNat) =
      some [0x6D, 0x99, 0xF8, 0xE5, 0x4A, 0x68, 0x67, 0x8E, 0x79, 0x8A, 0x72, 0xAA, 0xA3, 0x82, 0x3E, 0xDD, 0x9A] := by
  decide +kernel

/-- T8: the refusals, and the empty message. -/
theorem test_rsGenerate_bounds :
    regAfter tabled 0x21060009 0 = some 1 ∧ regAfter tabled 0x21110101 0 = some 1 ∧
    regAfter tabled 0x21070000 0 = some 0 ∧ regAfter tabled 0x21070000 0x0B = some 7 ∧
    (after tabled 0x21070000).map (fun t => (t.block .cw 0 7).map BitVec.toNat) = some [0, 0, 0, 0, 0, 0, 0] := by
  decide +kernel

/-- T9: the two branches. -/
theorem test_fmtGenerate :
    regAfter State.reset 0x30010306 0x0D = some 0x00D0C ∧ regAfter State.reset 0x30010000 0x0D = some 0x077C4 ∧
    regAfter State.reset 0x30070000 0x0D = some 0x07C94 ∧ regAfter State.reset 0x30280000 0x0D = some 0x28C69 := by
  decide +kernel

/-- T10. -/
theorem test_fmtGenerate_refused :
    regAfter State.reset 0x30000000 0 = some 1 ∧ regAfter State.reset 0x30290000 0 = some 1 ∧
    regAfter State.reset 0x30010400 0 = some 1 ∧ regAfter State.reset 0x30010008 0 = some 1 ∧
    regAfter State.reset 0x30070400 0 = some 1 := by decide +kernel

/-- T11: `FLAVOR_SELECT 18`. -/
theorem test_flavorSelect :
    (after State.reset 0x40000012).map (fun t => [2, 3, 4, 5, 6, 7, 8, 9].map fun n => (csrRead t n).toNat) =
      some [2, 18, 4, 20, 2, 2, 22, 18] := by decide +kernel

/-- T11: the boundary 106, 107 and the largest operand. -/
theorem test_flavorSelect_bounds :
    regAfter State.reset 0x4000006A 4 = some 10 ∧ regAfter State.reset 0x4000006B 0 = some 3 ∧
    regAfter State.reset 0x4000FFFF 0 = some 3 ∧ regAfter State.reset 0x4000FFFF 3 = some 0 := by decide +kernel

/-- T12, second line. -/
theorem test_msgPack :
    (after selectedA 0x41000000).map (fun t => ((t.block .cw 0 9).map BitVec.toNat, t.cwDataLen.toNat, t.cwTotalLen.toNat)) =
      some ([0x40, 0x14, 0x10, 0xEC, 0x11, 0xEC, 0x11, 0xEC, 0x11], 9, 9) ∧
    regAfter State.reset 0x41000000 0 = some 1 := by decide +kernel

/-- T13. -/
theorem test_mtxInit :
    (after State.reset 0x50051E00).map (fun t => [0, 0x10, 0x11, 0x12, 0x13, 0x14, 0x15, 0x16, 0x17].map fun n => (csrRead t n).toNat) =
      some [0, 5, 37, 30, 36, 36, 0, 0, 0] ∧
    regAfter State.reset 0x50060000 0 = some 1 ∧ regAfter State.reset 0x50010100 0 = some 1 ∧
    regAfter State.reset 0x50011300 0 = some 1 ∧ regAfter State.reset 0x50011200 0 = some 0 := by decide +kernel

/-- T14, the picture of version 1: rows 0, 3, 5 and 14 hold the finders. -/
theorem test_mtxFinder :
    (after version1 0x51000000).map (fun t => [0, 3, 5, 7, 14].map (rowValue t)) =
      some [0x1FC07F, 0x17405D, 0x104041, 0, 0x1FC000] ∧
    regAfter State.reset 0x51000000 0 = some 1 := by decide +kernel

/-- T14: 45 cells taken by the separators alone, all light. -/
theorem test_mtxSeparator :
    (after version1 0x52000000).map (fun t => [0, 6, 7, 8, 13, 14].map fun r => (rowTaken t r, rowValue t r)) =
      some [(2, 0), (2, 0), (16, 0), (0, 0), (8, 0), (1, 0)] := by decide +kernel

/-- T15: rows 15 to 21 of version 2 round the alignment pattern; nothing for the centre 0. -/
theorem test_mtxAlign :
    (after version2 0x53000000).map (fun t => [15, 16, 17, 18, 19, 20, 21].map (rowValue t)) =
      some [0, 0x1F0, 0x110, 0x150, 0x110, 0x1F0, 0] ∧
    (after version1 0x53000000).map (fun t => t.matrix) = some [] := by decide +kernel

/-- T14: the dark timing cells (6,8), (6,10), (6,12), (8,6), (10,6), (12,6). -/
theorem test_mtxTiming :
    (after version1 0x54000000).map (fun t => [6, 7, 8, 9, 10, 12, 13].map fun r => (rowTaken t r, rowValue t r)) =
      some [(5, 0x1500), (0, 0), (1, 0x4000), (1, 0), (1, 0x4000), (1, 0x4000), (0, 0)] := by decide +kernel

/-- T14: the dark module (13, 8). -/
theorem test_mtxDark :
    (after version1 0x55000000).map (fun t => [12, 13, 14].map fun r => (rowTaken t r, rowValue t r)) =
      some [(0, 0), (1, 0x1000), (0, 0)] := by decide +kernel

/-- 44_matrix.md R191: 33 cells, no value changed. -/
theorem test_mtxReserve :
    (after version1 0x56000000).map (fun t => [0, 7, 8, 9, 13, 20].map fun r => (rowTaken t r, rowValue t r)) =
      some [(1, 0), (1, 0), (17, 0), (0, 0), (1, 0), (1, 0)] := by decide +kernel

/-- T16: the byte 40 goes to (20,20), (20,19), (19,20), ... , (17,19), and the walk stands at (16,20). -/
theorem test_mtxPlace :
    (after streamed 0x57000008).map (fun t => [20, 19, 18, 17, 16].map fun r => (rowTaken t r, rowValue t r)) =
      some [(2, 1 * 2), (2, 0), (2, 0), (2, 0), (0, 0)] ∧
    (after streamed 0x57000008).map (fun t => [0x13, 0x14, 0x15, 0x16, 0x17].map fun n => (csrRead t n).toNat) =
      some [16, 20, 0, 0, 8] := by decide +kernel

/-- 44_matrix.md R197: a placement past the end of the stream stops without an error. -/
theorem test_mtxPlace_stops :
    regAfter streamed 0x5700FFFF 0x17 = some 8 ∧ regAfter streamed 0x5700FFFF 0 = some 0 := by decide +kernel

/-- 44_matrix.md R200, R201: a data cell of row 1 (by c mod 6), a free cell of row 2 (by c mod 3), a structural cell. -/
theorem test_mtxMask :
    [0, 1, 2, 3, 4, 5].map (fun c => (maskModule (1, c) ⟨false, true, true⟩).value) = [true, true, true, false, false, false] ∧
    [0, 1, 2].map (fun c => (maskModule (2, c) ⟨false, false, false⟩).value) = [true, true, false] ∧
    maskModule (0, 0) ⟨false, true, false⟩ = ⟨false, true, false⟩ ∧
    regAfter version1 0x58000000 0 = some 0 ∧ regAfter State.reset 0x58000000 0 = some 1 := by decide +kernel

/-- 44_matrix.md R203: `FORMAT` = 1 puts bit 0 at (0, 8) and (8, 20); bit 14 goes to (8, 0) and (20, 8). -/
theorem test_mtxFormat :
    (after { version1 with format := 1 } 0x59000000).map (fun t => [0, 8, 20].map (rowValue t)) =
      some [0x1000, 1, 0] ∧
    (after { version1 with format := 0x4000 } 0x59000000).map (fun t => [0, 8, 20].map (rowValue t)) =
      some [0, 0x100000, 0x1000] := by decide +kernel

/-- T28: refused without a flavor. T25: with row 0 selected the symbol is version 1, `FORMAT` 00D0C, `FLAGS` 6. -/
theorem test_mtxBuild :
    regAfter State.reset 0x5F000000 0 = some 1 ∧
    (after selectedA 0x5F000000).map (fun t => [0x0D, 0x11, 2].map fun n => (csrRead t n).toNat) =
      some [0x00D0C, 21, 6] := by decide +kernel

/-- T26, T28: refusals of `ENCODE`; T25: the registers of `ENCODE 0` that need no table. -/
theorem test_encode :
    regAfter State.reset 0x600000C8 0 = some 3 ∧ regAfter State.reset 0x6000006B 2 = some 0 ∧
    (after State.reset 0x60000000).map (fun t => [0, 2, 0x0D, 0x0C].map fun n => (csrRead t n).toNat) =
      some [0, 7, 0x00D0C, 18] := by decide +kernel

/-- T28: illegal words. -/
theorem test_illegal :
    regAfter State.reset 0x00000000 0 = some 5 ∧ regAfter State.reset 0x10000001 0 = some 5 ∧
    regAfter State.reset 0x40010000 0 = some 5 ∧ regAfter State.reset 0xFFFFFFFF 0 = some 5 := by decide +kernel

/-- 20_memory.md R61: writes outside `PAYLOAD` and `CW` are ignored. -/
theorem test_hostWrite :
    (hostRead (hostWrite 1 105 0x5A State.reset) 1 105).toNat = 0x5A ∧ hostWrite 1 106 0x5A State.reset = State.reset ∧
    hostWrite 2 512 0x5A State.reset = State.reset ∧ hostWrite 0 0 5 State.reset = State.reset ∧
    hostWrite 6 0 1 State.reset = State.reset := by decide +kernel

/-! ### Witnesses: for every obligation with hypotheses, a state and operands that meet them, and for every clause over a
range its ends -/

theorem find_asMemory (l : List Byte) (n i : Nat) :
    Sparse.find ((l.zipIdx n).map fun e => (e.2, e.1)) (n + i) = l[i]? := by
  induction l generalizing n i with
  | nil => rfl
  | cons b rest ih =>
    rw [List.zipIdx_cons, List.map_cons, Sparse.find]
    cases i with
    | zero => simp
    | succ i => rw [if_neg (by simp), List.getElem?_cons_succ, ← ih (n + 1) i]; congr 1; omega

theorem tabled_ready : tablesReady tabled := by
  refine ⟨rfl, fun _ i => ?_⟩
  have h (l : List Byte) (hl : l.length = 256) (f : Byte) :
      (Sparse.find (asMemory l) i.toNat).getD f = l.getD i.toNat 0 := by
    have := find_asMemory l 0 i.toNat
    rw [Nat.zero_add] at this
    rw [asMemory, this, List.getD_eq_getElem?_getD, List.getElem?_eq_getElem (by rw [hl]; exact i.isLt)]; rfl
  exact ⟨(if_pos i.isLt).trans (h _ (by decide +kernel) _), (if_pos i.isLt).trans (h _ (by decide +kernel) _)⟩

/-- A state a host can reach but for the contents of its matrix: tables built, row 4 selected for an 18-byte text, the
matrix of version 2 begun, with a structural and a data cell, and the symbol finished. -/
def busy : State :=
  { tabled with
    status := .textTooLong, flags := ⟨true, true, true⟩, payloadLen := 18, flavorIdx := 4, flavor := ⟨20, 2, 2, 22, 18⟩
    cwDataLen := 22, cwTotalLen := 44, genLen := 23
    mtxVersion := 2, mtxSize := 25, mtxAlign := 18, cursor := ⟨24, 24, .up, false⟩
    cw := [(0, 0x41), (43, 7)], matrix := [(0, ⟨true, true, false⟩), (65, ⟨false, true, true⟩), (70, ⟨true, false, false⟩)] }

theorem busy_inv : Inv busy where
  memories := fun sp => by cases sp <;> decide +kernel
  grid := by decide
  status := by decide
  tables := fun _ i => tabled_ready.2 rfl i
  selection := by unfold selectionConsistent; decide
  lengths := by unfold lengthsLegal; decide
  geometry := .inr ⟨by decide, by decide, by decide, by decide, .inr ⟨by decide, 0, by decide⟩⟩
  cells := dataCellsTaken_of_all (by decide)
  finished := by decide

theorem busy_hasMatrix : hasMatrix busy := by decide

/-- `busy` with the cursor on a left column and part of the stream placed. -/
def walking : State := { busy with cursor := ⟨16, 17, .down, true⟩, bitpos := 100 }

theorem walking_cursor : walking.cursor.legal walking.size := .inr ⟨by decide, 3, by decide⟩

/-- The ends of the versions, with and without an alignment pattern, meet `geometryLegal` and `hasMatrix`. -/
theorem witness_geometry :
    geometryLegal version1 ∧ hasMatrix version1 ∧ geometryLegal busy ∧
    geometryLegal (mtxInit 5 34 State.reset) ∧ hasMatrix (mtxInit 5 34 State.reset) ∧
    geometryLegal (mtxInit 1 2 State.reset) := by
  refine ⟨.inr ⟨by decide, by decide, by decide, by decide, .inr ⟨by decide, 0, by decide⟩⟩, by decide,
    busy_inv.geometry, .inr ⟨by decide, by decide, by decide, by decide, .inr ⟨by decide, 0, by decide⟩⟩, by decide,
    .inr ⟨by decide, by decide, by decide, by decide, .inr ⟨by decide, 0, by decide⟩⟩⟩

theorem witness_EncodeOfDecodeGivesTheWordBack : decode 0x21FE0100 = .ok (.rsGenerate 254 256) := by decide

theorem witness_StepRunsTheDecodedCommand :
    ∃ s : State, s.inbox = .command 0x51000000 :: [.read 0 0] ∧ decode 0x51000000 = .ok .mtxFinder :=
  ⟨{ busy with inbox := [.command 0x51000000, .read 0 0] }, rfl, by decide⟩

theorem witness_IllegalWordIsRefusedWithCodeFive :
    ∃ s : State, s.inbox = [.command 0x5F000100] ∧ ∀ r ∈ Reference.opcodeRows, r.accepts 0x5F000100 = false :=
  ⟨{ busy with inbox := [.command 0x5F000100] }, rfl, by decide⟩

theorem witness_ReadingAndWaitingChangeNoRegister :
    busy.inbox = [] ∧ ∃ s : State, s.inbox = .read 6 1300 :: [.reset] :=
  ⟨rfl, { busy with inbox := [.read 6 1300, .reset] }, rfl⟩

/-- Each clause of `ReadOutsideASpaceIsZero` at its first index, and in a state with a symbol. -/
theorem witness_ReadOutsideASpaceIsZero :
    [(0, 0x18), (1, 106), (2, 512), (3, 255), (4, 256), (5, 256), (6, 4096), (6, 25 * 64), (6, 25), (7, 0)].all
      (fun a => hostRead busy a.1 a.2 == 0) = true ∧ busy.size ≤ (25 * 64) / 64 ∧ busy.size ≤ 25 % 64 := by
  decide +kernel

theorem witness_HostWriteIsReadBack :
    ∃ s t : State, s.inbox = [.write 1 105 9] ∧ t.inbox = [.write 2 511 9] ∧
      ((1 = 1 ∧ 105 < 106) ∨ (1 = 2 ∧ 105 < 512)) ∧ ((2 = 1 ∧ 511 < 106) ∨ (2 = 2 ∧ 511 < 512)) :=
  ⟨{ busy with inbox := [.write 1 105 9] }, { busy with inbox := [.write 2 511 9] }, rfl, rfl, by decide, by decide⟩

theorem witness_HostWriteElsewhereIsIgnored :
    ∀ a ∈ [(0, 0), (1, 106), (2, 512), (3, 0), (4, 0), (5, 0), (6, 0), (7, 0)],
      ∃ s : State, s.inbox = [.write a.1 a.2 9] ∧ ¬((a.1 = 1 ∧ a.2 < 106) ∨ (a.1 = 2 ∧ a.2 < 512)) :=
  fun a ha => ⟨{ busy with inbox := [.write a.1 a.2 9] }, rfl, by revert a; decide⟩

theorem witness_ResetPutsTheResetState : ∃ s : State, s.inbox = .reset :: [.read 0 2] :=
  ⟨{ busy with inbox := [.reset, .read 0 2] }, rfl⟩

/-- 60_exceptions.md R240, the printed codes; 40_gf.md R102: entry 8 of `GF_EXP` (space 4) is 1D and entry 1D of `GF_LOG`
(space 5) is 08. The last column meets the bound of the statement. -/
theorem witness_RegistersReadAtTheirNumbers :
    [Status.ok, .invalidParameter, .outOfMemory, .textTooLong, .ioError, .illegalCommand].map
      (fun c => (hostRead (busy.raise c) 0 0).toNat) = [0, 1, 2, 3, 4, 5] ∧
    (hostRead tabled 4 8).toNat = 0x1D ∧ (hostRead tabled 5 0x1D).toNat = 8 ∧
    (hostRead (busy.store .gen 254 [9]) 3 254).toNat = 9 ∧ (hostRead busy 6 (1 * 64 + 1)).toNat = 6 ∧
    (63 < 64 ∧ hostRead busy 6 (1 * 64 + 63) = 0) := by decide +kernel

theorem witness_RefusedCommandChangesOnlyStatus :
    ∃ s t : State, s.inbox = .command 0x20FF0000 :: [] ∧ step s = .next t ∧ t.status ≠ .ok :=
  ⟨{ busy with inbox := [.command 0x20FF0000] }, _, rfl, rfl, by decide⟩

theorem witness_CommandEndsWithTheStatusOfTheRules : Inv busy := busy_inv

theorem witness_CommandWritesOnlyItsParts :
    ∃ t, exec .mtxFinder busy = .next t ∧ Part.cursor ∉ writtenParts .mtxFinder := ⟨_, rfl, by decide⟩

theorem witness_FlagsAreSetAndClearedByTheirCommands :
    ∃ t, exec (.fmtGenerate 1 3 6) busy = .next t ∧ t.status = .ok := ⟨_, rfl, by decide⟩

theorem witness_StepKeepsTheInvariant :
    ∃ s t : State, s.inbox = [.command 0x58000000] ∧ Inv s ∧ step s = .next t :=
  ⟨{ busy with inbox := [.command 0x58000000] }, _, rfl,
    ⟨busy_inv.memories, busy_inv.grid, busy_inv.status, busy_inv.tables, busy_inv.selection, busy_inv.lengths,
      busy_inv.geometry, busy_inv.cells, busy_inv.finished⟩, rfl⟩

theorem witness_TakenCellsStayTaken :
    ∃ t, exec .mtxTiming busy = .next t ∧ (busy.cell 0 0).taken = true ∧ (busy.cell 1 1).isData = true :=
  ⟨_, rfl, by decide, by decide⟩

theorem witness_FieldLookupsReturnTheTableEntry :
    tablesBuilt tabled ∧ tablesBuilt State.reset ∧ State.reset.flags.gfValid = false :=
  ⟨tabled_ready.2, fun h => by simp [State.reset] at h, rfl⟩

theorem witness_LogThenExpReturnsEveryNonzeroByte : tablesReady tabled := tabled_ready

/-- The ends of the ranges of `ec_count` and `msg_len`, for every obligation about the generator or the division. -/
theorem witness_division :
    tablesReady tabled ∧ tabled.flags.gfValid = true ∧
    7 ≤ (7 : Byte).toNat ∧ (7 : Byte).toNat ≤ 254 ∧ 7 ≤ (254 : Byte).toNat ∧ (254 : Byte).toNat ≤ 254 ∧
    (0 : BitVec 16).toNat ≤ 256 ∧ (256 : BitVec 16).toNat ≤ 256 ∧ (255 : BitVec 16).toNat + 1 ≤ 256 :=
  ⟨tabled_ready, rfl, by decide, by decide, by decide, by decide, by decide, by decide, by decide⟩

theorem witness_GenpolyGivesThePrintedGenerators : [0, 87, 229, 146, 149, 238, 102, 21] ∈ Reference.generators := by decide

theorem witness_CheckBytesDependOnTheMessageAlone :
    ∃ s t t', s ≠ tabled ∧ tablesReady s ∧ s.block .cw 0 0 = tabled.block .cw 0 0 ∧
      exec (.rsGenerate 7 0) s = .next t ∧ exec (.rsGenerate 7 0) tabled = .next t' :=
  ⟨{ tabled with result := 1 }, _, _, by decide +kernel, ⟨rfl, tabled_ready.2⟩, rfl, rfl, rfl⟩

theorem witness_CheckBytesAreLinear :
    ∃ t t' t'', (tabled.store .cw 0 [1, 1]).block .cw 0 2 =
        List.zipWith (· ^^^ ·) ((tabled.store .cw 0 [1, 0]).block .cw 0 2) ((tabled.store .cw 0 [0, 1]).block .cw 0 2) ∧
      exec (.rsGenerate 7 2) (tabled.store .cw 0 [1, 0]) = .next t ∧
      exec (.rsGenerate 7 2) (tabled.store .cw 0 [0, 1]) = .next t' ∧
      exec (.rsGenerate 7 2) (tabled.store .cw 0 [1, 1]) = .next t'' :=
  ⟨_, _, _, by decide, rfl, rfl, rfl⟩

theorem witness_LeadingZeroIsPassedOver :
    ∃ t t', (tabled.store .cw 0 [0, 0x80]).block .cw 0 (1 + 1) = 0 :: (tabled.store .cw 0 [0x80]).block .cw 0 1 ∧
      exec (.rsGenerate 7 1) (tabled.store .cw 0 [0x80]) = .next t ∧
      exec (.rsGenerate 7 (1 + 1)) (tabled.store .cw 0 [0, 0x80]) = .next t' :=
  ⟨_, _, by decide, rfl, rfl⟩

theorem witness_ZeroMessageHasZeroCheckBytes :
    (tabled.store .cw 0 [0, 0, 0]).block .cw 0 3 = List.replicate 3 0 ∧ tabled.block .cw 0 0 = List.replicate 0 0 := by
  decide

theorem witness_GoldenVectorOfTheDivision :
    goldenMessage.block .cw 0 9 = [0x40, 0x00, 0xEC, 0x11, 0xEC, 0x11, 0xEC, 0x11, 0xEC] := by decide

theorem witness_lengths :
    (0 : BitVec 16).toNat ≤ 106 ∧ (106 : BitVec 16).toNat ≤ 106 ∧ 106 < (107 : BitVec 16).toNat ∧
    106 < (65535 : BitVec 16).toNat := by decide

/-- T11: both ends of every row. -/
theorem witness_DefaultTableRowsByLength :
    State.reset.flavors = Config.defaultTable ∧
    [(0, 7, 0), (8, 11, 1), (12, 14, 2), (15, 17, 3), (18, 20, 4), (21, 26, 5), (27, 32, 6), (33, 42, 7),
      (43, 53, 8), (54, 78, 9), (79, 106, 10)].all (fun row =>
        decide (leastRow Config.defaultTable row.1 = row.2.2 ∧ leastRow Config.defaultTable row.2.1 = row.2.2)) = true :=
  ⟨rfl, by decide⟩

theorem witness_PackedStreamIsTheNibbleStream :
    selectedA.flags.flavorValid = true ∧ selectedA.payloadLen.toNat ≤ selectedA.flavor.capacity.toNat ∧
    (106 : BitVec 8).toNat ≤ (106 : BitVec 8).toNat := by decide

/-- Operands at both ends of the ranges of `InitClearsTheGridAndTheWalk`, and one beyond each. -/
theorem witness_InitClearsTheGridAndTheWalk :
    [((1 : Byte), (0 : Byte)), (1, 2), (1, 18), (5, 0), (5, 34)].all (fun a => (Instr.mtxInit a.1 a.2).wellFormed) = true ∧
    [((0 : Byte), (0 : Byte)), (1, 1), (1, 19), (5, 35), (6, 0)].all (fun a => !(Instr.mtxInit a.1 a.2).wellFormed) = true := by
  decide

theorem witness_FreeCellsBeforePlacement :
    [((1 : Byte), (0 : Byte), 21, 233, 208), (5, 30, 37, 290, 1079)].all (fun e =>
      [(1, 0, 21, 233, 208), (2, 18, 25, 266, 359), (3, 22, 29, 274, 567), (4, 26, 33, 282, 807), (5, 30, 37, 290, 1079)].contains
        (e.1.toNat, e.2.1.toNat, e.2.2)) = true := by decide

theorem witness_AdvanceFollowsTheVisitingOrder : 1 ≤ 1 ∧ 1 ≤ 5 ∧ 0 < 21 * (21 - 1) ∧ 5 ≤ 5 := by decide

theorem witness_PlacementWritesOnlyFreeCells : hasMatrix walking ∧ hasMatrix version1 := by decide

theorem witness_PlacementInPartsIsPlacementAtOnce :
    Inv busy ∧ hasMatrix busy ∧ (65535 : BitVec 16).toNat + (0 : BitVec 16).toNat < 65536 :=
  ⟨busy_inv, busy_hasMatrix, by decide⟩

/-- The start of the walk, a left column in the middle of it, and its end. -/
theorem witness_PlacementFillsTheFreeCellsInOrder :
    Inv busy ∧ hasMatrix busy ∧ busy.cursor = ⟨busy.mtxSize - 1, busy.mtxSize - 1, .up, false⟩ ∧
    walking.cursor = (Cursor.advance 25)^[183] ⟨24, 24, .up, false⟩ ∧ 183 ≤ 25 * (25 - 1) ∧
    (⟨24, 63, .up, false⟩ : Cursor) = (Cursor.advance 25)^[25 * (25 - 1)] ⟨24, 24, .up, false⟩ :=
  ⟨busy_inv, busy_hasMatrix, rfl, by decide +kernel, by decide, by decide +kernel⟩

theorem witness_EveryPlacedBitMakesOneDataCell : Inv busy ∧ hasMatrix busy := ⟨busy_inv, busy_hasMatrix⟩

theorem witness_MaskTwiceRestoresTheMatrix : Inv busy ∧ hasMatrix busy := ⟨busy_inv, busy_hasMatrix⟩

theorem witness_BuildIsTheNineSteps : Inv busy ∧ busy.flags.flavorValid = true := ⟨busy_inv, rfl⟩

theorem witness_EncodeDependsOnTheTextAlone :
    ∃ s : State, s ≠ busy ∧ s.flavors = busy.flavors ∧ s.block .payload 0 18 = busy.block .payload 0 18 :=
  ⟨walking, by decide +kernel, rfl, rfl⟩

theorem witness_EncodePlacesEveryStreamBit : (18 : BitVec 16).toNat ≤ 106 ∧ busy.flavors = Config.defaultTable :=
  ⟨by decide, rfl⟩

end Sys2Proof.Tests
end

/-! ## Cells over the commands: what is taken stays taken

One relation between a module before and after says everything the statements need of the matrix: `taken` and `is_data`
are never taken back, and a module that becomes data is taken. Every operation of the matrix builder and the placement
relates each cell to what it leaves there. -/

namespace Sys2Proof.Machine

/-! ### One module -/

/-- From `m` to `m'` the flags `taken` and `is_data` are not taken back, and only a taken module becomes a data cell
(00_scope.md R16). -/
structure QrModule.GrowsTo (m m' : QrModule) : Prop where
  taken  : m.taken = true → m'.taken = true
  isData : m.isData = true → m'.isData = true
  fresh  : m'.isData = true → m.isData = true ∨ m'.taken = true

theorem QrModule.GrowsTo.refl (m : QrModule) : m.GrowsTo m := ⟨id, id, .inl⟩

theorem QrModule.GrowsTo.trans {m m' m'' : QrModule} (h : m.GrowsTo m') (h' : m'.GrowsTo m'') : m.GrowsTo m'' where
  taken ht := h'.taken (h.taken ht)
  isData hd := h'.isData (h.isData hd)
  fresh hd := (h'.fresh hd).elim (fun hd' => (h.fresh hd').imp_right h'.taken) .inr

theorem growsTo_stampModule (v : Bool) (m : QrModule) : m.GrowsTo (stampModule v m) :=
  ⟨fun _ => rfl, id, .inl⟩

theorem growsTo_reserveModule (m : QrModule) : m.GrowsTo (reserveModule m) := by
  rw [reserveModule_eq]; exact ⟨fun _ => rfl, id, .inl⟩

theorem growsTo_formatModule (b : Bool) (m : QrModule) : m.GrowsTo (formatModule b m) := ⟨id, id, .inl⟩

theorem growsTo_maskModule (cell : Nat × Nat) (m : QrModule) : m.GrowsTo (maskModule cell m) := by
  unfold maskModule
  split
  · exact ⟨id, id, .inl⟩
  · exact .refl m

/-! ### The matrix -/

/-- Every cell of a symbol of `size` grows from `g` to `g'`. -/
def Grid.GrowsTo (size : Nat) (g g' : Grid) : Prop := ∀ r c, (Grid.get size g r c).GrowsTo (Grid.get size g' r c)

theorem Grid.GrowsTo.refl (size : Nat) (g : Grid) : Grid.GrowsTo size g g := fun _ _ => .refl _

theorem Grid.GrowsTo.trans {size : Nat} {g g' g'' : Grid} (h : Grid.GrowsTo size g g') (h' : Grid.GrowsTo size g' g'') :
    Grid.GrowsTo size g g'' := fun r c => (h r c).trans (h' r c)

theorem Grid.growsTo_update {size : Nat} (hs : size ≤ 64) (g : Grid) (cell : Nat × Nat) {f : QrModule → QrModule}
    (hf : ∀ m : QrModule, m.GrowsTo (f m)) : Grid.GrowsTo size g (Grid.update size g cell f) := fun r c => by
  by_cases hcell : (r, c) = cell
  · subst hcell
    by_cases hin : r < size ∧ c < size
    · rw [Grid.get_update_same g r c f hin.1 hin.2]; exact hf _
    · rw [Grid.get_outside _ hin, Grid.get_outside _ hin]; exact .refl _
  · rw [Grid.get_update_other hs g f hcell]; exact .refl _

theorem Grid.growsTo_stampAll {size : Nat} (hs : size ≤ 64) (l : List ((Nat × Nat) × Bool)) (g : Grid) :
    Grid.GrowsTo size g (stampAll size l g) := by
  induction l generalizing g with
  | nil => exact .refl size g
  | cons e rest ih => exact (Grid.growsTo_update hs g e.1 (growsTo_stampModule e.2)).trans (ih _)

theorem Grid.growsTo_updateAll {size : Nat} (hs : size ≤ 64) {f : Nat × Nat → QrModule → QrModule}
    (hf : ∀ cell (m : QrModule), m.GrowsTo (f cell m)) (l : List (Nat × Nat)) (g : Grid) :
    Grid.GrowsTo size g (updateAll size f l g) := by
  induction l generalizing g with
  | nil => exact .refl size g
  | cons cell rest ih => exact (Grid.growsTo_update hs g cell (hf cell)).trans (ih _)

theorem Grid.growsTo_writeFormat {size : Nat} (hs : size ≤ 64) (format : BitVec 18) (n i : Nat) (g : Grid) :
    Grid.GrowsTo size g (writeFormat size format n i g) := by
  induction n generalizing i g with
  | zero => exact .refl size g
  | succ n ih =>
    have one (g : Grid) (cell : Nat × Nat) := Grid.growsTo_update hs g cell (growsTo_formatModule (format.getLsbD i))
    exact (one g _).trans ((one _ _).trans (ih _ _))

theorem Grid.growsTo_placeBits {size : Nat} (hs : size ≤ 64) (limit : Nat) (bit : Nat → Bool) (n : Nat) (w : Walk) :
    Grid.GrowsTo size w.grid (placeBits size limit bit n w).grid := fun r c => by
  rcases placeBits_cells hs limit bit n w r c with h | ⟨-, b, h⟩
  · rw [h]; exact .refl _
  · rw [h]; exact ⟨fun _ => rfl, fun _ => rfl, fun _ => .inr rfl⟩

/-! ### The bodies of the step commands -/

theorem Keeps.size {ps : List Part} {s t : State} (hk : Keeps ps s t) (hp : .mtxSize ∉ ps) : t.size = s.size :=
  congrArg BitVec.toNat (hk.2 .mtxSize hp)

/-- The body writes the matrix alone, keeps its canonical form, and every cell grows. -/
structure Redraws (s t : State) : Prop where
  keeps : Keeps [.matrix] s t
  wf    : Grid.wf s.size s.matrix = true → Grid.wf t.size t.matrix = true
  grows : Grid.GrowsTo s.size s.matrix t.matrix

theorem Redraws.size {s t : State} (h : Redraws s t) : t.size = s.size := h.keeps.size (by decide)

theorem Redraws.trans {s t u : State} (h : Redraws s t) (h' : Redraws t u) : Redraws s u where
  keeps := h.keeps.trans h'.keeps
  wf hs := h'.wf (h.wf hs)
  grows := h.grows.trans (by have := h'.grows; rwa [h.size] at this)

theorem redraws_stamped (s : State) (l : List ((Nat × Nat) × Bool)) : Redraws s (s.stamped l) where
  keeps := ⟨rfl, fun p hp => by cases p <;> first | exact absurd (by decide) hp | rfl⟩
  wf := Grid.wf_stampAll s.size_le l
  grows := Grid.growsTo_stampAll s.size_le l s.matrix

theorem redraws_mtxFinder (s : State) : Redraws s (mtxFinder s) := redraws_stamped s _

theorem redraws_mtxSeparator (s : State) : Redraws s (mtxSeparator s) := redraws_stamped s _

theorem redraws_mtxAlign (s : State) : Redraws s (mtxAlign s) := redraws_stamped s _

theorem redraws_mtxTiming (s : State) : Redraws s (mtxTiming s) := redraws_stamped s _

theorem redraws_mtxDark (s : State) : Redraws s (mtxDark s) := redraws_stamped s _

theorem redraws_mtxReserve (s : State) : Redraws s (mtxReserve s) where
  keeps := keeps_mtxReserve s
  wf := Grid.wf_updateAll s.size_le _ _
  grows := Grid.growsTo_updateAll s.size_le (fun _ => growsTo_reserveModule) _ _

theorem redraws_mtxMask (s : State) : Redraws s (mtxMask s) where
  keeps := keeps_mtxMask s
  wf := Grid.wf_updateAll s.size_le _ _
  grows := Grid.growsTo_updateAll s.size_le growsTo_maskModule _ _

theorem redraws_mtxFormat (s : State) : Redraws s (mtxFormat s) where
  keeps := keeps_mtxFormat s
  wf := Grid.wf_writeFormat s.size_le _ _ _
  grows := Grid.growsTo_writeFormat s.size_le _ _ _ _

theorem growsTo_mtxPlace (n : Nat) (s : State) : Grid.GrowsTo s.size s.matrix (mtxPlace n s).matrix :=
  Grid.growsTo_placeBits s.size_le _ _ n ⟨s.matrix, s.cursor, s.bitpos⟩

/-! ### The commands -/

/-- Every cell of the current symbol grows from `s` to `t`. -/
def CellsGrow (s t : State) : Prop := ∀ r c, (s.cell r c).GrowsTo (t.cell r c)

theorem cellsGrow_of_same {s t : State} (hsize : t.size = s.size) (hmatrix : t.matrix = s.matrix) : CellsGrow s t :=
  fun r c => by simp only [State.cell, hsize, hmatrix]; exact .refl _

theorem cellsGrow_of_keeps {ps : List Part} {s t : State} (h : Keeps ps s t) (hsize : .mtxSize ∉ ps) (hmatrix : .matrix ∉ ps) :
    CellsGrow s t := cellsGrow_of_same (h.size hsize) (h.2 .matrix hmatrix)

theorem Redraws.cellsGrow {s t : State} (h : Redraws s t) : CellsGrow s t := fun r c => by
  simp only [State.cell, h.size]
  exact h.grows r c

/-- A command that begins a new build empties the matrix (44_matrix.md R181). -/
def beginsBuild : Instr → Bool
  | .mtxInit _ _ => true
  | .mtxBuild => true
  | .encode _ => true
  | _ => false

/-- `GF_BUILD` with its flag (40_gf.md R106). -/
theorem keeps_gfBuildValid (s : State) : Keeps [.gfExp, .gfLog, .gfValid] s (gfBuild s).setGfValid :=
  ((keeps_gfBuild s).mono (by decide)).trans ((keeps_setGfValid _).mono (by decide))

theorem cellsGrow_commandBody {i : Instr} (hi : beginsBuild i = false) (s : State) : CellsGrow s (commandBody i s) := by
  cases i with
  | mtxInit v a => cases hi
  | mtxBuild => cases hi
  | encode len => cases hi
  | mtxFinder => exact (redraws_mtxFinder (s.setMtxDone false)).cellsGrow
  | mtxSeparator => exact (redraws_mtxSeparator (s.setMtxDone false)).cellsGrow
  | mtxAlign => exact (redraws_mtxAlign (s.setMtxDone false)).cellsGrow
  | mtxTiming => exact (redraws_mtxTiming (s.setMtxDone false)).cellsGrow
  | mtxDark => exact (redraws_mtxDark (s.setMtxDone false)).cellsGrow
  | mtxReserve => exact (redraws_mtxReserve (s.setMtxDone false)).cellsGrow
  | mtxPlace n => exact growsTo_mtxPlace n.toNat (s.setMtxDone false)
  | mtxMask => exact (redraws_mtxMask (s.setMtxDone false)).cellsGrow
  | mtxFormat => exact (redraws_mtxFormat (s.setMtxDone false)).cellsGrow
  | gfBuild => exact cellsGrow_of_keeps (keeps_gfBuildValid s) (by decide) (by decide)
  | gfExp e => exact cellsGrow_of_keeps (keeps_setResult s _) (by decide) (by decide)
  | gfLog v => exact cellsGrow_of_keeps (keeps_setResult s _) (by decide) (by decide)
  | gfExpadd a b => exact cellsGrow_of_keeps (keeps_setResult s _) (by decide) (by decide)
  | rsGenpoly n => exact cellsGrow_of_keeps (keeps_genpoly _ s) (by decide) (by decide)
  | rsGenerate n len => exact cellsGrow_of_keeps (keeps_divided _ _ _ _ s) (by decide) (by decide)
  | fmtGenerate v e m => exact cellsGrow_of_keeps (keeps_setFormat s _) (by decide) (by decide)
  | flavorSelect len => exact cellsGrow_of_keeps (keeps_selected s _) (by decide) (by decide)
  | msgPack => exact cellsGrow_of_keeps (keeps_msgPack s) (by decide) (by decide)

theorem cellsGrow_exec {i : Instr} {s t : State} (hi : beginsBuild i = false) (h : exec i s = .next t) : CellsGrow s t := by
  rcases exec_cases h with ⟨code, -, rfl⟩ | ⟨-, -, rfl⟩
  · exact cellsGrow_of_same rfl rfl
  · exact cellsGrow_commandBody hi s

/-- Settles O21: a refused command changes no cell, and the body of every other command lets each cell grow. -/
theorem takenCellsStayTaken : Obligations.TakenCellsStayTaken := by
  intro i s t r c h hi
  suffices hg : (s.cell r c).GrowsTo (t.cell r c) from ⟨hg.taken, hg.isData⟩
  cases i with
  | mtxInit v a => cases hi
  | mtxBuild => cases hi
  | encode len => cases hi
  | _ => exact cellsGrow_exec rfl h r c

end Sys2Proof.Machine

/-! ## The invariant over the actions of the host

Each field of `Inv` speaks of a few parts of the state. An operation that writes other parts keeps the field
(`Inv.of_keeps`), so what is proved of a body is only the fields whose parts it writes. The composite commands are chains
of bodies that keep the invariant one by one. -/

namespace Sys2Proof.Machine

/-! ### The parts each field of the invariant speaks of -/

/-- The part a memory of bytes is. -/
def Space.part : Space → Part
  | .payload => .payload
  | .cw => .cw
  | .gen => .gen
  | .gfExp => .gfExp
  | .gfLog => .gfLog
  | .rem => .rem

/-- None of the parts `qs` is among the written parts `ps`. -/
abbrev Avoids (ps qs : List Part) : Prop := ∀ p ∈ qs, p ∉ ps

/-! What the fields of `Inv` speak of; `grid` and `cells` speak of the same parts. -/

def memoryParts : List Part := [.payload, .cw, .gen, .gfExp, .gfLog, .rem]
def gridParts : List Part := [.mtxSize, .matrix]
def tableParts : List Part := [.gfValid, .gfExp, .gfLog, .resets]
def selectionParts : List Part := [.flavorValid, .payloadLen, .flavorIdx, .flavorRow, .flavors]
def lengthParts : List Part := [.cwDataLen, .cwTotalLen, .genLen, .bitpos]
def geometryParts : List Part := [.mtxVersion, .mtxSize, .mtxAlign, .cursor, .bitpos]
def finishedParts : List Part := [.mtxDone, .flavorValid, .mtxSize]

section
variable {ps : List Part} {s t : State}

theorem Keeps.bank (hk : Keeps ps s t) {sp : Space} (hp : sp.part ∉ ps) : t.bank sp = s.bank sp := by
  cases sp <;> exact hk.2 _ hp

theorem Keeps.memoriesCanonical (hk : Keeps ps s t) (hp : Avoids ps memoryParts) (hs : memoriesCanonical s) :
    memoriesCanonical t := fun sp => by
  rw [hk.bank (hp sp.part (by cases sp <;> decide))]
  exact hs sp

theorem Keeps.grid (hk : Keeps ps s t) (hp : Avoids ps gridParts) (hs : Grid.wf s.size s.matrix = true) :
    Grid.wf t.size t.matrix = true := by
  have hmatrix : t.matrix = s.matrix := hk.2 .matrix (hp _ (by decide))
  rwa [hk.size (hp _ (by decide)), hmatrix]

theorem Keeps.tablesBuilt (hk : Keeps ps s t) (hp : Avoids ps tableParts) (hs : tablesBuilt s) : tablesBuilt t := fun hv i => by
  have hvalid : t.flags.gfValid = s.flags.gfValid := hk.2 .gfValid (hp _ (by decide))
  have hresets : t.resets = s.resets := hk.2 .resets (hp _ (by decide))
  rw [State.read_congr (hk.bank (sp := .gfExp) (hp _ (by decide))) hresets,
    State.read_congr (hk.bank (sp := .gfLog) (hp _ (by decide))) hresets]
  exact hs (hvalid ▸ hv) i

theorem Keeps.selectionConsistent (hk : Keeps ps s t) (hp : Avoids ps selectionParts) (hs : selectionConsistent s) :
    selectionConsistent t := by
  have hvalid : t.flags.flavorValid = s.flags.flavorValid := hk.2 .flavorValid (hp _ (by decide))
  have hlen : t.payloadLen = s.payloadLen := hk.2 .payloadLen (hp _ (by decide))
  have hidx : t.flavorIdx = s.flavorIdx := hk.2 .flavorIdx (hp _ (by decide))
  have hrow : t.flavor = s.flavor := hk.2 .flavorRow (hp _ (by decide))
  have htable : t.flavors = s.flavors := hk.2 .flavors (hp _ (by decide))
  unfold Machine.selectionConsistent at hs ⊢
  rwa [hvalid, hlen, hidx, hrow, htable]

theorem Keeps.lengthsLegal (hk : Keeps ps s t) (hp : Avoids ps lengthParts) (hs : lengthsLegal s) : lengthsLegal t := by
  have hdata : t.cwDataLen = s.cwDataLen := hk.2 .cwDataLen (hp _ (by decide))
  have htotal : t.cwTotalLen = s.cwTotalLen := hk.2 .cwTotalLen (hp _ (by decide))
  have hgen : t.genLen = s.genLen := hk.2 .genLen (hp _ (by decide))
  have hpos : t.bitpos = s.bitpos := hk.2 .bitpos (hp _ (by decide))
  unfold Machine.lengthsLegal at hs ⊢
  rwa [hdata, htotal, hgen, hpos]

theorem Keeps.geometryLegal (hk : Keeps ps s t) (hp : Avoids ps geometryParts) (hs : geometryLegal s) : geometryLegal t := by
  have hversion : t.mtxVersion = s.mtxVersion := hk.2 .mtxVersion (hp _ (by decide))
  have hsize : t.mtxSize = s.mtxSize := hk.2 .mtxSize (hp _ (by decide))
  have halign : t.mtxAlign = s.mtxAlign := hk.2 .mtxAlign (hp _ (by decide))
  have hcursor : t.cursor = s.cursor := hk.2 .cursor (hp _ (by decide))
  have hpos : t.bitpos = s.bitpos := hk.2 .bitpos (hp _ (by decide))
  unfold Machine.geometryLegal State.size at hs ⊢
  rwa [hversion, hsize, halign, hcursor, hpos]

theorem CellsGrow.dataCellsTaken (h : CellsGrow s t) (hs : dataCellsTaken s) : dataCellsTaken t := fun r c hd =>
  ((h r c).fresh hd).elim (fun hd' => (h r c).taken (hs r c hd')) id

theorem Keeps.dataCellsTaken (hk : Keeps ps s t) (hp : Avoids ps gridParts) (hs : dataCellsTaken s) : dataCellsTaken t :=
  (cellsGrow_of_keeps hk (hp _ (by decide)) (hp _ (by decide))).dataCellsTaken hs

theorem Keeps.finished (hk : Keeps ps s t) (hp : Avoids ps finishedParts)
    (hs : s.flags.mtxDone = true → s.flags.flavorValid = true ∧ s.mtxSize ≠ 0) :
    t.flags.mtxDone = true → t.flags.flavorValid = true ∧ t.mtxSize ≠ 0 := by
  have hdone : t.flags.mtxDone = s.flags.mtxDone := hk.2 .mtxDone (hp _ (by decide))
  have hvalid : t.flags.flavorValid = s.flags.flavorValid := hk.2 .flavorValid (hp _ (by decide))
  have hsize : t.mtxSize = s.mtxSize := hk.2 .mtxSize (hp _ (by decide))
  rwa [hdone, hvalid, hsize]

/-- The invariant after an operation that writes the parts `ps`: each field is proved of the state after it, or its parts
are not written, which the default argument sees from the list. -/
theorem Inv.of_keeps (hi : Inv s) (hk : Keeps ps s t)
    (memories : memoriesCanonical t ∨ Avoids ps memoryParts := by exact .inr (by decide))
    (grid : Grid.wf t.size t.matrix = true ∨ Avoids ps gridParts := by exact .inr (by decide))
    (tables : tablesBuilt t ∨ Avoids ps tableParts := by exact .inr (by decide))
    (selection : selectionConsistent t ∨ Avoids ps selectionParts := by exact .inr (by decide))
    (lengths : lengthsLegal t ∨ Avoids ps lengthParts := by exact .inr (by decide))
    (geometry : geometryLegal t ∨ Avoids ps geometryParts := by exact .inr (by decide))
    (cells : dataCellsTaken t ∨ Avoids ps gridParts := by exact .inr (by decide))
    (finished : (t.flags.mtxDone = true → t.flags.flavorValid = true ∧ t.mtxSize ≠ 0) ∨ Avoids ps finishedParts := by
      exact .inr (by decide)) : Inv t where
  memories := memories.elim id fun hp => hk.memoriesCanonical hp hi.memories
  grid := grid.elim id fun hp => hk.grid hp hi.grid
  status := hk.1 ▸ hi.status
  tables := tables.elim id fun hp => hk.tablesBuilt hp hi.tables
  selection := selection.elim id fun hp => hk.selectionConsistent hp hi.selection
  lengths := lengths.elim id fun hp => hk.lengthsLegal hp hi.lengths
  geometry := geometry.elim id fun hp => hk.geometryLegal hp hi.geometry
  cells := cells.elim id fun hp => hk.dataCellsTaken hp hi.cells
  finished := finished.elim id fun hp => hk.finished hp hi.finished

end

/-! ### The memories -/

theorem memoriesCanonical_withBank {s : State} (hs : memoriesCanonical s) (sp : Space) {m : Memory}
    (hm : Memory.wf sp.elements m = true) : memoriesCanonical (s.withBank sp m) := fun sq => by
  by_cases h : sq = sp
  · subst h; rw [State.bank_withBank]; exact hm
  · rw [State.bank_withBank_other s m h]; exact hs sq

theorem memoriesCanonical_write {s : State} (hs : memoriesCanonical s) (sp : Space) (i : Nat) (v : Byte) :
    memoriesCanonical (s.write sp i v) :=
  memoriesCanonical_withBank hs sp (Memory.wf_put v (hs sp))

theorem memoriesCanonical_store {s : State} (hs : memoriesCanonical s) (sp : Space) (base : Nat) (l : List Byte) :
    memoriesCanonical (s.store sp base l) :=
  memoriesCanonical_withBank hs sp (Memory.wf_store base l (hs sp))

/-! ### What the invariant says of the selected row -/

theorem flavorRow_capacity_le (t : FlavorTable) {i : Nat} (h : i ≤ 10) : (flavorRow t i).capacity.toNat ≤ 106 := by
  have hf := tableFacts t
  have hlast : (flavorRow t 10).capacity.toNat = 106 := by rw [hf.last]; rfl
  rcases Nat.eq_or_lt_of_le h with rfl | hlt
  · omega
  · have := hf.ascends i 10 hlt (Nat.le_refl _)
    omega

/-- With `FLAVOR_VALID` the flavor registers hold a legal row, and its capacity is at most `MAX_PAYLOAD`. -/
theorem Inv.flavor {s : State} (hi : Inv s) (hv : s.flags.flavorValid = true) :
    Config.flavorOk s.flavor = true ∧ s.flavor.capacity.toNat ≤ 106 := by
  have hsel := hi.selection
  rw [selectionConsistent, if_pos hv] at hsel
  obtain ⟨hidx, hrow, -⟩ := hsel
  rw [hrow]
  exact ⟨(tableFacts s.flavors).legal _ hidx, flavorRow_capacity_le _ hidx⟩

/-! ### The end of a command -/

theorem inv_raise {s : State} (hi : Inv s) {code : Status} (hc : code ≠ .outOfMemory ∧ code ≠ .ioError) :
    Inv (s.raise code) :=
  ⟨fun sp => by rw [State.raise_bank]; exact hi.memories sp, hi.grid, hc, hi.tables, hi.selection, hi.lengths, hi.geometry,
    hi.cells, hi.finished⟩

theorem inv_complete {s : State} (hi : Inv s) : Inv s.complete := inv_raise hi (code := .ok) (by decide)

/-! ### galois_field_lut, bch_format_encoder -/

theorem inv_setResult {s : State} (hi : Inv s) (v : Byte) : Inv (s.setResult v) := hi.of_keeps (keeps_setResult s v)

theorem inv_setFormat {s : State} (hi : Inv s) (v : BitVec 18) : Inv (s.setFormat v) := hi.of_keeps (keeps_setFormat s v)

theorem memoriesCanonical_gfBuild {s : State} (hs : memoriesCanonical s) : memoriesCanonical (gfBuild s) := fun sp => by
  obtain ⟨hexp, hlog⟩ := wf_gfFill Config.gfTableLen 0 1 s.gfExp s.gfLog (hs .gfExp) (hs .gfLog)
  unfold gfBuild
  generalize gfFill Config.gfTableLen 0 1 s.gfExp s.gfLog = tables at hexp hlog ⊢
  cases sp with
  | gfExp => exact hexp
  | gfLog =>
    show Memory.wf 256 (Memory.put 256 (Memory.put 256 tables.2 0 0) 1 0) = true
    exact Memory.wf_put 0 (Memory.wf_put 0 hlog)
  | payload => exact hs .payload
  | cw => exact hs .cw
  | gen => exact hs .gen
  | rem => exact hs .rem

theorem inv_gfBuild {s : State} (hi : Inv s) : Inv (gfBuild s).setGfValid :=
  hi.of_keeps (keeps_gfBuildValid s)
    (memories := .inl fun sp => by rw [State.setGfValid_bank]; exact memoriesCanonical_gfBuild hi.memories sp)
    (tables := .inl fun _ i => by
      have same (sp : Space) (j : Nat) : (gfBuild s).setGfValid.read sp j = (gfBuild s).read sp j :=
        State.read_congr (State.setGfValid_bank _ sp) rfl j
      rw [same, same]; exact tablesBuilt_gfBuild s i)

/-! ### message_stream_packer -/

theorem selectionConsistent_selected (s : State) {len : Nat} (h : len ≤ 106) : selectionConsistent (s.selected len) := by
  obtain ⟨hidx, hfits, -⟩ := leastRow_spec s.flavors h
  have hk : (BitVec.ofNat 4 (leastRow s.flavors len)).toNat = leastRow s.flavors len := by
    rw [BitVec.toNat_ofNat]; omega
  have hl : (BitVec.ofNat 8 len).toNat = len := by rw [BitVec.toNat_ofNat]; omega
  rw [selectionConsistent, if_pos (show (s.selected len).flags.flavorValid = true from rfl)]
  exact ⟨hk.trans_le hidx, (congrArg (flavorRow s.flavors) hk).symm, hl.trans_le hfits⟩

theorem inv_selected {s : State} (hi : Inv s) {len : Nat} (h : len ≤ 106) : Inv (s.selected len) :=
  hi.of_keeps (keeps_selected s len)
    (selection := .inl (selectionConsistent_selected s h))
    (finished := .inl fun hd => ⟨rfl, (hi.finished hd).2⟩)

theorem lengthsLegal_setStreamLen {s : State} (hs : lengthsLegal s) {d t : Nat} (hd : d ≤ 256) (hdt : d ≤ t) (ht : t ≤ 510) :
    lengthsLegal (s.setStreamLen d t) := by
  obtain ⟨-, -, -, hgen, hpos⟩ := hs
  have hd' : (BitVec.ofNat 9 d).toNat = d := by rw [BitVec.toNat_ofNat]; omega
  have ht' : (BitVec.ofNat 10 t).toNat = t := by rw [BitVec.toNat_ofNat]; omega
  simp only [lengthsLegal, State.setStreamLen_cwDataLen, State.setStreamLen_cwTotalLen, hd', ht']
  exact ⟨hd, hdt, ht, hgen, hpos⟩

theorem inv_setStreamLen {s : State} (hi : Inv s) {d t : Nat} (hd : d ≤ 256) (hdt : d ≤ t) (ht : t ≤ 510) :
    Inv (s.setStreamLen d t) :=
  hi.of_keeps (keeps_setStreamLen s d t) (lengths := .inl (lengthsLegal_setStreamLen hi.lengths hd hdt ht))

theorem inv_msgPack {s : State} (hi : Inv s) (hv : s.flags.flavorValid = true) : Inv (msgPack s) := by
  have hcap := (hi.flavor hv).2
  exact hi.of_keeps (keeps_msgPack s)
    (memories := .inl fun sp => by
      rw [msgPack, State.setStreamLen_bank]; exact memoriesCanonical_store hi.memories _ _ _ sp)
    (lengths := .inl (lengthsLegal_setStreamLen (s := s.store .cw 0 (dataCodewords s)) hi.lengths
      (by omega) (Nat.le_refl _) (by omega)))

/-! ### reed_solomon_encoder -/

theorem inv_genpoly {s : State} (hi : Inv s) {n : Nat} (h : 7 ≤ n ∧ n ≤ 254) : Inv (genpoly n s) := by
  obtain ⟨hdata, htotal, hmax, -, hpos⟩ := hi.lengths
  have hlen : (BitVec.ofNat 8 (n + 1)).toNat = n + 1 := by rw [BitVec.toNat_ofNat]; omega
  have hgen : 8 ≤ (genpoly n s).genLen.toNat := by show 8 ≤ (BitVec.ofNat 8 (n + 1)).toNat; omega
  exact hi.of_keeps (keeps_genpoly n s)
    (memories := .inl fun sp => memoriesCanonical_store hi.memories .gen 0 (generator s.expAt s.logAt n) sp)
    (lengths := .inl ⟨hdata, htotal, hmax, .inr hgen, hpos⟩)

theorem inv_rsDivide {s : State} (hi : Inv s) (n len : Nat) : Inv (rsDivide n len s) :=
  hi.of_keeps (keeps_rsDivide n len s)
    (memories := .inl (memoriesCanonical_store (memoriesCanonical_store hi.memories _ _ _) _ _ _))

/-- `RS_GENERATE` (41_rs.md R127), its operands legal. -/
theorem inv_divided {s : State} (hi : Inv s) {n len : Nat} (hn : 7 ≤ n ∧ n ≤ 254) (hl : len ≤ 256) :
    Inv ((rsDivide n len (genpoly n s)).setStreamLen len (len + n)) :=
  inv_setStreamLen (inv_rsDivide (inv_genpoly hi hn) n len) hl (Nat.le_add_right _ _) (by omega)

/-! ### qr_matrix_builder -/

theorem inv_setMtxDone_false {s : State} (hi : Inv s) : Inv (s.setMtxDone false) :=
  hi.of_keeps (keeps_setMtxDone s false) (finished := .inl fun hd => by cases hd)

theorem inv_setMtxDone_true {s : State} (hi : Inv s) (hv : s.flags.flavorValid = true) (hm : hasMatrix s) :
    Inv (s.setMtxDone true) :=
  hi.of_keeps (keeps_setMtxDone s true) (finished := .inl fun _ => ⟨hv, hm⟩)

theorem Keeps.hasMatrix {ps : List Part} {s t : State} (hk : Keeps ps s t) (hp : .mtxSize ∉ ps) (hm : hasMatrix s) :
    hasMatrix t := by
  have hsize : t.mtxSize = s.mtxSize := hk.2 .mtxSize hp
  rwa [Machine.hasMatrix, hsize]

theorem Redraws.hasMatrix {s t : State} (h : Redraws s t) (hm : hasMatrix s) : hasMatrix t :=
  h.keeps.hasMatrix (by decide) hm

theorem Redraws.inv {s t : State} (h : Redraws s t) (hi : Inv s) : Inv t :=
  hi.of_keeps h.keeps (grid := .inl (h.wf hi.grid)) (cells := .inl (h.cellsGrow.dataCellsTaken hi.cells))

/-- The registers `MTX_INIT` writes, as numbers (44_matrix.md R181). -/
theorem mtxInit_size {v a : Nat} (h : mtxInitLegal v a = true) (s : State) :
    (mtxInit v a s).size = 21 + 4 * (v - 1) := by
  obtain ⟨hv, -⟩ := (mtxInitLegal_iff v a).mp h
  show (BitVec.ofNat 6 (21 + 4 * (v - 1))).toNat = _
  rw [BitVec.toNat_ofNat]; omega

theorem hasMatrix_of_size {s : State} (h : s.size ≠ 0) : hasMatrix s := fun h0 => h (by rw [State.size, h0]; rfl)

theorem hasMatrix_mtxInit {v a : Nat} (h : mtxInitLegal v a = true) (s : State) : hasMatrix (mtxInit v a s) :=
  hasMatrix_of_size (by rw [mtxInit_size h]; omega)

theorem geometryLegal_mtxInit {v a : Nat} (h : mtxInitLegal v a = true) (s : State) : geometryLegal (mtxInit v a s) := by
  have hsize := mtxInit_size h s
  obtain ⟨hv, ha⟩ := (mtxInitLegal_iff v a).mp h
  rw [Config.symbolSize] at ha
  have hversion : (mtxInit v a s).mtxVersion.toNat = v := by
    show (BitVec.ofNat 3 v).toNat = v
    rw [BitVec.toNat_ofNat]; omega
  have halign : (mtxInit v a s).mtxAlign.toNat = a := by
    show (BitVec.ofNat 6 a).toNat = a
    rw [BitVec.toNat_ofNat]; omega
  have hlegal : SizeLegal (21 + 4 * (v - 1)) := by unfold SizeLegal; omega
  have hcursor : (mtxInit v a s).cursor = cursorAt (21 + 4 * (v - 1)) 0 := (cursorAt_zero hlegal).symm
  right
  rw [hversion, hsize, halign, hcursor]
  refine ⟨hv.1, hv.2, rfl, ?_, cursorAt_legal hlegal⟩
  rcases ha with h0 | ha
  · exact .inl (BitVec.eq_of_toNat_eq (by rw [halign, h0]; rfl))
  · exact .inr ⟨ha.1, by omega⟩

theorem inv_mtxInit {s : State} (hi : Inv s) {v a : Nat} (h : mtxInitLegal v a = true) : Inv (mtxInit v a s) := by
  obtain ⟨hdata, htotal, hmax, hgen, -⟩ := hi.lengths
  exact hi.of_keeps (keeps_mtxInit v a s)
    (grid := .inl rfl)
    (lengths := .inl ⟨hdata, htotal, hmax, hgen, Nat.zero_le _⟩)
    (geometry := .inl (geometryLegal_mtxInit h s))
    (cells := .inl fun r c hd => by
      have hcell : (mtxInit v a s).cell r c = QrModule.zero := Grid.get_nil _ r c
      rw [hcell] at hd; cases hd)
    (finished := .inl fun hd => by cases hd)

/-! ### zig_zag_placement_fsm -/

theorem mtxPlace_cursor_legal {s : State} (hi : Inv s) (hm : hasMatrix s) (n : Nat) : (mtxPlace n s).cursor.legal s.size := by
  obtain ⟨hsize, -, -, -, -, hcursor⟩ := geometry_of_matrix hi.geometry hm
  obtain ⟨-, -, hmax, -, -⟩ := hi.lengths
  obtain ⟨p, hp, hat⟩ := Cursor.legal_position hsize hcursor
  obtain ⟨-, -, -, q, -, hq, -⟩ := placeBits_walk hsize hp (limit := 8 * s.cwTotalLen.toNat) (by omega) s.streamBit n
    ⟨s.matrix, s.cursor, s.bitpos⟩ hat rfl rfl rfl
  show (s.walked n).cursor.legal s.size
  rw [State.walked, hq]
  exact cursorAt_legal hsize

theorem mtxPlace_bitpos_le {s : State} (hs : lengthsLegal s) (n : Nat) : (mtxPlace n s).bitpos.toNat ≤ 4080 := by
  obtain ⟨-, -, hmax, -, hpos⟩ := hs
  obtain ⟨-, hsame | hle⟩ := placeBits_bitpos (size := s.size) (limit := 8 * s.cwTotalLen.toNat) (by omega) s.streamBit n
    ⟨s.matrix, s.cursor, s.bitpos⟩
  · show (s.walked n).bitpos.toNat ≤ 4080
    rw [State.walked, hsame]; exact hpos
  · exact Nat.le_trans hle (by omega)

theorem inv_mtxPlace {s : State} (hi : Inv s) (hm : hasMatrix s) (n : Nat) : Inv (mtxPlace n s) := by
  obtain ⟨hdata, htotal, hmax, hgen, -⟩ := hi.lengths
  have hgeometry : geometryLegal (mtxPlace n s) := by
    rcases hi.geometry with h | ⟨hv1, hv5, hsize, halign, -⟩
    · exact absurd h.2.1 hm
    · exact .inr ⟨hv1, hv5, hsize, halign, mtxPlace_cursor_legal hi hm n⟩
  have hgrow : CellsGrow s (mtxPlace n s) := growsTo_mtxPlace n s
  exact hi.of_keeps (keeps_mtxPlace n s)
    (grid := .inl (wf_placeBits s.size_le _ _ n ⟨s.matrix, s.cursor, s.bitpos⟩ hi.grid))
    (lengths := .inl ⟨hdata, htotal, hmax, hgen, mtxPlace_bitpos_le hi.lengths n⟩)
    (geometry := .inl hgeometry)
    (cells := .inl (hgrow.dataCellsTaken hi.cells))

/-! ### The composite commands -/

theorem inv_buildSteps {s : State} (hi : Inv s) (hm : hasMatrix s) : Inv (buildSteps s) := by
  have hstructural := (redraws_mtxFinder s).trans <| (redraws_mtxSeparator _).trans <| (redraws_mtxAlign _).trans <|
    (redraws_mtxTiming _).trans <| (redraws_mtxDark _).trans <| redraws_mtxReserve _
  rw [buildSteps_def]
  exact (redraws_mtxFormat _).inv <| (redraws_mtxMask _).inv <| inv_mtxPlace (hstructural.inv hi) (hstructural.hasMatrix hm) _

theorem inv_built {s : State} (hi : Inv s) (hv : s.flags.flavorValid = true) : Inv (built s) := by
  obtain ⟨hversion, halign, -, -⟩ := (flavorOk_iff _).mp (hi.flavor hv).1
  have hlegal := (mtxInitLegal_iff _ _).mpr ⟨hversion, halign⟩
  unfold built
  generalize (fmtGenerate s.flavor.version.toNat s.flavor.ecLevel.toNat Config.maskId).getD 0 = format
  have hinit := inv_mtxInit (inv_setFormat hi format) hlegal
  have hmatrix := hasMatrix_mtxInit hlegal (s.setFormat format)
  have hkeeps := keeps_buildSteps (mtxInit s.flavor.version.toNat s.flavor.alignCenter.toNat (s.setFormat format))
  exact inv_setMtxDone_true (inv_buildSteps hinit hmatrix) ((hkeeps.2 .flavorValid (by decide)).trans hv)
    (hkeeps.hasMatrix (by decide) hmatrix)

theorem inv_encodeStream {s : State} (hi : Inv s) (hv : s.flags.flavorValid = true) : Inv (encodeStream s) := by
  obtain ⟨hok, hcap⟩ := hi.flavor hv
  obtain ⟨-, -, hec, -⟩ := (flavorOk_iff _).mp hok
  exact inv_divided (inv_msgPack (inv_gfBuild hi) hv) (n := s.flavor.ecCount.toNat) (len := s.flavor.capacity.toNat + 2)
    hec (by omega)

/-! ### The commands -/

theorem inv_commandBody {i : Instr} {s : State} (hi : Inv s) (hp : precondition i s = true) (hw : i.wellFormed = true) :
    Inv (commandBody i s) := by
  have hcleared := inv_setMtxDone_false hi
  cases i with
  | gfBuild => exact inv_gfBuild hi
  | gfExp e => exact inv_setResult hi _
  | gfLog v => exact inv_setResult hi _
  | gfExpadd a b => exact inv_setResult hi _
  | rsGenpoly n => exact inv_genpoly hi (of_decide_eq_true hw)
  | rsGenerate n len =>
    obtain ⟨hn, hl⟩ := (Bool.and_eq_true _ _).mp hw
    exact inv_divided hi (of_decide_eq_true hn) (of_decide_eq_true hl)
  | fmtGenerate v e m => exact inv_setFormat hi _
  | flavorSelect len => exact inv_selected hi (of_decide_eq_true hw)
  | msgPack => exact inv_msgPack hi hp
  | mtxInit v a => exact inv_mtxInit hi ((mtxInitLegal_wellFormed v a).trans hw)
  | mtxFinder => exact (redraws_mtxFinder _).inv hcleared
  | mtxSeparator => exact (redraws_mtxSeparator _).inv hcleared
  | mtxAlign => exact (redraws_mtxAlign _).inv hcleared
  | mtxTiming => exact (redraws_mtxTiming _).inv hcleared
  | mtxDark => exact (redraws_mtxDark _).inv hcleared
  | mtxReserve => exact (redraws_mtxReserve _).inv hcleared
  | mtxPlace n => exact inv_mtxPlace hcleared (bne_iff_ne.mp hp) _
  | mtxMask => exact (redraws_mtxMask _).inv hcleared
  | mtxFormat => exact (redraws_mtxFormat _).inv hcleared
  | mtxBuild => exact inv_built hi hp
  | encode len =>
    have hselected := inv_selected hi (of_decide_eq_true hw)
    exact inv_built (inv_encodeStream hselected rfl) rfl

/-! ### The codes a command ends with -/

/-- A code a command can end with (60_exceptions.md R241 to R244); `IllegalCommand` is the decoder's. -/
def Status.OfCommand (c : Status) : Prop := c = .ok ∨ c = .invalidParameter ∨ c = .textTooLong

theorem Status.OfCommand.ne {c : Status} (h : c.OfCommand) : c ≠ .outOfMemory ∧ c ≠ .ioError := by
  rcases h with rfl | rfl | rfl <;> decide

/-- The next state, if there is one, holds a code a command can end with. -/
def EndsByTheRules (o : Host.Outcome State Fault Refusal) : Prop := ∀ t, o = .next t → t.status.OfCommand

theorem ends_complete (s : State) : EndsByTheRules (.next s.complete) := fun _ h => by cases h; exact .inl rfl

theorem ends_invalid (s : State) : EndsByTheRules (.next (s.raise .invalidParameter)) := fun _ h => by
  cases h; exact .inr (.inl rfl)

theorem ends_tooLong (s : State) : EndsByTheRules (.next (s.raise .textTooLong)) := fun _ h => by
  cases h; exact .inr (.inr rfl)

theorem ends_ite {c : Prop} [Decidable c] {o o' : Host.Outcome State Fault Refusal} (h : EndsByTheRules o)
    (h' : EndsByTheRules o') : EndsByTheRules (if c then o else o') := by
  split
  · exact h
  · exact h'

theorem ends_matrixStep (body : State → State) (s : State) : EndsByTheRules (matrixStep body s) :=
  ends_ite (ends_invalid s) (ends_complete _)

theorem ends_exec (i : Instr) (s : State) : EndsByTheRules (exec i s) := by
  cases i with
  | gfBuild => exact ends_complete _
  | gfExp e => exact ends_ite (ends_complete _) (ends_invalid s)
  | gfLog v => exact ends_ite (ends_complete _) (ends_invalid s)
  | gfExpadd a b => exact ends_complete _
  | rsGenpoly n => exact ends_ite (ends_invalid s) (ends_ite (ends_invalid s) (ends_complete _))
  | rsGenerate n len =>
    exact ends_ite (ends_invalid s) (ends_ite (ends_invalid s) (ends_ite (ends_invalid s) (ends_complete _)))
  | fmtGenerate v e m =>
    show EndsByTheRules (execFmtGenerate v e m s)
    unfold execFmtGenerate
    split
    · exact ends_complete _
    · exact ends_invalid s
  | flavorSelect len =>
    show EndsByTheRules (execFlavorSelect len s)
    unfold execFlavorSelect
    split
    · exact ends_complete _
    · exact ends_tooLong s
  | msgPack => exact ends_ite (ends_complete _) (ends_invalid s)
  | mtxInit v a => exact ends_ite (ends_complete _) (ends_invalid s)
  | mtxFinder => exact ends_matrixStep _ s
  | mtxSeparator => exact ends_matrixStep _ s
  | mtxAlign => exact ends_matrixStep _ s
  | mtxTiming => exact ends_matrixStep _ s
  | mtxDark => exact ends_matrixStep _ s
  | mtxReserve => exact ends_matrixStep _ s
  | mtxPlace n => exact ends_matrixStep _ s
  | mtxMask => exact ends_matrixStep _ s
  | mtxFormat => exact ends_matrixStep _ s
  | mtxBuild =>
    refine ends_ite (ends_invalid s) ?_
    split
    · exact ends_complete _
    · exact ends_invalid s
  | encode len =>
    show EndsByTheRules (execEncode len s)
    unfold execEncode
    split
    · exact ends_tooLong s
    · split
      · exact ends_complete _
      · exact ends_invalid s

/-! ### The actions of the host -/

theorem inv_exec {i : Instr} {s t : State} (hi : Inv s) (h : exec i s = .next t) : Inv t := by
  have hstatus := ends_exec i s t h
  rcases exec_cases h with ⟨code, -, rfl⟩ | ⟨hp, hw, rfl⟩
  · exact inv_raise hi hstatus.ne
  · exact inv_complete (inv_commandBody hi hp hw)

theorem keeps_write (s : State) (sp : Space) (i : Nat) (v : Byte) : Keeps [sp.part] s (s.write sp i v) :=
  ⟨by simp, fun p hp => by cases sp <;> cases p <;> first | exact absurd (by decide) hp | rfl⟩

theorem inv_hostWrite {s : State} (hi : Inv s) (space index : Nat) (value : Byte) : Inv (hostWrite space index value s) := by
  unfold hostWrite
  split
  · exact hi.of_keeps (keeps_write s .payload index value) (memories := .inl (memoriesCanonical_write hi.memories _ _ _))
  · exact hi.of_keeps (keeps_write s .cw index value) (memories := .inl (memoriesCanonical_write hi.memories _ _ _))
  · exact hi

theorem inv_recordRead {s : State} (hi : Inv s) (space index : Nat) : Inv (recordRead space index s) :=
  hi.of_keeps (ps := [.reads]) ⟨rfl, fun p hp => by cases p <;> first | exact absurd (by decide) hp | rfl⟩

theorem inv_reset : Inv State.reset where
  memories sp := by cases sp <;> rfl
  grid := rfl
  status := by decide
  tables hv := by cases hv
  selection := ⟨rfl, rfl, rfl⟩
  lengths := ⟨by decide, by decide, by decide, .inl rfl, by decide⟩
  geometry := .inl ⟨rfl, rfl, rfl, rfl, rfl⟩
  cells := dataCellsTaken_of_all rfl
  finished hd := by cases hd

theorem inv_resetAgain (s : State) : Inv (resetAgain s) :=
  inv_reset.of_keeps (ps := [.flavors, .resets, .inbox, .reads])
    ⟨rfl, fun p hp => by cases p <;> first | exact absurd (by decide) hp | rfl⟩
    (tables := .inl fun hv => by cases hv)
    (selection := .inl ⟨rfl, rfl, rfl⟩)

theorem inv_perform {a : HostAction} {s t : State} (hi : Inv s) (h : perform a s = .next t) : Inv t := by
  cases a with
  | write space index value => cases h; exact inv_hostWrite hi space index value
  | read space index => cases h; exact inv_recordRead hi space index
  | reset => cases h; exact inv_resetAgain s
  | command w =>
    change runWord w s = .next t at h
    cases hd : decode w with
    | ok i => rw [runWord_ok hd] at h; exact inv_exec hi h
    | error e => rw [runWord_error hd] at h; cases h; exact inv_raise hi (by decide)

theorem inv_step {s t : State} (hi : Inv s) (h : step s = .next t) : Inv t := by
  cases hbox : s.inbox with
  | nil => rw [step_idle hbox] at h; cases h; exact hi
  | cons a rest =>
    rw [step_action hbox] at h
    have hk : Keeps [.inbox] s { s with inbox := rest } :=
      ⟨rfl, fun p hp => by cases p <;> first | exact absurd (by decide) hp | rfl⟩
    exact inv_perform (hi.of_keeps hk) h

/-- Settles O20: taking an action from the queue, a write, a read and a reset keep the invariant; a command is refused and
writes a code it may end with, or its body keeps the invariant. -/
theorem stepKeepsTheInvariant : Obligations.StepKeepsTheInvariant := fun _ _ hi h => inv_step hi h

end Sys2Proof.Machine

/-! ## The state as commands leave it and as the host reads it

A command that completes writes what the access table of 10_state.md R45 lists for it: the frame of its body
(`keeps_commandBody`), and of the parts it writes the three flags (`flags_commandBody`). Then what a host read returns:
the registers by number, the memories and the matrix, and 0 for everything that does not exist. -/

namespace Sys2Proof.Machine

/-! ### The parts a command writes -/

theorem Part.same_raise (s : State) (code : Status) (p : Part) : p.same s (s.raise code) := by cases p <;> rfl

theorem Part.same_complete (s : State) (p : Part) : p.same s s.complete := p.same_raise s .ok

/-- A step command clears `MTX_DONE` before its body runs (44_matrix.md R183). -/
theorem Keeps.clearMtxDone {ps : List Part} {body : State → State} (h : ∀ s, Keeps ps s (body s)) (s : State) :
    Keeps (ps ++ [Part.mtxDone]) s (body (s.setMtxDone false)) :=
  ((keeps_setMtxDone s false).mono fun _ => List.mem_append_right ps).trans
    ((h _).mono fun _ => List.mem_append_left [Part.mtxDone])

/-- `ENCODE` writes what its selection, its stream and its symbol write (45_pipeline.md R230). -/
theorem keeps_encoded (s : State) (len : Nat) :
    Keeps ([.gfExp, .gfLog, .gfValid, .payloadLen, .flavorIdx, .flavorRow, .flavorValid, .format] ++ divisionParts ++
      matrixParts) s (built (encodeStream (s.selected len))) :=
  ((keeps_selected s len).mono (by decide)).trans <| ((keeps_encodeStream _).mono (by decide)).trans <|
    (keeps_built _).mono (by decide)

/-- The body of a command writes the column "writes" of 10_state.md R45. -/
theorem keeps_commandBody (i : Instr) (s : State) : Keeps (writtenParts i) s (commandBody i s) := by
  cases i with
  | gfBuild => exact keeps_gfBuildValid s
  | gfExp e => exact keeps_setResult s _
  | gfLog v => exact keeps_setResult s _
  | gfExpadd a b => exact keeps_setResult s _
  | rsGenpoly n => exact keeps_genpoly _ s
  | rsGenerate n len => exact keeps_divided _ _ _ _ s
  | fmtGenerate v e m => exact keeps_setFormat s _
  | flavorSelect len => exact keeps_selected s _
  | msgPack => exact keeps_msgPack s
  | mtxInit v a => exact keeps_mtxInit _ _ s
  | mtxFinder => exact Keeps.clearMtxDone keeps_mtxFinder s
  | mtxSeparator => exact Keeps.clearMtxDone keeps_mtxSeparator s
  | mtxAlign => exact Keeps.clearMtxDone keeps_mtxAlign s
  | mtxTiming => exact Keeps.clearMtxDone keeps_mtxTiming s
  | mtxDark => exact Keeps.clearMtxDone keeps_mtxDark s
  | mtxReserve => exact Keeps.clearMtxDone keeps_mtxReserve s
  | mtxPlace n => exact Keeps.clearMtxDone (keeps_mtxPlace _) s
  | mtxMask => exact Keeps.clearMtxDone keeps_mtxMask s
  | mtxFormat => exact Keeps.clearMtxDone keeps_mtxFormat s
  | mtxBuild => exact keeps_built s
  | encode len => exact keeps_encoded s _

/-- Settles O17: a refused command writes `STATUS` alone, and the body of a completed one keeps what the table does not
list. -/
theorem commandWritesOnlyItsParts : Obligations.CommandWritesOnlyItsParts := by
  intro i s t p h hp
  rcases exec_cases h with ⟨code, -, rfl⟩ | ⟨-, -, rfl⟩
  · exact Part.same_raise s code p
  · exact Part.same_trans ((keeps_commandBody i s).2 p hp) (Part.same_complete _ p)

/-! ### The flags a command leaves -/

/-- The parts that are flags (10_state.md R25). -/
def flagParts : List Part := [.gfValid, .flavorValid, .mtxDone]

theorem Keeps.flags {ps : List Part} {s t : State} (hk : Keeps ps s t) (hp : Avoids ps flagParts) : t.flags = s.flags := by
  have hgf : t.flags.gfValid = s.flags.gfValid := hk.2 .gfValid (hp _ (by decide))
  have hflavor : t.flags.flavorValid = s.flags.flavorValid := hk.2 .flavorValid (hp _ (by decide))
  have hdone : t.flags.mtxDone = s.flags.mtxDone := hk.2 .mtxDone (hp _ (by decide))
  calc t.flags = ⟨t.flags.gfValid, t.flags.flavorValid, t.flags.mtxDone⟩ := rfl
    _ = s.flags := by rw [hgf, hflavor, hdone]

theorem gfBuildValid_flags (s : State) : (gfBuild s).setGfValid.flags = { s.flags with gfValid := true } := by
  rw [State.setGfValid_flags, (keeps_gfBuild s).flags (by decide)]

theorem encodeStream_flags (s : State) : (encodeStream s).flags = { s.flags with gfValid := true } := by
  have hk : Keeps divisionParts (gfBuild s).setGfValid (encodeStream s) :=
    ((keeps_msgPack _).mono (by decide)).trans (keeps_divided _ _ _ _ _)
  rw [hk.flags (by decide), gfBuildValid_flags]

theorem built_flags (s : State) : (built s).flags = { s.flags with mtxDone := true } := by
  rw [built, State.setMtxDone_flags, (keeps_buildSteps _).flags (by decide)]; rfl

/-- What a completed command makes of the flags (10_state.md R25, 44_matrix.md R183). -/
def flagsAfter : Instr → Flags → Flags
  | .gfBuild, f => { f with gfValid := true }
  | .gfExp _, f => f
  | .gfLog _, f => f
  | .gfExpadd _ _, f => f
  | .rsGenpoly _, f => f
  | .rsGenerate _ _, f => f
  | .fmtGenerate _ _ _, f => f
  | .flavorSelect _, f => { f with flavorValid := true }
  | .msgPack, f => f
  | .mtxInit _ _, f => { f with mtxDone := false }
  | .mtxFinder, f => { f with mtxDone := false }
  | .mtxSeparator, f => { f with mtxDone := false }
  | .mtxAlign, f => { f with mtxDone := false }
  | .mtxTiming, f => { f with mtxDone := false }
  | .mtxDark, f => { f with mtxDone := false }
  | .mtxReserve, f => { f with mtxDone := false }
  | .mtxPlace _, f => { f with mtxDone := false }
  | .mtxMask, f => { f with mtxDone := false }
  | .mtxFormat, f => { f with mtxDone := false }
  | .mtxBuild, f => { f with mtxDone := true }
  | .encode _, _ => ⟨true, true, true⟩

theorem flags_commandBody (i : Instr) (s : State) : (commandBody i s).flags = flagsAfter i s.flags := by
  cases i with
  | gfBuild => exact gfBuildValid_flags s
  | mtxBuild => exact built_flags s
  | encode len =>
    rw [commandBody, built_flags, encodeStream_flags]
    rfl
  | _ => rfl

/-- Settles O18: a refused command does not end with `OK`, and a completed one leaves the flags of `flagsAfter`. -/
theorem flagsAreSetAndClearedByTheirCommands : Obligations.FlagsAreSetAndClearedByTheirCommands := by
  intro i s t h hok
  rcases exec_cases h with ⟨code, hcode, rfl⟩ | ⟨-, -, rfl⟩
  · exact absurd hok hcode
  · rw [State.complete_flags, flags_commandBody]
    cases i <;> simp [flagsAfter]

/-! ### What the host reads: outside a space -/

theorem csrRead_outside (s : State) {n : Nat} (h : 0x18 ≤ n) : csrRead s n = 0 := by
  obtain ⟨k, rfl⟩ := Nat.exists_eq_add_of_le' h
  rfl

theorem hostRead_unknownSpace (s : State) {space : Nat} (index : Nat) (h : 6 < space) : hostRead s space index = 0 := by
  obtain ⟨k, rfl⟩ := Nat.exists_eq_add_of_le' h
  rfl

theorem zext_read_outside (s : State) {sp : Space} {i : Nat} (h : sp.elements ≤ i) : zext (s.read sp i) = 0 := by
  rw [s.read_outside h]; rfl

theorem State.cell_outside (s : State) {r c : Nat} (h : s.size ≤ r ∨ s.size ≤ c) : s.cell r c = QrModule.zero :=
  Grid.get_outside _ (by omega)

theorem matrixRead_outside (s : State) {i : Nat} (h : s.size ≤ i / 64 ∨ s.size ≤ i % 64) : matrixRead s i = 0 := by
  rw [matrixRead, s.cell_outside h]; rfl

/-- Settles O8: space by space; an index of `MATRIX` from 4096 up has a row of 64 or more, and no symbol is that large. -/
theorem readOutsideASpaceIsZero : Obligations.ReadOutsideASpaceIsZero := by
  intro s space index h
  rcases h with ⟨rfl, h⟩ | ⟨rfl, h⟩ | ⟨rfl, h⟩ | ⟨rfl, h⟩ | ⟨rfl | rfl, h⟩ | ⟨rfl, h⟩ | h
  · exact csrRead_outside s h
  · exact zext_read_outside s (sp := .payload) h
  · exact zext_read_outside s (sp := .cw) h
  · exact zext_read_outside s (sp := .gen) h
  · exact zext_read_outside s (sp := .gfExp) h
  · exact zext_read_outside s (sp := .gfLog) h
  · have hsize := s.size_le
    exact matrixRead_outside s (by omega)
  · exact hostRead_unknownSpace s index h

/-! ### What the host reads: inside a space -/

theorem zext_toNat {n : Nat} (h : n ≤ 32) (v : BitVec n) : (zext v).toNat = v.toNat := BitVec.toNat_setWidth_of_le h

/-- `FLAGS` and a module are three bits each (10_state.md R25, R36). -/
theorem threeBits_toNat (a b c : Bool) :
    (BitVec.ofBool a ++ BitVec.ofBool b ++ BitVec.ofBool c).toNat = c.toNat + 2 * b.toNat + 4 * a.toNat := by
  cases a <;> cases b <;> cases c <;> rfl

theorem Flags.word_toNat (f : Flags) : f.word.toNat = f.gfValid.toNat + 2 * f.flavorValid.toNat + 4 * f.mtxDone.toNat :=
  threeBits_toNat _ _ _

theorem QrModule.word_toNat (m : QrModule) : m.word.toNat = m.value.toNat + 2 * m.taken.toNat + 4 * m.isData.toNat :=
  threeBits_toNat _ _ _

theorem Direction.code_toNat (d : Direction) : d.code.toNat = if d = .up then 0 else 1 := by cases d <;> rfl

theorem matrixRead_toNat (s : State) (r : Nat) {c : Nat} (h : c < 64) :
    (matrixRead s (r * 64 + c)).toNat = (s.cell r c).word.toNat := by
  have hrow : (r * 64 + c) / 64 = r := by omega
  have hcol : (r * 64 + c) % 64 = c := by omega
  rw [matrixRead, zext_toNat (by decide), hrow, hcol]

/-- Settles O13: each register is no wider than 32 bits, so that it reads as its number; `STATUS` reads as the code of its
name. -/
theorem registersReadAtTheirNumbers : Obligations.RegistersReadAtTheirNumbers := by
  intro s
  refine ⟨?_, fun i => ⟨rfl, rfl, rfl, rfl, rfl⟩, fun r c hc => ?_⟩
  · have hnumbers : List.range 0x18 =
        [0x00, 0x01, 0x02, 0x03, 0x04, 0x05, 0x06, 0x07, 0x08, 0x09, 0x0A, 0x0B, 0x0C, 0x0D, 0x0E, 0x0F, 0x10, 0x11, 0x12,
          0x13, 0x14, 0x15, 0x16, 0x17] := rfl
    simp only [hnumbers, List.map_cons, List.map_nil, hostRead, csrRead, zext_toNat, Nat.reduceLeDiff, Flags.word_toNat,
      Direction.code_toNat, BitVec.toNat_ofBool]
    cases s.status <;> rfl
  · exact (matrixRead_toNat s r hc).trans (QrModule.word_toNat _)

/-! ### Reset -/

/-- Settles O11: the registers one by one; no index of `MATRIX` is in a symbol of size 0, and no element is written. -/
theorem resetStateReadsAsTheSpecSays : Obligations.ResetStateReadsAsTheSpecSays := by
  refine ⟨fun n => ?_, fun i => matrixRead_outside State.reset (.inl (Nat.zero_le _)), fun sp i h => ?_⟩
  · by_cases hn : n < 0x18
    · revert n; decide
    · rw [if_neg (by omega), if_neg (by omega)]
      exact csrRead_outside State.reset (by omega)
  · have hempty : State.reset.bank sp = [] := by cases sp <;> rfl
    rw [State.read, if_pos h, hempty]; rfl

/-- Settles O19: every register is 0, and the memories and the matrix are empty. -/
theorem resetSatisfiesTheInvariant : Obligations.ResetSatisfiesTheInvariant := inv_reset

end Sys2Proof.Machine

/-! ## What the host's actions do, and where a placement ends

A step is the effect of the next action (`step_action`); a write into a memory of bytes is read back by the host at that
element alone (`hostRead_write_other`). Then the placement, whose loop `placeBits_walk` follows from every position of the
visiting order (44_matrix.md R197): left to say is that the corner of `MTX_INIT` is its position 0. -/

namespace Sys2Proof.Machine

/-! ### A placement -/

/-- The corner `MTX_INIT` puts the cursor in (44_matrix.md R181), as the registers hold it. -/
theorem cursorAt_zero_mtxSize {s : State} (h : SizeLegal s.size) :
    cursorAt s.size 0 = ⟨s.mtxSize - 1, s.mtxSize - 1, .up, false⟩ := by
  have hcorner : BitVec.ofNat 6 (s.size - 1) = s.mtxSize - 1 := by
    unfold SizeLegal at h
    unfold State.size at h ⊢
    bv_omega
  rw [cursorAt_zero h, hcorner]

/-- The cursor `p` steps from the corner stands at position `p` of the visiting order. -/
theorem advance_iterate_corner {s : State} (h : SizeLegal s.size) {p : Nat} (hp : p ≤ walkLength s.size) :
    (Cursor.advance s.size)^[p] ⟨s.mtxSize - 1, s.mtxSize - 1, .up, false⟩ = cursorAt s.size p := by
  rw [← cursorAt_zero_mtxSize h, advance_iterate h (by omega), Nat.zero_add]

/-- Settles O51: with a matrix the command runs the loop of R197 from position `p`, and `placeBits_walk` says what that
leaves in the cells, in `STREAM_BITPOS` and in the cursor. -/
theorem placementFillsTheFreeCellsInOrder : Obligations.PlacementFillsTheFreeCellsInOrder := by
  intro s nbits p hi hm hp start order free wanted n hcursor
  obtain ⟨hsize, -⟩ := geometry_of_matrix hi.geometry hm
  obtain ⟨-, -, hmax, -⟩ := hi.lengths
  have hat : s.cursor = cursorAt s.size p := hcursor.trans (advance_iterate_corner hsize hp)
  obtain ⟨hbitpos, hplaced, hother, q, hq, hend, hwhere⟩ :=
    placeBits_walk hsize hp (limit := 8 * s.cwTotalLen.toNat) (by omega) s.streamBit nbits.toNat
      ⟨s.matrix, s.cursor, s.bitpos⟩ hat (free := free) rfl (wanted := wanted) rfl (k := n) rfl
  exact ⟨_, q, matrixStep_runs hm, rfl, hbitpos, hplaced, hother, hend.trans (advance_iterate_corner hsize hq).symm, hwhere⟩

/-! ### Host writes -/

/-- The host reads a memory of bytes at the number of its space (10_state.md R30); `REM` is in no space (R38). -/
theorem hostRead_number (s : State) {sp : Space} (h : sp ≠ .rem) (i : Nat) : hostRead s sp.number i = zext (s.read sp i) := by
  cases sp with
  | rem => exact absurd rfl h
  | _ => rfl

theorem csrRead_write (s : State) (sp : Space) (i : Nat) (v : Byte) (n : Nat) : csrRead (s.write sp i v) n = csrRead s n := by
  cases sp <;> rfl

theorem matrixRead_write (s : State) (sp : Space) (i : Nat) (v : Byte) (n : Nat) :
    matrixRead (s.write sp i v) n = matrixRead s n := by
  simp [matrixRead, State.cell]

theorem State.read_write_ne (s : State) {sp sq : Space} {i j : Nat} (v : Byte) (h : (sq.number, j) ≠ (sp.number, i)) :
    (s.write sp i v).read sq j = s.read sq j := by
  by_cases hs : sq = sp
  · subst hs
    exact s.read_write_other v fun hj => h (by rw [hj])
  · exact s.read_write_space i j v hs

/-- A write into a memory of bytes changes what the host reads at that element alone. -/
theorem hostRead_write_other (s : State) {sp : Space} {i : Nat} (v : Byte) {space j : Nat} (h : (space, j) ≠ (sp.number, i)) :
    hostRead (s.write sp i v) space j = hostRead s space j := by
  match space with
  | 0 => exact csrRead_write s sp i v j
  | 1 => exact congrArg zext (s.read_write_ne (sq := .payload) v h)
  | 2 => exact congrArg zext (s.read_write_ne (sq := .cw) v h)
  | 3 => exact congrArg zext (s.read_write_ne (sq := .gen) v h)
  | 4 => exact congrArg zext (s.read_write_ne (sq := .gfExp) v h)
  | 5 => exact congrArg zext (s.read_write_ne (sq := .gfLog) v h)
  | 6 => exact matrixRead_write s sp i v j
  | _ + 7 => rfl

/-- Taking the next action from the queue. -/
theorem keeps_inbox (s : State) (rest : List HostAction) : Keeps [.inbox] s { s with inbox := rest } := by
  refine ⟨rfl, fun p hp => ?_⟩
  cases p with
  | inbox => exact absurd (List.mem_singleton_self _) hp
  | _ => rfl

theorem hostRead_inbox (s : State) (rest : List HostAction) (space i : Nat) :
    hostRead { s with inbox := rest } space i = hostRead s space i := rfl

/-- A write into a memory, after its action is taken from the queue: read back, and no other element and no other part is
touched. -/
theorem write_readBack (s : State) (rest : List HostAction) {sp : Space} {i : Nat} (v : Byte) (hsp : sp ≠ .rem)
    (hi : i < sp.elements) :
    let t := State.write { s with inbox := rest } sp i v
    hostRead t sp.number i = v.setWidth 32 ∧
      (∀ space j, (space, j) ≠ (sp.number, i) → hostRead t space j = hostRead s space j) ∧
      t.status = s.status ∧ ∀ p : Part, p ≠ .inbox → p ≠ sp.part → p.same s t := by
  refine ⟨?_, fun space j h => ?_, State.write_status _ sp i v, fun p hinbox hpart => ?_⟩
  · rw [hostRead_number _ hsp, State.read_write_same _ v hi]; rfl
  · rw [hostRead_write_other _ v h, hostRead_inbox]
  · exact Part.same_trans ((keeps_inbox s rest).2 p (by simpa using hinbox)) ((keeps_write _ sp i v).2 p (by simpa using hpart))

/-- Settles O9: either space is a memory of bytes, and the index lies inside it. -/
theorem hostWriteIsReadBack : Obligations.HostWriteIsReadBack := by
  intro s space index value rest hbox h
  refine ⟨hostWrite space index value { s with inbox := rest }, step_action hbox, ?_⟩
  rcases h with ⟨rfl, hi⟩ | ⟨rfl, hi⟩
  · exact write_readBack s rest (sp := .payload) value (by decide) hi
  · exact write_readBack s rest (sp := .cw) value (by decide) hi

/-- Outside its memory a write changes nothing (20_memory.md R62). -/
theorem State.write_outside (s : State) {sp : Space} {i : Nat} (v : Byte) (h : ¬i < sp.elements) : s.write sp i v = s := by
  rw [State.write, Memory.put, if_neg h, State.withBank_bank]

/-- Settles O10: outside `PAYLOAD` and `CW` their writes are ignored, and the port writes no other space. -/
theorem hostWriteElsewhereIsIgnored : Obligations.HostWriteElsewhereIsIgnored := by
  intro s space index value rest hbox h
  have hignored : hostWrite space index value { s with inbox := rest } = { s with inbox := rest } := by
    unfold hostWrite
    split
    · exact State.write_outside _ value fun hi => h (.inl ⟨rfl, hi⟩)
    · exact State.write_outside _ value fun hi => h (.inr ⟨rfl, hi⟩)
    · rfl
  rw [step_action hbox, perform, hignored]

/-! ### Commands, reads and waiting -/

/-- Settles O5: the action taken is the word, and the word is the command. -/
theorem stepRunsTheDecodedCommand : Obligations.StepRunsTheDecodedCommand := by
  intro s w rest i hbox hdecode
  rw [step_action hbox, perform, runWord_ok hdecode]

/-- Settles O7: a read joins the host's record, and it reads the registers and memories, not the queue. -/
theorem readingAndWaitingChangeNoRegister : Obligations.ReadingAndWaitingChangeNoRegister := by
  intro s
  refine ⟨step_idle, fun space index rest hbox => ?_⟩
  rw [step_action hbox, perform, recordRead, hostRead_inbox]

end Sys2Proof.Machine

/-! ## Words and commands

A command word is decoded by its opcode (30_encoding.md R82); the format of the opcode then answers a command only when the
fields it does not use are 0, so that opcode and operands make up the whole word. The row of the opcode table says the same
by mask and match: it accepts a word exactly when encoding the operands found in the word gives the word back
(`rowOf_accepts_iff`). -/

namespace Sys2Proof
open Reference

/-! ### A word by its fields -/

theorem wordR_eq_iff {op a b c : Byte} {w : Word} :
    wordR op a b c = w ↔ opcodeOf w = op ∧ fieldA w = a ∧ fieldB w = b ∧ fieldC w = c := by
  constructor
  · rintro rfl; simp
  · rintro ⟨rfl, rfl, rfl, rfl⟩; exact wordR_fields w

theorem wordI_eq_iff {op a : Byte} {imm : BitVec 16} {w : Word} :
    wordI op a imm = w ↔ opcodeOf w = op ∧ fieldA w = a ∧ fieldImm w = imm := by
  constructor
  · rintro rfl; simp
  · rintro ⟨rfl, rfl, rfl⟩; exact wordI_fields w

theorem wordR_and (op a b c op' a' b' c' : Byte) :
    wordR op a b c &&& wordR op' a' b' c' = wordR (op &&& op') (a &&& a') (b &&& b') (c &&& c') := by
  have h : (op ++ a ++ b ++ c) &&& (op' ++ a' ++ b' ++ c') = (op &&& op') ++ (a &&& a') ++ (b &&& b') ++ (c &&& c') := by
    simp only [BitVec.and_append]
  exact h

/-! ### From a command to its word and back -/

/-- Settles O1, command by command: opcode and fields of the encoded word are those encoded. -/
theorem decodeOfEncodeGivesTheCommandBack : Obligations.DecodeOfEncodeGivesTheCommandBack := by
  intro i
  cases i with
  | gfBuild => exact Laws.RoundTrip.gfBuild
  | gfExp e => exact Laws.RoundTrip.gfExp e
  | gfLog v => exact Laws.RoundTrip.gfLog v
  | gfExpadd a b => exact Laws.RoundTrip.gfExpadd a b
  | rsGenpoly n => exact Laws.RoundTrip.rsGenpoly n
  | rsGenerate n len => exact Laws.RoundTrip.rsGenerate n len
  | fmtGenerate v e m => exact Laws.RoundTrip.fmtGenerate v e m
  | flavorSelect len => exact Laws.RoundTrip.flavorSelect len
  | msgPack => exact Laws.RoundTrip.msgPack
  | mtxInit v a => exact Laws.RoundTrip.mtxInit v a
  | mtxFinder => exact Laws.RoundTrip.mtxFinder
  | mtxSeparator => exact Laws.RoundTrip.mtxSeparator
  | mtxAlign => exact Laws.RoundTrip.mtxAlign
  | mtxTiming => exact Laws.RoundTrip.mtxTiming
  | mtxDark => exact Laws.RoundTrip.mtxDark
  | mtxReserve => exact Laws.RoundTrip.mtxReserve
  | mtxPlace n => exact Laws.RoundTrip.mtxPlace n
  | mtxMask => exact Laws.RoundTrip.mtxMask
  | mtxFormat => exact Laws.RoundTrip.mtxFormat
  | mtxBuild => exact Laws.RoundTrip.mtxBuild
  | encode len => exact Laws.RoundTrip.encode len

theorem encode_injective {i j : Instr} (h : encode i = encode j) : i = j := by
  have hi := decodeOfEncodeGivesTheCommandBack i
  rw [h, decodeOfEncodeGivesTheCommandBack j] at hi
  exact (Except.ok.inj hi).symm

/-! ### From a word to its command and back -/

section
variable {w : Word} {n : Nat} {j : Instr}

theorem opcodeOf_eq_ofNat (h : (opcodeOf w).toNat = n) : opcodeOf w = BitVec.ofNat 8 n := by
  rw [← h, BitVec.ofNat_toNat, BitVec.setWidth_eq]

theorem encode_of_formatN {i : Instr} (hop : (opcodeOf w).toNat = n) (h : formatN w i = .ok j)
    (hi : encode i = wordR (BitVec.ofNat 8 n) 0 0 0) : encode j = w := by
  obtain ⟨hzero, rfl⟩ := acceptIf_ok.mp h
  simp only [Bool.and_eq_true, beq_iff_eq] at hzero
  obtain ⟨⟨ha, hb⟩, hc⟩ := hzero
  exact hi.trans (wordR_eq_iff.mpr ⟨opcodeOf_eq_ofNat hop, ha, hb, hc⟩)

theorem encode_of_formatR1 {i : Byte → Instr} (hop : (opcodeOf w).toNat = n) (h : formatR1 w i = .ok j)
    (hi : ∀ a, encode (i a) = wordR (BitVec.ofNat 8 n) a 0 0) : encode j = w := by
  obtain ⟨hzero, rfl⟩ := acceptIf_ok.mp h
  simp only [Bool.and_eq_true, beq_iff_eq] at hzero
  obtain ⟨hb, hc⟩ := hzero
  exact (hi _).trans (wordR_eq_iff.mpr ⟨opcodeOf_eq_ofNat hop, rfl, hb, hc⟩)

theorem encode_of_formatR2 {i : Byte → Byte → Instr} (hop : (opcodeOf w).toNat = n) (h : formatR2 w i = .ok j)
    (hi : ∀ a b, encode (i a b) = wordR (BitVec.ofNat 8 n) a b 0) : encode j = w := by
  obtain ⟨hc, rfl⟩ := acceptIf_ok.mp h
  exact (hi _ _).trans (wordR_eq_iff.mpr ⟨opcodeOf_eq_ofNat hop, rfl, rfl, beq_iff_eq.mp hc⟩)

theorem encode_of_formatR3 {i : Byte → Byte → Byte → Instr} (hop : (opcodeOf w).toNat = n) (h : formatR3 w i = .ok j)
    (hi : ∀ a b c, encode (i a b c) = wordR (BitVec.ofNat 8 n) a b c) : encode j = w := by
  cases h
  exact (hi _ _ _).trans (wordR_eq_iff.mpr ⟨opcodeOf_eq_ofNat hop, rfl, rfl, rfl⟩)

theorem encode_of_formatI {i : BitVec 16 → Instr} (hop : (opcodeOf w).toNat = n) (h : formatI w i = .ok j)
    (hi : ∀ imm, encode (i imm) = wordI (BitVec.ofNat 8 n) 0 imm) : encode j = w := by
  obtain ⟨ha, rfl⟩ := acceptIf_ok.mp h
  exact (hi _).trans (wordI_eq_iff.mpr ⟨opcodeOf_eq_ofNat hop, beq_iff_eq.mp ha, rfl⟩)

theorem encode_of_formatAI {i : Byte → BitVec 16 → Instr} (hop : (opcodeOf w).toNat = n) (h : formatAI w i = .ok j)
    (hi : ∀ a imm, encode (i a imm) = wordI (BitVec.ofNat 8 n) a imm) : encode j = w := by
  cases h
  exact (hi _ _).trans (wordI_eq_iff.mpr ⟨opcodeOf_eq_ofNat hop, rfl, rfl⟩)

end

/-- Settles O2: the branches of the decoder, gathered by the format of their opcodes (30_encoding.md R82). -/
theorem encodeOfDecodeGivesTheWordBack : Obligations.EncodeOfDecodeGivesTheWordBack := by
  intro w i h
  unfold decode at h
  split at h
  case h_2 hop | h_3 hop | h_5 hop => exact encode_of_formatR1 hop h fun _ => rfl
  case h_4 hop | h_10 hop => exact encode_of_formatR2 hop h fun _ _ => rfl
  case h_6 hop => exact encode_of_formatAI hop h fun _ _ => rfl
  case h_7 hop => exact encode_of_formatR3 hop h fun _ _ _ => rfl
  case h_8 hop | h_17 hop | h_21 hop => exact encode_of_formatI hop h fun _ => rfl
  case h_22 => cases h
  case h_1 hop | h_9 hop | h_11 hop | h_12 hop | h_13 hop | h_14 hop | h_15 hop | h_16 hop | h_18 hop | h_19 hop | h_20 hop =>
    exact encode_of_formatN hop h rfl

/-! ### The row of a command -/

/-- The mask of a command's row: the opcode, and the fields its format requires to be 0 (30_encoding.md R80, R83). -/
def fixedBits : Instr → Word
  | .gfExp _ | .gfLog _ | .rsGenpoly _ => wordR 0xFF 0 0xFF 0xFF
  | .gfExpadd _ _ | .mtxInit _ _ => wordR 0xFF 0 0 0xFF
  | .rsGenerate _ _ | .fmtGenerate _ _ _ => wordR 0xFF 0 0 0
  | .flavorSelect _ | .mtxPlace _ | .encode _ => wordR 0xFF 0xFF 0 0
  | _ => wordR 0xFF 0xFF 0xFF 0xFF

/-- The command of the same row with the operands that stand in the fields of `w` (30_encoding.md R81). -/
def withOperandsOf (w : Word) : Instr → Instr
  | .gfExp _ => .gfExp (fieldA w)
  | .gfLog _ => .gfLog (fieldA w)
  | .gfExpadd _ _ => .gfExpadd (fieldA w) (fieldB w)
  | .rsGenpoly _ => .rsGenpoly (fieldA w)
  | .rsGenerate _ _ => .rsGenerate (fieldA w) (fieldImm w)
  | .fmtGenerate _ _ _ => .fmtGenerate (fieldA w) (fieldB w) (fieldC w)
  | .flavorSelect _ => .flavorSelect (fieldImm w)
  | .mtxInit _ _ => .mtxInit (fieldA w) (fieldB w)
  | .mtxPlace _ => .mtxPlace (fieldImm w)
  | .encode _ => .encode (fieldImm w)
  | i => i

/-- The row of the opcode table made from a command: its match is the opcode with every other bit 0. -/
def rowOf (i : Instr) : OpcodeRow := ⟨mnemonic i, fixedBits i, wordR (opcodeOf (encode i)) 0 0 0⟩

theorem withOperandsOf_encode (i : Instr) : withOperandsOf (encode i) i = i := by
  cases i <;> simp [withOperandsOf, encode]

theorem rowOf_withOperandsOf (w : Word) (i : Instr) : rowOf (withOperandsOf w i) = rowOf i := by
  cases i <;> simp [rowOf, withOperandsOf, mnemonic, fixedBits, encode]

/-- The table has the rows of the commands, and no other. -/
theorem opcodeRows_eq : opcodeRows =
    [.gfBuild, .gfExp 0, .gfLog 0, .gfExpadd 0 0, .rsGenpoly 0, .rsGenerate 0 0, .fmtGenerate 0 0 0, .flavorSelect 0,
      .msgPack, .mtxInit 0 0, .mtxFinder, .mtxSeparator, .mtxAlign, .mtxTiming, .mtxDark, .mtxReserve, .mtxPlace 0,
      .mtxMask, .mtxFormat, .mtxBuild, .encode 0].map rowOf := rfl

theorem exists_rowOf {q : OpcodeRow} (h : q ∈ opcodeRows) : ∃ i, rowOf i = q := by
  rw [opcodeRows_eq] at h
  obtain ⟨i, -, hi⟩ := List.mem_map.mp h
  exact ⟨i, hi⟩

theorem rowOf_mem (i : Instr) : rowOf i ∈ opcodeRows := by
  rw [opcodeRows_eq, ← rowOf_withOperandsOf 0 i]
  refine List.mem_map_of_mem ?_
  cases i <;> simp [withOperandsOf, fieldA, fieldB, fieldC, fieldImm]

/-! ### What a row accepts -/

@[simp] theorem byte_and_ff (a : Byte) : a &&& 255#8 = a := BitVec.and_allOnes

theorem accepts_iff {m : String} {op ma mb mc : Byte} {w : Word} :
    OpcodeRow.accepts ⟨m, wordR 0xFF ma mb mc, wordR op 0 0 0⟩ w = true ↔
      opcodeOf w = op ∧ fieldA w &&& ma = 0 ∧ fieldB w &&& mb = 0 ∧ fieldC w &&& mc = 0 := by
  have hand : w &&& wordR 0xFF ma mb mc = wordR (opcodeOf w) (fieldA w &&& ma) (fieldB w &&& mb) (fieldC w &&& mc) :=
    calc w &&& wordR 0xFF ma mb mc
      _ = wordR (opcodeOf w) (fieldA w) (fieldB w) (fieldC w) &&& wordR 0xFF ma mb mc := by rw [wordR_fields]
      _ = _ := by rw [wordR_and]; simp
  rw [OpcodeRow.accepts, beq_iff_eq, hand, eq_comm, wordR_eq_iff]
  simp

/-- A row accepts a word exactly when opcode and operands of the word make it up. -/
theorem rowOf_accepts_iff (i : Instr) (w : Word) : (rowOf i).accepts w = true ↔ encode (withOperandsOf w i) = w := by
  cases i <;> exact accepts_iff.trans (by simp [encode, withOperandsOf, wordR_eq_iff, wordI_eq_iff])

/-- Settles O3: a row that accepts `w` is the row of a command with the word `w`; by O1 and O2 that is what `w` decodes to. -/
theorem wordIsTheCommandOfItsOneTableRow : Obligations.WordIsTheCommandOfItsOneTableRow := by
  intro w
  split
  next i h =>
    have hw : encode i = w := encodeOfDecodeGivesTheWordBack w i h
    refine ⟨rowOf i, rowOf_mem i, rfl, fun q hq => ⟨fun hacc => ?_, ?_⟩⟩
    · obtain ⟨k, rfl⟩ := exists_rowOf hq
      have hk : withOperandsOf w k = i := encode_injective (((rowOf_accepts_iff k w).mp hacc).trans hw.symm)
      rw [← hk, rowOf_withOperandsOf]
    · rintro rfl
      rw [rowOf_accepts_iff, ← hw, withOperandsOf_encode]
  next e h =>
    intro q hq
    obtain ⟨k, rfl⟩ := exists_rowOf hq
    rw [Bool.eq_false_iff]
    intro hacc
    have hdecode := decodeOfEncodeGivesTheCommandBack (withOperandsOf w k)
    rw [(rowOf_accepts_iff k w).mp hacc, h] at hdecode
    cases hdecode

/-- Settles O4: the decoder evaluated on each word. -/
theorem wordsOfTheSpecDecode : Obligations.WordsOfTheSpecDecode := by
  unfold Obligations.WordsOfTheSpecDecode
  decide

end Sys2Proof

/-! ## Every action of the host has an effect -/

namespace Sys2Proof.Machine

theorem exists_exec (i : Instr) (s : State) : ∃ t, exec i s = .next t := by
  rcases exec_outcome i s with ⟨code, -, h⟩ | ⟨-, -, h⟩ <;> exact ⟨_, h⟩

theorem exists_perform (a : HostAction) (s : State) : ∃ t, perform a s = .next t := by
  cases a with
  | write space index value => exact ⟨_, rfl⟩
  | read space index => exact ⟨_, rfl⟩
  | reset => exact ⟨_, rfl⟩
  | command w =>
    show ∃ t, runWord w s = .next t
    cases hd : decode w with
    | ok i => rw [runWord_ok hd]; exact exists_exec i s
    | error e => exact ⟨_, runWord_error hd s⟩

/-- Settles O16: with no action CORE waits, and every action has an effect; a refused command or word leaves a state too. -/
theorem everyStepAnswersANextState : Obligations.EveryStepAnswersANextState := by
  intro s
  cases hbox : s.inbox with
  | nil => exact ⟨s, step_idle hbox⟩
  | cons a rest => rw [step_action hbox]; exact exists_perform a _

end Sys2Proof.Machine

/-! ## The field commands

`GF_BUILD` leaves the printed tables, the lookups read them, and the exponent sum is the product of the field: each command
in one equation, from which the statements of 40_gf.md follow. -/

namespace Sys2Proof.Machine
open Reference

/-! ### GF_BUILD -/

theorem exec_gfBuild (s : State) : exec .gfBuild s = .next (gfBuild s).setGfValid.complete := rfl

@[simp] theorem State.read_complete (s : State) (sp : Space) (i : Nat) : s.complete.read sp i = s.read sp i :=
  State.read_congr rfl rfl i

@[simp] theorem State.read_setGfValid (s : State) (sp : Space) (i : Nat) : s.setGfValid.read sp i = s.read sp i :=
  State.read_congr rfl rfl i

/-- A build writes the two tables alone. -/
theorem exists_gfBuild_eq (s : State) : ∃ expTable logTable, gfBuild s = { s with gfExp := expTable, gfLog := logTable } :=
  ⟨_, _, rfl⟩

/-- Settles O22: the build writes the two tables, the flag and `STATUS`, and what the loop leaves is what is printed. -/
theorem gfBuildFillsBothTables : Obligations.GfBuildFillsBothTables := by
  intro s
  refine ⟨_, exec_gfBuild s, ?_, fun i => ?_⟩
  · obtain ⟨expTable, logTable, h⟩ := exists_gfBuild_eq s
    rw [h]
    rfl
  · simp only [State.read_complete, State.read_setGfValid]
    exact tablesBuilt_gfBuild s i

/-- Two builds leave the same at every index: the printed entry, and 0 outside the table. -/
theorem gfBuild_read_eq (s s' : State) (i : Nat) :
    (gfBuild s).read .gfExp i = (gfBuild s').read .gfExp i ∧ (gfBuild s).read .gfLog i = (gfBuild s').read .gfLog i := by
  by_cases hi : i < 256
  · obtain ⟨b, rfl⟩ : ∃ b : Byte, b.toNat = i := ⟨BitVec.ofNat 8 i, Nat.mod_eq_of_lt hi⟩
    exact ⟨(gfBuild_gfExp s b).trans (gfBuild_gfExp s' b).symm, (gfBuild_gfLog s b).trans (gfBuild_gfLog s' b).symm⟩
  · have outside (t : State) (sp : Space) (h : sp.elements = 256) : t.read sp i = 0 := t.read_outside (by omega)
    simp only [outside _ _ Space.elements_gfExp, outside _ _ Space.elements_gfLog, and_self]

/-! ### The lookups -/

theorem exec_gfExp_ready {s : State} (h : tablesReady s) (e : Byte) :
    exec (.gfExp e) s = .next (s.setResult (expTable.getD e.toNat 0)).complete := by
  rw [← (h.2 h.1 e).1]
  exact if_pos h.1

theorem exec_gfLog_ready {s : State} (h : tablesReady s) (v : Byte) :
    exec (.gfLog v) s = .next (s.setResult (logTable.getD v.toNat 0)).complete := by
  rw [← (h.2 h.1 v).2]
  exact if_pos h.1

theorem exec_gfExp_refused {s : State} (h : ¬ s.flags.gfValid = true) (e : Byte) :
    exec (.gfExp e) s = .next (s.raise .invalidParameter) := if_neg h

theorem exec_gfLog_refused {s : State} (h : ¬ s.flags.gfValid = true) (v : Byte) :
    exec (.gfLog v) s = .next (s.raise .invalidParameter) := if_neg h

/-- Settles O23: with `GF_VALID` the tables are ready and a lookup reads the printed entry; without it, it is refused. -/
theorem fieldLookupsReturnTheTableEntry : Obligations.FieldLookupsReturnTheTableEntry := by
  intro s v hb
  by_cases h : s.flags.gfValid = true
  · rw [if_pos h, if_pos h]
    exact ⟨exec_gfExp_ready ⟨h, hb⟩ v, exec_gfLog_ready ⟨h, hb⟩ v⟩
  · rw [if_neg h, if_neg h]
    exact ⟨exec_gfExp_refused h v, exec_gfLog_refused h v⟩

/-- A result changes no table. -/
theorem tablesReady_result {s : State} (h : tablesReady s) (v : Byte) : tablesReady (s.setResult v).complete := h

/-- `expTable_logTable` with its exception: `GF_LOG[0]` is 0, and 2^0 is 1 (40_gf.md R110). -/
theorem expTable_logTable_all (v : Byte) : expTable.getD (logTable.getD v.toNat 0).toNat 0 = if v = 0 then 1 else v := by
  split
  next h => subst h; decide
  next h => exact expTable_logTable v h

theorem exec_gfLog_gfExp {s : State} (h : tablesReady s) (v : Byte) :
    ∃ t u, exec (.gfLog v) s = .next t ∧ exec (.gfExp t.result) t = .next u ∧ u.status = .ok ∧
      u.result = if v = 0 then 1 else v :=
  ⟨_, _, exec_gfLog_ready h v, exec_gfExp_ready (tablesReady_result h _) _, rfl, expTable_logTable_all v⟩

theorem exec_gfExp_gfLog {s : State} (h : tablesReady s) (e : Byte) :
    ∃ t u, exec (.gfExp e) s = .next t ∧ exec (.gfLog t.result) t = .next u ∧ u.status = .ok ∧
      u.result = if e = 255 then 0 else e :=
  ⟨_, _, exec_gfExp_ready h e, exec_gfLog_ready (tablesReady_result h _) _, rfl, logTable_expTable e⟩

/-- Settles O26: the first lookup keeps the tables ready for the second, and the printed tables undo each other. -/
theorem logThenExpReturnsEveryNonzeroByte : Obligations.LogThenExpReturnsEveryNonzeroByte := by
  refine ⟨fun s v h => ⟨exec_gfLog_gfExp h v, exec_gfExp_gfLog h v⟩, fun s s' => ?_⟩
  refine ⟨_, _, exec_gfBuild s, exec_gfBuild s', fun i => ?_⟩
  simp only [State.read_complete, State.read_setGfValid]
  exact gfBuild_read_eq s s' i

/-! ### The exponent sum -/

theorem exec_gfExpadd (a b : Byte) (s : State) : exec (.gfExpadd a b) s = .next (s.setResult (expadd a b)).complete := rfl

theorem expadd_eq_ofNat (a b : Byte) :
    expadd a b = BitVec.ofNat 8 (if 255 < a.toNat + b.toNat then a.toNat + b.toNat - 255 else a.toNat + b.toNat) := by
  rw [← expadd_toNat, BitVec.ofNat_toNat, BitVec.setWidth_eq]

/-- Settles O24: the command writes `expadd`, whose number is the sum less 255 when above it. -/
theorem exponentSumWrapsWithItsCarry : Obligations.ExponentSumWrapsWithItsCarry := by
  intro s a b
  rw [exec_gfExpadd, expadd_eq_ofNat]
  rfl

/-- The exponent sum is the exponent a + b: 255 is taken off, and 2^255 = 1 (40_gf.md R104). -/
theorem power_expadd_add (a b : Byte) : power (expadd a b).toNat = power (a.toNat + b.toNat) := by
  rw [power_expadd, power_mul_power]

theorem expadd_eq_zero_iff (a b : Byte) : expadd a b = 0 ↔ a = 0 ∧ b = 0 := by
  simp only [← BitVec.toNat_inj, expadd_toNat, show (0 : Byte).toNat = 0 from rfl]
  split <;> omega

theorem expadd_eq_255_iff (a b : Byte) : expadd a b = 255 ↔ a.toNat + b.toNat = 255 ∨ a.toNat + b.toNat = 510 := by
  have ha := a.isLt
  have hb := b.isLt
  rw [← BitVec.toNat_inj, expadd_toNat, show (255 : Byte).toNat = 255 from rfl]
  split <;> omega

theorem expadd_comm (a b : Byte) : expadd a b = expadd b a := by
  rw [expadd_eq_ofNat, expadd_eq_ofNat, Nat.add_comm]

/-- Settles O25: the printed entries are powers of 2, so the entry of the exponent sum is the product of the entries; the
rest is its number `expadd_toNat`. -/
theorem exponentSumIsTheFieldProduct : Obligations.ExponentSumIsTheFieldProduct := by
  intro a b
  simp only [expTable_eq]
  exact ⟨rfl, power_expadd a b, power_expadd_add a b, expadd_mod a b, expadd_eq_zero_iff a b, expadd_eq_255_iff a b,
    expadd_comm a b⟩

end Sys2Proof.Machine

/-! ## The Reed–Solomon commands

The check bytes as a function of the message and of the two tables; each command says in one equation, or one structure,
what it leaves in terms of that function, and the statements of 41_rs.md are then facts about the function. -/

namespace Sys2Proof.Machine
open Reference

/-! ### The check bytes of a message -/

/-- The `n` check bytes of a message: the remainder of the message and `n` zeros by the generator (41_rs.md R123). -/
def checkBytes (expOf logOf : Byte → Byte) (n : Nat) (message : List Byte) : List Byte :=
  divideSteps expOf logOf (generator expOf logOf n).tail message.length (message ++ List.replicate n 0)

theorem length_checkBytes (expOf logOf : Byte → Byte) (n : Nat) (message : List Byte) :
    (checkBytes expOf logOf n message).length = n := by
  simp [checkBytes, length_divideSteps]

/-- 41_rs.md R124: a zero lead is discarded and nothing is added. -/
theorem divideStep_zero_cons (expOf logOf : Byte → Byte) (gen rest : List Byte) :
    divideStep expOf logOf gen (0 :: rest) = rest := by rw [divideStep, if_pos rfl]

theorem checkBytes_zero_cons (expOf logOf : Byte → Byte) (n : Nat) (message : List Byte) :
    checkBytes expOf logOf n (0 :: message) = checkBytes expOf logOf n message := by
  rw [checkBytes, List.length_cons, List.cons_append, divideSteps, divideStep_zero_cons, checkBytes]

theorem checkBytes_replicate_zero (expOf logOf : Byte → Byte) (n len : Nat) :
    checkBytes expOf logOf n (List.replicate len 0) = List.replicate n 0 := by
  induction len with
  | zero => rfl
  | succ len ih => rw [List.replicate_succ, checkBytes_zero_cons, ih]

theorem checkBytes_zipWith_xor {expOf logOf : Byte → Byte} (ht : IsTables expOf logOf) (n : Nat) {m m' : List Byte}
    (h : m.length = m'.length) :
    checkBytes expOf logOf n (List.zipWith (· ^^^ ·) m m') =
      List.zipWith (· ^^^ ·) (checkBytes expOf logOf n m) (checkBytes expOf logOf n m') := by
  have hpad : List.zipWith (· ^^^ ·) m m' ++ List.replicate n (0 : Byte) =
      List.zipWith (· ^^^ ·) (m ++ List.replicate n 0) (m' ++ List.replicate n 0) := by
    rw [List.zipWith_append h, List.zipWith_replicate]
    simp
  simp only [checkBytes]
  rw [hpad, divideSteps_linear ht _ _ (by simp [h]), List.length_zipWith, h, Nat.min_self]

/-- The check bytes have at each root the value of the padded message. -/
theorem eval_checkBytes {expOf logOf : Byte → Byte} (ht : IsTables expOf logOf) {n i : Nat} (hn : n ≤ 254) (hi : i < n)
    (message : List Byte) :
    eval (power i) (checkBytes expOf logOf n message) = mul (eval (power i) message) (pow (power i) n) := by
  have hlen : (generator expOf logOf n).tail.length = n := by
    rw [List.length_tail, length_generator _ _ (by omega), Nat.add_sub_cancel]
  have hroot : eval (power i) ((generator expOf logOf n).tail.map expOf) = pow (power i) n := by
    rw [List.map_tail, generator_values ht (by omega) hn, eval_tail_rootProduct hi]
  rw [checkBytes, eval_divideSteps ht (by rw [hroot, hlen]) _ (by simp [hlen]; omega), eval_append, eval_replicate_zero,
    List.length_replicate]
  exact BitVec.xor_zero

/-- A message followed by its check bytes vanishes at each root (41_rs.md R125). -/
theorem eval_append_checkBytes {expOf logOf : Byte → Byte} (ht : IsTables expOf logOf) {n i : Nat} (hn : n ≤ 254)
    (hi : i < n) (message : List Byte) : eval (power i) (message ++ checkBytes expOf logOf n message) = 0 := by
  rw [eval_append, eval_checkBytes ht hn hi, length_checkBytes]
  exact BitVec.xor_self

/-! ### RS_GENPOLY -/

theorem exec_rsGenpoly {s : State} {n : Byte} (hv : s.flags.gfValid = true) (h : 7 ≤ n.toNat ∧ n.toNat ≤ 254) :
    exec (.rsGenpoly n) s = .next (genpoly n.toNat s).complete := execRsGenpoly_runs hv h

@[simp] theorem State.block_complete (s : State) (sp : Space) (b n : Nat) : s.complete.block sp b n = s.block sp b n :=
  State.block_congr rfl rfl b n

/-- `GEN` above the generator is as before. -/
theorem genpoly_read_above {n : Nat} (h1 : 1 ≤ n) (s : State) {j : Nat} (hj : n < j) :
    (genpoly n s).read .gen j = s.read .gen j := by
  have hstore : (genpoly n s).read .gen j = (s.store .gen 0 (generator s.expAt s.logAt n)).read .gen j :=
    State.read_congr rfl (by simp) j
  rw [hstore, State.read_store_above _ _ _ (by rw [length_generator _ _ h1]; omega)]

/-- `GEN[j]` is the coefficient `j` of the generator. -/
theorem genpoly_read_gen {n : Nat} (h1 : 1 ≤ n) (hn : n ≤ 254) (s : State) {j : Nat} (hj : j ≤ n) :
    (genpoly n s).read .gen j = (generator s.expAt s.logAt n).getD j 0 := by
  rw [← genpoly_block h1 hn, block_getD _ _ _ (by omega), Nat.zero_add]

/-- Settles O27: `GEN[0..n]` is the generator, whose values are the product of the roots (`generator_values`, by the passes)
and whose shape every pass keeps (`generator_shape`). -/
theorem genpolyStoresTheProductOfTheRoots : Obligations.GenpolyStoresTheProductOfTheRoots := by
  intro s n hs h7 hn
  have ht := isTables_of_ready hs
  have hvalues := generator_values ht (n := n.toNat) (by omega) hn
  obtain ⟨hfirst, hmiddle, hlast⟩ := generator_shape ht (n := n.toNat) (by omega) hn
  refine ⟨_, exec_rsGenpoly hs.1 ⟨h7, hn⟩, rfl, ?_, ?_, ?_, ?_, ?_, ?_⟩
  · show (BitVec.ofNat 8 (n.toNat + 1)).toNat = n.toNat + 1
    rw [BitVec.toNat_ofNat]; omega
  · rw [State.block_complete, genpoly_block (by omega) hn, ← expAt_eq hs, hvalues]
  · rw [State.read_complete, genpoly_read_gen (by omega) hn s (by omega), hfirst]
  · rw [State.read_complete, genpoly_read_gen (by omega) hn s le_rfl]; exact hlast
  · intro j h1 hj
    rw [State.read_complete, genpoly_read_gen (by omega) hn s (by omega)]; exact hmiddle j h1 hj
  · intro j hj
    rw [State.read_complete, genpoly_read_above (by omega) s hj]

/-- The generators computed from the printed tables are the printed ones (41_rs.md R130). -/
theorem generator_eq_printed : ∀ g ∈ generators, (7 ≤ g.length - 1 ∧ g.length - 1 ≤ 254) ∧
    generator (fun e => expTable.getD e.toNat 0) (fun v => logTable.getD v.toNat 0) (g.length - 1) = g := by
  decide +kernel

/-- Settles O28: with the tables built, `GEN[0..n]` is the generator from the printed tables, and those are ten closed
facts. -/
theorem genpolyGivesThePrintedGenerators : Obligations.GenpolyGivesThePrintedGenerators := by
  intro s g hs hg
  obtain ⟨⟨h7, hn⟩, hgen⟩ := generator_eq_printed g hg
  have hd : (BitVec.ofNat 8 (g.length - 1)).toNat = g.length - 1 := by rw [BitVec.toNat_ofNat]; omega
  refine ⟨_, exec_rsGenpoly hs.1 (by omega), rfl, ?_⟩
  have hblock := genpoly_block (n := g.length - 1) (by omega) hn s
  rw [Nat.sub_add_cancel (by omega), expAt_eq hs, logAt_eq hs, hgen] at hblock
  rw [State.block_complete, hd, hblock]

/-! ### RS_GENERATE -/

/-- What `RS_GENERATE n, len` leaves, the tables holding what they may: the message, its check bytes and the generator. -/
structure Generated (n len : Nat) (s t : State) : Prop where
  status : t.status = .ok
  message : t.block .cw 0 len = s.block .cw 0 len
  check : t.block .cw len n = checkBytes s.expAt s.logAt n (s.block .cw 0 len)
  gen : t.block .gen 0 (n + 1) = generator s.expAt s.logAt n

theorem exec_rsGenerate {s : State} {n : Byte} {len : BitVec 16} (hv : s.flags.gfValid = true)
    (h : 7 ≤ n.toNat ∧ n.toNat ≤ 254) (hl : len.toNat ≤ 256) :
    exec (.rsGenerate n len) s = .next ((rsDivide n.toNat len.toNat (genpoly n.toNat s)).setStreamLen len.toNat
      (len.toNat + n.toNat)).complete := execRsGenerate_runs hv h hl

theorem exists_generated {s : State} {n : Byte} {len : BitVec 16} (hv : s.flags.gfValid = true)
    (h : 7 ≤ n.toNat ∧ n.toNat ≤ 254) (hl : len.toNat ≤ 256) :
    ∃ t, exec (.rsGenerate n len) s = .next t ∧ Generated n.toNat len.toNat s t := by
  obtain ⟨hmessage, hcheck, hgen⟩ := rsGenerate_blocks (n := n.toNat) (by omega) h.2 hl s len.toNat (len.toNat + n.toNat)
  refine ⟨_, exec_rsGenerate hv h hl, rfl, hmessage, ?_, hgen⟩
  rw [hcheck, checkBytes, State.block_length]

/-- `exists_generated` for the next state at hand. -/
theorem generated_of_exec {s t : State} {n : Byte} {len : BitVec 16} (hv : s.flags.gfValid = true)
    (h : 7 ≤ n.toNat ∧ n.toNat ≤ 254) (hl : len.toNat ≤ 256) (he : exec (.rsGenerate n len) s = .next t) :
    Generated n.toNat len.toNat s t := by
  obtain ⟨u, hu, hg⟩ := exists_generated hv h hl
  rw [he] at hu
  cases hu
  exact hg

/-- The codeword is the message and its check bytes. -/
theorem Generated.codeword {n len : Nat} {s t : State} (h : Generated n len s t) :
    t.block .cw 0 (len + n) = s.block .cw 0 len ++ checkBytes s.expAt s.logAt n (s.block .cw 0 len) := by
  rw [block_append, Nat.zero_add, h.message, h.check]

/-- All states whose tables are built hold the same tables. -/
theorem tables_eq {s s' : State} (h : tablesReady s) (h' : tablesReady s') :
    s'.expAt = s.expAt ∧ s'.logAt = s.logAt := by
  rw [expAt_eq h, expAt_eq h', logAt_eq h, logAt_eq h']
  exact ⟨rfl, rfl⟩

/-- Settles O29: each division step keeps the value at a root of the generator, so the check bytes have the value of the
padded message, and the two cancel. -/
theorem codewordVanishesAtEveryRoot : Obligations.CodewordVanishesAtEveryRoot := by
  intro s n len hs h7 hn hl
  obtain ⟨t, ht, hg⟩ := exists_generated hs.1 ⟨h7, hn⟩ hl
  refine ⟨t, ht, hg.status, fun i hi => ?_⟩
  rw [hg.codeword, eval_append_checkBytes (isTables_of_ready hs) hn hi]

/-- Settles O30: the generator is that of `RS_GENPOLY` by definition, and the division stores in `CW[len..len+n−1]` alone. -/
theorem divisionWritesOnlyTheCheckBytes : Obligations.DivisionWritesOnlyTheCheckBytes := by
  intro s n len hv h7 hn hl
  refine ⟨_, _, exec_rsGenerate hv ⟨h7, hn⟩ hl, exec_rsGenpoly hv ⟨h7, hn⟩, rfl, ?_, ?_, rfl, rfl, fun i hi => ?_⟩
  · show (BitVec.ofNat 9 len.toNat).toNat = len.toNat
    rw [BitVec.toNat_ofNat]; omega
  · show (BitVec.ofNat 10 (len.toNat + n.toNat)).toNat = len.toNat + n.toNat
    rw [BitVec.toNat_ofNat]; omega
  · rw [State.read_complete, State.read_congr (State.setStreamLen_bank _ _ _ _) rfl, rsDivide_read_outside _ _ _ hi,
      genpoly_read_other _ _ (by decide)]

/-- Settles O31: codeword and generator are functions of the message and of the tables, which are the printed ones. -/
theorem checkBytesDependOnTheMessageAlone : Obligations.CheckBytesDependOnTheMessageAlone := by
  intro s s' t t' n len hs hs' h7 hn hl hmessage ht ht'
  have hg := generated_of_exec hs.1 ⟨h7, hn⟩ hl ht
  have hg' := generated_of_exec hs'.1 ⟨h7, hn⟩ hl ht'
  obtain ⟨hexp, hlog⟩ := tables_eq hs hs'
  rw [hg.codeword, hg'.codeword, hg.gen, hg'.gen, hexp, hlog, hmessage]
  exact ⟨rfl, rfl⟩

/-- Settles O32: each division step is linear in the remainder (`divideSteps_linear`), and the padding is zero. -/
theorem checkBytesAreLinear : Obligations.CheckBytesAreLinear := by
  intro s s' s'' t t' t'' n len hs hs' hs'' h7 hn hl hmessage ht ht' ht''
  have hg := generated_of_exec hs.1 ⟨h7, hn⟩ hl ht
  have hg' := generated_of_exec hs'.1 ⟨h7, hn⟩ hl ht'
  have hg'' := generated_of_exec hs''.1 ⟨h7, hn⟩ hl ht''
  obtain ⟨hexp', hlog'⟩ := tables_eq hs hs'
  obtain ⟨hexp'', hlog''⟩ := tables_eq hs hs''
  rw [hg.check, hg'.check, hg''.check, hmessage, hexp', hlog', hexp'', hlog'']
  exact checkBytes_zipWith_xor (isTables_of_ready hs) _ (by simp)

/-- Settles O33: the first division step passes over the zero lead and leaves the padded message. -/
theorem leadingZeroIsPassedOver : Obligations.LeadingZeroIsPassedOver := by
  intro s s' t t' n len hs hs' h7 hn hl hmessage ht ht'
  have hlen : (len + 1).toNat = len.toNat + 1 := by
    rw [BitVec.toNat_add, show (1 : BitVec 16).toNat = 1 from rfl]; omega
  have hg := generated_of_exec hs.1 ⟨h7, hn⟩ (by omega) ht
  have hg' := generated_of_exec hs'.1 ⟨h7, hn⟩ (by omega) ht'
  obtain ⟨hexp, hlog⟩ := tables_eq hs hs'
  rw [hlen] at hg'
  rw [hg.check, hg'.check, hexp, hlog, hmessage, checkBytes_zero_cons]

/-- Settles O34: every lead is zero, so every division step passes it over, whatever the tables hold. -/
theorem zeroMessageHasZeroCheckBytes : Obligations.ZeroMessageHasZeroCheckBytes := by
  intro s n len hv h7 hn hl hmessage
  obtain ⟨t, ht, hg⟩ := exists_generated hv ⟨h7, hn⟩ hl
  exact ⟨t, ht, hg.status, by rw [hg.check, hmessage, checkBytes_replicate_zero]⟩

/-- 95_test_vectors.md T5, from the printed tables. -/
theorem checkBytes_golden :
    checkBytes (fun e => expTable.getD e.toNat 0) (fun v => logTable.getD v.toNat 0) 17
        [0x40, 0x00, 0xEC, 0x11, 0xEC, 0x11, 0xEC, 0x11, 0xEC] =
      [0x6D, 0x99, 0xF8, 0xE5, 0x4A, 0x68, 0x67, 0x8E, 0x79, 0x8A, 0x72, 0xAA, 0xA3, 0x82, 0x3E, 0xDD, 0x9A] := by
  decide +kernel

/-- Settles O35: with the tables built the check bytes are those from the printed tables, a closed fact. -/
theorem goldenVectorOfTheDivision : Obligations.GoldenVectorOfTheDivision := by
  intro s hs hmessage
  have hexec := exec_rsGenerate (n := 17) (len := 9) hs.1 (by decide) (by decide)
  have hcheck := (generated_of_exec hs.1 (by decide) (by decide) hexec).check
  refine ⟨_, hexec, rfl, rfl, rfl, hcheck.trans ?_⟩
  show checkBytes s.expAt s.logAt 17 (s.block .cw 0 9) = _
  rw [hmessage, expAt_eq hs, logAt_eq hs, checkBytes_golden]

end Sys2Proof.Machine

/-! ## The format command

`FMT_GENERATE` in one equation for legal operands and one for the others; the strings it computes are the printed ones. -/

namespace Sys2Proof.Machine
open Reference

/-- The 15-bit strings are those of 42_fmt.md R146. -/
theorem fmt15_eq_printed : ∀ e < 4, ∀ m < 8,
    fmt15 (BitVec.ofNat 18 e) (BitVec.ofNat 18 m) = (format15.getD e []).getD m 0 := by decide +kernel

/-- The 18-bit strings are those of 42_fmt.md R147, which begin at version 7. -/
theorem fmt18_eq_printed : ∀ i < 34, fmt18 (BitVec.ofNat 18 (7 + i)) = format18.getD i 0 := by decide +kernel

/-- The encoder computes the 15-bit string below version 7 and the 18-bit string from there on (42_fmt.md R140). -/
theorem fmtGenerate_eq_formatString {v e m : Nat} (hv : 1 ≤ v ∧ v ≤ 40) (he : e ≤ 3) (hm : m ≤ 7) :
    fmtGenerate v e m = some (formatString v e m) := by
  rw [fmtGenerate_legal hv he hm, formatString]
  by_cases h7 : v < 7
  · rw [if_pos h7, if_pos h7, fmt15_eq_printed e (by omega) m (by omega)]
  · have h18 := fmt18_eq_printed (v - 7) (by omega)
    rw [Nat.add_sub_cancel' (by omega)] at h18
    rw [if_neg h7, if_neg h7, h18]

theorem exec_fmtGenerate_some {version ecLevel maskId : Byte} {format : BitVec 18}
    (h : fmtGenerate version.toNat ecLevel.toNat maskId.toNat = some format) (s : State) :
    exec (.fmtGenerate version ecLevel maskId) s = .next (s.setFormat format).complete := by
  show execFmtGenerate version ecLevel maskId s = _
  rw [execFmtGenerate, h]

theorem exec_fmtGenerate_none {version ecLevel maskId : Byte}
    (h : fmtGenerate version.toNat ecLevel.toNat maskId.toNat = none) (s : State) :
    exec (.fmtGenerate version ecLevel maskId) s = .next (s.raise .invalidParameter) := by
  show execFmtGenerate version ecLevel maskId s = _
  rw [execFmtGenerate, h]

/-- Settles O36: legal operands give the computed string, which is the printed one, and the others give none. -/
theorem formatIsThePrintedString : Obligations.FormatIsThePrintedString := by
  intro s version ecLevel maskId
  split
  next h =>
    obtain ⟨h1, h40, he, hm⟩ := h
    exact exec_fmtGenerate_some (fmtGenerate_eq_formatString ⟨h1, h40⟩ he hm) s
  next h => exact exec_fmtGenerate_none (fmtGenerate_illegal (by rwa [and_assoc])) s

end Sys2Proof.Machine

/-! ## The selection and the packed stream

`FLAVOR_SELECT` takes the least fitting row (43_msg.md R162), which is determined by its bounds (`leastRow_eq`); the data
codewords of `MSG_PACK` are the nibble sequence of R164 taken in pairs (`dataCodewords_eq_packed`). -/

namespace Sys2Proof.Machine
open Reference

/-! ### FLAVOR_SELECT -/

theorem exec_flavorSelect {len : BitVec 16} (h : len.toNat ≤ 106) (s : State) :
    exec (.flavorSelect len) s = .next (s.selected len.toNat).complete := by
  show execFlavorSelect len s = _
  rw [execFlavorSelect, flavorSelect_some h]

/-! What the selection registers hold (10_state.md R26, R27). -/

theorem State.selected_flavor (s : State) (len : Nat) :
    (s.selected len).flavor = flavorRow s.flavors (leastRow s.flavors len) := rfl

theorem State.selected_payloadLen (s : State) {len : Nat} (h : len ≤ 106) : (s.selected len).payloadLen.toNat = len := by
  show (BitVec.ofNat 8 len).toNat = len
  rw [BitVec.toNat_ofNat]; omega

theorem State.selected_flavorIdx (s : State) {len : Nat} (h : len ≤ 106) :
    (s.selected len).flavorIdx.toNat = leastRow s.flavors len := by
  obtain ⟨hidx, -, -⟩ := leastRow_spec s.flavors h
  show (BitVec.ofNat 4 (leastRow s.flavors len)).toNat = leastRow s.flavors len
  rw [BitVec.toNat_ofNat]; omega

/-- Settles O37: the least row whose capacity holds the text exists, because the last row holds 106 bytes. -/
theorem flavorSelectTakesTheLeastFittingRow : Obligations.FlavorSelectTakesTheLeastFittingRow := by
  intro s len h
  obtain ⟨hidx, hfits, hleast⟩ := leastRow_spec s.flavors h
  exact ⟨_, hidx, hfits, hleast, exec_flavorSelect h s⟩

/-- The least fitting row is the one that fits when no earlier row does. -/
theorem leastRow_eq {t : FlavorTable} {len i : Nat} (h : len ≤ 106) (hfits : len ≤ (flavorRow t i).capacity.toNat)
    (hleast : ∀ j, j < i → (flavorRow t j).capacity.toNat < len) : leastRow t len = i := by
  obtain ⟨-, hfits', hleast'⟩ := leastRow_spec t h
  rcases Nat.lt_trichotomy (leastRow t len) i with hlt | heq | hgt
  · have := hleast _ hlt; omega
  · exact heq
  · have := hleast' _ hgt; omega

/-- 43_msg.md R161, R162: the last length of a row is its capacity, and the first is above every earlier capacity. -/
theorem defaultTable_bounds : ∀ row ∈ [(0, 7, 0), (8, 11, 1), (12, 14, 2), (15, 17, 3), (18, 20, 4), (21, 26, 5), (27, 32, 6),
    (33, 42, 7), (43, 53, 8), (54, 78, 9), (79, 106, 10)],
    (flavorRow Config.defaultTable row.2.2).capacity.toNat = row.2.1 ∧ row.2.1 ≤ 106 ∧
      ∀ j, j < row.2.2 → (flavorRow Config.defaultTable j).capacity.toNat < row.1 := by decide

/-- Settles O39: between the bounds of a row that row is the least that fits. -/
theorem defaultTableRowsByLength : Obligations.DefaultTableRowsByLength := by
  intro s t len htable hexec row hrow hfirst hlast
  obtain ⟨hcap, hmax, hearlier⟩ := defaultTable_bounds row hrow
  have hlen : len.toNat ≤ 106 := by omega
  rw [exec_flavorSelect hlen] at hexec
  cases hexec
  rw [State.complete_flavorIdx, State.selected_flavorIdx s hlen, htable]
  exact leastRow_eq hlen (by omega) fun j hj => Nat.lt_of_lt_of_le (hearlier j hj) hfirst

/-! ### MSG_PACK -/

/-- The low nibble of a byte beside the high nibble of the next (20_memory.md R65). -/
theorem lowNibbleUp_or_highNibble (a b : Byte) :
    lowNibbleUp a ||| highNibble b = (a.extractLsb' 0 4 ++ b.extractLsb' 4 4 : BitVec 8) := by
  apply BitVec.eq_of_getLsbD_eq
  intro i hi
  rw [BitVec.getLsbD_append, lowNibbleUp, highNibble, BitVec.getLsbD_or, BitVec.getLsbD_shiftLeft, BitVec.getLsbD_ushiftRight]
  by_cases h : i < 4
  · simp [h]
  · have hb : b.getLsbD (4 + i) = false := BitVec.getLsbD_of_ge b _ (by omega)
    have hlow : i - 4 < 4 := by omega
    simp [h, hb, hi, hlow]

/-- The payload part of the stream is its nibbles in pairs, from the low nibble of what came before to the zero nibble. -/
theorem packNibbles_eq_pairUp (prev : Byte) (payload : List Byte) :
    packNibbles prev payload = pairUp (prev.extractLsb' 0 4 :: (payload.flatMap nibbles ++ [0])) := by
  induction payload generalizing prev with
  | nil =>
    have hlast : lowNibbleUp prev ||| 0 = (prev.extractLsb' 0 4 ++ (0 : BitVec 4) : BitVec 8) :=
      lowNibbleUp_or_highNibble prev 0
    have hzero : lowNibbleUp prev ||| 0 = lowNibbleUp prev := BitVec.or_zero
    rw [packNibbles, List.flatMap_nil, List.nil_append, pairUp, ← hlast, hzero, pairUp]
    simp
  | cons b rest ih =>
    rw [packNibbles, ih, lowNibbleUp_or_highNibble]
    rfl

theorem padBytes_add_two (n : Nat) : padBytes (n + 2) = 0xEC :: 0x11 :: padBytes n := by
  simp only [padBytes, List.range_succ_eq_map, List.map_cons, List.map_map, Function.comp_def, Nat.succ_eq_add_one,
    Nat.add_assoc, Nat.reduceAdd, Nat.add_mod_right]
  rfl

theorem padBytes_eq_pads (n : Nat) : padBytes n = pads n := by
  induction n using pads.induct with
  | case1 => rfl
  | case2 => rfl
  | case3 n ih => rw [pads, ← ih, padBytes_add_two]

theorem length_packNibbles (prev : Byte) (payload : List Byte) : (packNibbles prev payload).length = payload.length + 1 := by
  induction payload generalizing prev with
  | nil => rfl
  | cons b rest ih => rw [packNibbles, List.length_cons, ih, List.length_cons]

theorem length_padBytes (n : Nat) : (padBytes n).length = n := by simp [padBytes]

/-- The data codewords are the packed stream of the payload (43_msg.md R164). -/
theorem dataCodewords_eq_packed (s : State) :
    dataCodewords s = packed s.flavor.capacity.toNat (s.block .payload 0 s.payloadLen.toNat) := by
  have hlen : BitVec.ofNat 8 (s.block .payload 0 s.payloadLen.toNat).length = s.payloadLen := by simp
  have hfirst : (BitVec.ofNat 8 Config.modeByte <<< 4) ||| highNibble s.payloadLen =
      ((4 : BitVec 4) ++ s.payloadLen.extractLsb' 4 4 : BitVec 8) := lowNibbleUp_or_highNibble 4 s.payloadLen
  rw [dataCodewords, packed, nibbleStream, hlen, packNibbles_eq_pairUp, padBytes_eq_pads, State.block_length]
  simp only [hfirst]
  rfl

theorem length_dataCodewords {s : State} (h : s.payloadLen.toNat ≤ s.flavor.capacity.toNat) :
    (dataCodewords s).length = s.flavor.capacity.toNat + 2 := by
  simp only [dataCodewords, List.length_append, List.length_cons, length_packNibbles, State.block_length, length_padBytes]
  omega

/-- What `msg_pack()` leaves in `CW`, a payload within the capacity. -/
theorem msgPack_block {s : State} (h : s.payloadLen.toNat ≤ s.flavor.capacity.toNat) :
    (msgPack s).block .cw 0 (s.flavor.capacity.toNat + 2) =
      packed s.flavor.capacity.toNat (s.block .payload 0 s.payloadLen.toNat) := by
  have hcap := s.flavor.capacity.isLt
  have hlen := length_dataCodewords h
  have hstored : (msgPack s).block .cw 0 (s.flavor.capacity.toNat + 2) =
      (s.store .cw 0 (dataCodewords s)).block .cw 0 (dataCodewords s).length := by
    rw [hlen]; exact State.block_congr rfl (by rfl) _ _
  rw [hstored, State.block_store_same _ _ _ (by rw [hlen, Space.elements_cw]; omega), dataCodewords_eq_packed]

theorem msgPack_read_above {s : State} (h : s.payloadLen.toNat ≤ s.flavor.capacity.toNat) {i : Nat}
    (hi : s.flavor.capacity.toNat + 2 ≤ i) : (msgPack s).read .cw i = s.read .cw i := by
  have hstored : (msgPack s).read .cw i = (s.store .cw 0 (dataCodewords s)).read .cw i := State.read_congr rfl rfl i
  rw [hstored, State.read_store_above _ _ _ (by rw [length_dataCodewords h]; omega)]

theorem exec_msgPack {s : State} (h : s.flags.flavorValid = true) : exec .msgPack s = .next (msgPack s).complete := if_pos h

/-- Settles O40: each byte of the stream joins the low nibble before it with the high nibble after it, which is the nibble
sequence taken in pairs. -/
theorem packedStreamIsTheNibbleStream : Obligations.PackedStreamIsTheNibbleStream := by
  intro s hv hfits
  have hcap := s.flavor.capacity.isLt
  refine ⟨_, exec_msgPack hv, rfl, ?_, ?_, ?_, fun i hi => ?_⟩
  · show (BitVec.ofNat 9 (s.flavor.capacity.toNat + 2)).toNat = _
    rw [BitVec.toNat_ofNat]; omega
  · show (BitVec.ofNat 10 (s.flavor.capacity.toNat + 2)).toNat = _
    rw [BitVec.toNat_ofNat]; omega
  · rw [State.block_complete, msgPack_block hfits]
  · rw [State.read_complete, msgPack_read_above hfits hi]

end Sys2Proof.Machine

/-! ## What ENCODE leaves

`ENCODE` is the selection, the stream (`Streamed`, which no later step touches) and the symbol of the selected row
(`built`); each register of R231 is then written by one of the three and kept by the others. -/

namespace Sys2Proof.Machine
open Reference

/-! ### The parts that stay, as reads -/

section
variable {ps : List Part} {s t : State}

theorem Keeps.read (hk : Keeps ps s t) {sp : Space} (hp : sp.part ∉ ps) (hr : .resets ∉ ps) (i : Nat) :
    t.read sp i = s.read sp i := State.read_congr (hk.bank hp) (hk.2 .resets hr) i

theorem Keeps.block (hk : Keeps ps s t) {sp : Space} (hp : sp.part ∉ ps) (hr : .resets ∉ ps) (b n : Nat) :
    t.block sp b n = s.block sp b n := State.block_congr (hk.bank hp) (hk.2 .resets hr) b n

end

/-! ### The stream -/

/-- In `t` stands the stream of the payload and the row selected in `s`, its lengths, and the stale parts of `s` above
(45_pipeline.md R230, R231). -/
structure Streamed (s t : State) : Prop where
  data : t.block .cw 0 (s.flavor.capacity.toNat + 2) =
    packed s.flavor.capacity.toNat (s.block .payload 0 s.payloadLen.toNat)
  dataLen : t.cwDataLen.toNat = s.flavor.capacity.toNat + 2
  totalLen : t.cwTotalLen.toNat = s.flavor.capacity.toNat + 2 + s.flavor.ecCount.toNat
  genLen : t.genLen.toNat = s.flavor.ecCount.toNat + 1
  cwAbove : ∀ k, s.flavor.capacity.toNat + 2 + s.flavor.ecCount.toNat ≤ k → t.read .cw k = s.read .cw k
  genAbove : ∀ k, s.flavor.ecCount.toNat + 1 ≤ k → t.read .gen k = s.read .gen k

/-- The state before may differ in what a stream neither reads nor replaces. -/
theorem Streamed.of_keeps {ps : List Part} {s g t : State} (h : Streamed g t) (hk : Keeps ps s g)
    (hp : Avoids ps [.flavorRow, .payloadLen, .payload, .cw, .gen, .resets]) : Streamed s t := by
  have hrow : g.flavor = s.flavor := hk.2 .flavorRow (hp _ (by decide))
  have hlen : g.payloadLen = s.payloadLen := hk.2 .payloadLen (hp _ (by decide))
  have hresets : .resets ∉ ps := hp _ (by decide)
  obtain ⟨hdata, hdataLen, htotal, hgen, hcw, hgenAbove⟩ := h
  rw [hrow] at hdata hdataLen htotal hgen hcw hgenAbove
  refine ⟨?_, hdataLen, htotal, hgen, fun k h => ?_, fun k h => ?_⟩
  · rw [hdata, hlen, hk.block (sp := .payload) (hp _ (by decide)) hresets]
  · rw [hcw k h, hk.read (sp := .cw) (hp _ (by decide)) hresets]
  · rw [hgenAbove k h, hk.read (sp := .gen) (hp _ (by decide)) hresets]

/-- What writes no part of the stream leaves it. -/
theorem Streamed.keeps {ps : List Part} {s t u : State} (h : Streamed s t) (hk : Keeps ps t u)
    (hp : Avoids ps [.cw, .cwDataLen, .cwTotalLen, .gen, .genLen, .resets]) : Streamed s u := by
  have hdataLen : u.cwDataLen = t.cwDataLen := hk.2 .cwDataLen (hp _ (by decide))
  have htotalLen : u.cwTotalLen = t.cwTotalLen := hk.2 .cwTotalLen (hp _ (by decide))
  have hgenLen : u.genLen = t.genLen := hk.2 .genLen (hp _ (by decide))
  have hresets : .resets ∉ ps := hp _ (by decide)
  refine ⟨?_, hdataLen ▸ h.dataLen, htotalLen ▸ h.totalLen, hgenLen ▸ h.genLen, fun k hle => ?_, fun k hle => ?_⟩
  · rw [hk.block (sp := .cw) (hp _ (by decide)) hresets, h.data]
  · rw [hk.read (sp := .cw) (hp _ (by decide)) hresets, h.cwAbove k hle]
  · rw [hk.read (sp := .gen) (hp _ (by decide)) hresets, h.genAbove k hle]

/-- The stream of `ENCODE` once the tables are built (45_pipeline.md R230). -/
def streamOf (s : State) : State :=
  (rsDivide s.flavor.ecCount.toNat (s.flavor.capacity.toNat + 2) (genpoly s.flavor.ecCount.toNat (msgPack s))).setStreamLen
    (s.flavor.capacity.toNat + 2) (s.flavor.capacity.toNat + 2 + s.flavor.ecCount.toNat)

theorem encodeStream_eq (s : State) : encodeStream s = streamOf (gfBuild s).setGfValid := rfl

theorem keeps_streamOf (s : State) : Keeps divisionParts s (streamOf s) :=
  ((keeps_msgPack s).mono (by decide)).trans (keeps_divided _ _ _ _ _)

theorem streamOf_read (s : State) (sp : Space) (i : Nat) : (streamOf s).read sp i =
    (rsDivide s.flavor.ecCount.toNat (s.flavor.capacity.toNat + 2)
      (genpoly s.flavor.ecCount.toNat (msgPack s))).read sp i :=
  State.read_congr (State.setStreamLen_bank _ _ _ _) rfl i

theorem streamOf_block (s : State) (sp : Space) (b k : Nat) : (streamOf s).block sp b k =
    (rsDivide s.flavor.ecCount.toNat (s.flavor.capacity.toNat + 2)
      (genpoly s.flavor.ecCount.toNat (msgPack s))).block sp b k :=
  State.block_congr (State.setStreamLen_bank _ _ _ _) rfl b k

theorem streamed_streamOf {s : State} (hec : 7 ≤ s.flavor.ecCount.toNat ∧ s.flavor.ecCount.toNat ≤ 254)
    (hfits : s.payloadLen.toNat ≤ s.flavor.capacity.toNat) : Streamed s (streamOf s) := by
  have hcap := s.flavor.capacity.isLt
  refine ⟨?_, ?_, ?_, ?_, fun k hk => ?_, fun k hk => ?_⟩
  · rw [streamOf_block, rsDivide_block_message _ _ _ (by omega), genpoly_block_other _ _ (by decide), msgPack_block hfits]
  · rw [streamOf, State.setStreamLen_cwDataLen, BitVec.toNat_ofNat]; omega
  · rw [streamOf, State.setStreamLen_cwTotalLen, BitVec.toNat_ofNat]; omega
  · rw [streamOf, State.setStreamLen_genLen, (keeps_rsDivide _ _ _).2 .genLen (by decide), genpoly, BitVec.toNat_ofNat]; omega
  · rw [streamOf_read, rsDivide_read_outside _ _ _ (.inr hk), genpoly_read_other _ _ (by decide),
      msgPack_read_above hfits (by omega)]
  · rw [streamOf_read, (keeps_rsDivide _ _ _).read (by decide) (by decide), genpoly_read_above (by omega) _ (by omega),
      (keeps_msgPack s).read (by decide) (by decide)]

theorem streamed_encodeStream {s : State} (hec : 7 ≤ s.flavor.ecCount.toNat ∧ s.flavor.ecCount.toNat ≤ 254)
    (hfits : s.payloadLen.toNat ≤ s.flavor.capacity.toNat) : Streamed s (encodeStream s) := by
  have hk := keeps_gfBuildValid s
  have hrow : (gfBuild s).setGfValid.flavor = s.flavor := hk.2 .flavorRow (by decide)
  have hlen : (gfBuild s).setGfValid.payloadLen = s.payloadLen := hk.2 .payloadLen (by decide)
  rw [encodeStream_eq]
  exact (streamed_streamOf (by rwa [hrow]) (by rwa [hrow, hlen])).of_keeps hk (by decide)

theorem tablesReady_encodeStream (s : State) : tablesReady (encodeStream s) := by
  have hbuilt : tablesBuilt (gfBuild s).setGfValid := fun _ i => by
    rw [State.read_setGfValid, State.read_setGfValid]; exact tablesBuilt_gfBuild s i
  have hkept : tablesBuilt (encodeStream s) := by
    rw [encodeStream_eq]; exact (keeps_streamOf _).tablesBuilt (by decide) hbuilt
  exact ⟨by rw [encodeStream_flags], hkept⟩

/-! ### The symbol -/

/-- The state `MTX_BUILD` stamps in: the format string and a fresh matrix (44_matrix.md R205, step 0). -/
def State.initialised (s : State) : State :=
  mtxInit s.flavor.version.toNat s.flavor.alignCenter.toNat
    (s.setFormat ((fmtGenerate s.flavor.version.toNat s.flavor.ecLevel.toNat Config.maskId).getD 0))

theorem built_eq (s : State) : built s = (buildSteps s.initialised).setMtxDone true := rfl

theorem mtxInitLegal_of_flavorOk {f : Flavor} (h : Config.flavorOk f = true) :
    mtxInitLegal f.version.toNat f.alignCenter.toNat = true := by
  obtain ⟨hversion, halign, -, -⟩ := (flavorOk_iff f).mp h
  exact (mtxInitLegal_iff _ _).mpr ⟨hversion, halign⟩

/-- After `MTX_INIT` the steps write the cells, the walk and the flag. -/
theorem keeps_initialised_built (s : State) : Keeps [.matrix, .cursor, .bitpos, .mtxDone] s.initialised (built s) :=
  ((keeps_buildSteps _).mono (by decide)).trans ((keeps_setMtxDone _ _).mono (by decide))

theorem built_format {s : State} (h : Config.flavorOk s.flavor = true) :
    (built s).format = formatString s.flavor.version.toNat s.flavor.ecLevel.toNat 6 := by
  obtain ⟨hversion, -, -, -⟩ := (flavorOk_iff _).mp h
  have hlevel := s.flavor.ecLevel.isLt
  have hformat : (built s).format = (fmtGenerate s.flavor.version.toNat s.flavor.ecLevel.toNat Config.maskId).getD 0 :=
    (keeps_initialised_built s).2 .format (by decide)
  rw [hformat, fmtGenerate_eq_formatString (by omega) (by omega) (by decide)]
  rfl

theorem built_mtxVersion (s : State) : (built s).mtxVersion = s.flavor.version := by
  have hversion : (built s).mtxVersion = BitVec.ofNat 3 s.flavor.version.toNat :=
    (keeps_initialised_built s).2 .mtxVersion (by decide)
  rw [hversion, BitVec.ofNat_toNat, BitVec.setWidth_eq]

theorem built_mtxAlign (s : State) : (built s).mtxAlign = s.flavor.alignCenter := by
  have halign : (built s).mtxAlign = BitVec.ofNat 6 s.flavor.alignCenter.toNat :=
    (keeps_initialised_built s).2 .mtxAlign (by decide)
  rw [halign, BitVec.ofNat_toNat, BitVec.setWidth_eq]

theorem built_size {s : State} (h : Config.flavorOk s.flavor = true) :
    (built s).size = 21 + 4 * (s.flavor.version.toNat - 1) :=
  ((keeps_initialised_built s).size (by decide)).trans (mtxInit_size (mtxInitLegal_of_flavorOk h) _)

/-! ### ENCODE -/

/-- The state `ENCODE` leaves, its length legal, before `STATUS` is written (45_pipeline.md R230). -/
def State.encoded (s : State) (len : Nat) : State := built (encodeStream (s.selected len))

theorem encodeStream_flavor (s : State) : (encodeStream s).flavor = s.flavor := (keeps_encodeStream s).2 .flavorRow (by decide)

/-- The row `ENCODE` builds with (43_msg.md R162). -/
theorem encodeStream_selected_flavor (s : State) (len : Nat) :
    (encodeStream (s.selected len)).flavor = flavorRow s.flavors (leastRow s.flavors len) := encodeStream_flavor _

section
variable {len : Nat} (h : len ≤ 106) (s : State)
include h

theorem leastRow_flavorOk : Config.flavorOk (flavorRow s.flavors (leastRow s.flavors len)) = true :=
  (tableFacts s.flavors).legal _ (leastRow_spec s.flavors h).1

theorem encodeStream_selected_flavorOk : Config.flavorOk (encodeStream (s.selected len)).flavor = true := by
  rw [encodeStream_selected_flavor]; exact leastRow_flavorOk h s

/-- `ENCODE` leaves the stream of the selected row (45_pipeline.md R230). -/
theorem streamed_encoded : Streamed (s.selected len) (s.encoded len) := by
  obtain ⟨-, -, hec, -⟩ := (flavorOk_iff _).mp (leastRow_flavorOk h s)
  have hfits : (s.selected len).payloadLen.toNat ≤ (s.selected len).flavor.capacity.toNat :=
    (s.selected_payloadLen h).trans_le (leastRow_spec s.flavors h).2.1
  exact (streamed_encodeStream hec hfits).keeps (keeps_built _) (by decide)

end

theorem exec_encode {len : BitVec 16} (h : len.toNat ≤ 106) (s : State) :
    exec (.encode len) s = .next (s.encoded len.toNat).complete := by
  show execEncode len s = _
  rw [execEncode, flavorSelect_some h]
  simp only [buildSymbol_eq_built (encodeStream_selected_flavorOk h s)]
  rfl

theorem encoded_flags (s : State) (len : Nat) : (s.encoded len).flags = ⟨true, true, true⟩ := by
  rw [State.encoded, built_flags, encodeStream_flags]; rfl

theorem tablesReady_encoded (s : State) (len : Nat) : tablesReady (s.encoded len) :=
  ⟨by rw [encoded_flags], (keeps_built _).tablesBuilt (by decide) (tablesReady_encodeStream _).2⟩

theorem tablesReady_complete {s : State} (h : tablesReady s) : tablesReady s.complete := h

/-- Stream and symbol do not touch the selection. -/
theorem keeps_selected_encoded (s : State) (len : Nat) :
    Keeps ([.gfExp, .gfLog, .gfValid, .format] ++ divisionParts ++ matrixParts) (s.selected len) (s.encoded len) :=
  ((keeps_encodeStream _).mono (by decide)).trans ((keeps_built _).mono (by decide))

/-- Settles O58: the selection is that of `FLAVOR_SELECT`, the stream and the stale parts are those of `streamed_encoded`, and
the symbol is built for the selected row. -/
theorem encodeLeavesTheFinishedSymbol : Obligations.EncodeLeavesTheFinishedSymbol := by
  intro s len h
  obtain ⟨hidx, hfits, hleast⟩ := leastRow_spec s.flavors h
  have hkept := keeps_selected_encoded s len.toNat
  have hresult : (s.encoded len.toNat).result = s.result := hkept.2 .result (by decide)
  have hflavorIdx : (s.encoded len.toNat).flavorIdx = (s.selected len.toNat).flavorIdx := hkept.2 .flavorIdx (by decide)
  have hpayloadLen : (s.encoded len.toNat).payloadLen = (s.selected len.toNat).payloadLen :=
    hkept.2 .payloadLen (by decide)
  have hrow : (s.encoded len.toNat).flavor = flavorRow s.flavors (leastRow s.flavors len.toNat) :=
    hkept.2 .flavorRow (by decide)
  have hstream := streamed_encoded h s
  have hdata := hstream.data
  rw [s.selected_payloadLen h] at hdata
  have hok := encodeStream_selected_flavorOk h s
  have hformat := built_format hok
  have hversion := built_mtxVersion (encodeStream (s.selected len.toNat))
  have hsize := built_size hok
  have halign := built_mtxAlign (encodeStream (s.selected len.toNat))
  rw [encodeStream_selected_flavor] at hformat hversion hsize halign
  refine ⟨_, leastRow s.flavors len.toNat, exec_encode h s, rfl, ?_⟩
  simp only [State.complete_flags, State.complete_result, State.complete_flavorIdx, State.complete_flavor,
    State.complete_payloadLen, State.complete_cwDataLen, State.complete_cwTotalLen, State.complete_genLen,
    State.complete_format, State.complete_mtxVersion, State.complete_size, State.complete_mtxAlign, State.block_complete,
    State.read_complete, hrow, hflavorIdx, hpayloadLen, s.selected_flavorIdx h, s.selected_payloadLen h]
  refine ⟨encoded_flags s _, hresult, hidx, hfits, hleast, trivial, trivial, trivial, hdata, hstream.dataLen,
    hstream.totalLen, hstream.genLen, hformat, hversion, hsize, halign, tablesReady_complete (tablesReady_encoded s _),
    fun k hk => hstream.cwAbove k ?_, fun k hk => hstream.genAbove k ?_⟩
  · rwa [hstream.totalLen] at hk
  · rwa [hstream.genLen] at hk

end Sys2Proof.Machine

/-! ## The symbol ENCODE builds, by its counts

Mask and format change no `taken` and no `is_data`, so the counts are those of the placement: it turns the first free cells
of the walk into data cells, one a bit. What is free before it is counted from the structural cells of the reference
(44_matrix.md R193). -/

namespace Sys2Proof.Machine
open Reference

/-! ### The kind of a module: whether it is taken, and whether it is data -/

/-- What the counts of 44_matrix.md R193 and R206 read of a module. -/
def QrModule.kind (m : QrModule) : Bool × Bool := (m.taken, m.isData)

theorem kind_maskModule (cell : Nat × Nat) (m : QrModule) : (maskModule cell m).kind = m.kind := by
  unfold maskModule; split <;> rfl

theorem kind_formatModule (b : Bool) (m : QrModule) : (formatModule b m).kind = m.kind := rfl

section
variable {size : Nat} (hs : size ≤ 64) (r c : Nat)
include hs

theorem Grid.kind_update (g : Grid) (cell : Nat × Nat) {f : QrModule → QrModule} (hf : ∀ m, (f m).kind = m.kind) :
    (Grid.get size (Grid.update size g cell f) r c).kind = (Grid.get size g r c).kind := by
  by_cases hcell : (r, c) = cell
  · subst hcell
    by_cases hin : r < size ∧ c < size
    · rw [Grid.get_update_same g r c f hin.1 hin.2, hf]
    · rw [Grid.get_outside _ hin, Grid.get_outside _ hin]
  · rw [Grid.get_update_other hs g f hcell]

theorem Grid.kind_updateAll {f : Nat × Nat → QrModule → QrModule} (hf : ∀ cell m, (f cell m).kind = m.kind)
    (l : List (Nat × Nat)) (g : Grid) :
    (Grid.get size (updateAll size f l g) r c).kind = (Grid.get size g r c).kind := by
  induction l generalizing g with
  | nil => rfl
  | cons cell rest ih => rw [updateAll, ih, Grid.kind_update hs r c g cell (hf cell)]

theorem Grid.kind_writeFormat (format : BitVec 18) (n i : Nat) (g : Grid) :
    (Grid.get size (writeFormat size format n i g) r c).kind = (Grid.get size g r c).kind := by
  induction n generalizing i g with
  | zero => rfl
  | succ n ih =>
    have hbit := kind_formatModule (format.getLsbD i)
    rw [writeFormat, ih, Grid.kind_update hs r c _ _ hbit, Grid.kind_update hs r c _ _ hbit]

end

theorem kind_mtxMask (s : State) (r c : Nat) : ((mtxMask s).cell r c).kind = (s.cell r c).kind :=
  Grid.kind_updateAll s.size_le r c kind_maskModule _ _

theorem kind_mtxFormat (s : State) (r c : Nat) : ((mtxFormat s).cell r c).kind = (s.cell r c).kind :=
  Grid.kind_writeFormat s.size_le r c _ _ _ _

/-! ### The structural cells -/

section
variable {s : State}

theorem cell_mtxFinder (h : 14 ≤ s.size) (r c : Nat) :
    (mtxFinder s).cell r c = stampedCell (finderAt s.size r c) (s.cell r c) :=
  cell_stamped s (fun _ _ _ => (finderAt_iff h).symm) (fun r c v hv => by
    rw [finderAt_iff h] at hv
    simp only [finderStamps, List.mem_append, mem_squareStamps] at hv
    omega) r c

theorem cell_mtxSeparator (h : 8 ≤ s.size) (r c : Nat) :
    (mtxSeparator s).cell r c = stampedCell (separatorAt s.size r c) (s.cell r c) :=
  cell_stamped s (fun _ _ _ => (separatorAt_iff h).symm) (fun r c v hv => by
    rw [separatorAt_iff h, mem_separatorStamps] at hv
    omega) r c

theorem cell_mtxAlign (h : s.mtxAlign.toNat = 0 ∨ 2 ≤ s.mtxAlign.toNat ∧ s.mtxAlign.toNat + 3 ≤ s.size) (r c : Nat) :
    (mtxAlign s).cell r c = stampedCell (alignAt s.mtxAlign.toNat r c) (s.cell r c) :=
  cell_stamped s (fun _ _ _ => (alignAt_iff (by omega)).symm) (fun r c v hv => by
    unfold alignAt at hv
    split at hv
    · omega
    · cases hv) r c

theorem cell_mtxTiming (h : 17 ≤ s.size) (r c : Nat) :
    (mtxTiming s).cell r c = stampedCell (timingAt s.size r c) (s.cell r c) :=
  cell_stamped s (fun _ _ _ => (timingAt_iff h).symm) (fun r c v hv => by
    rw [timingAt_iff h, mem_timingStamps] at hv
    omega) r c

theorem darkAt_iff {version r c : Nat} {v : Bool} : darkAt version r c = some v ↔ ((r, c), v) ∈ darkStamps version := by
  rw [darkStamps, List.mem_singleton, Prod.mk.injEq, Prod.mk.injEq, darkAt]
  split
  next h => simp [h, eq_comm]
  next h => simp [h]

theorem cell_mtxDark (h : s.size = 21 + 4 * (s.mtxVersion.toNat - 1)) (h1 : 1 ≤ s.mtxVersion.toNat) (r c : Nat) :
    (mtxDark s).cell r c = stampedCell (darkAt s.mtxVersion.toNat r c) (s.cell r c) :=
  cell_stamped s (fun _ _ _ => darkAt_iff.symm) (fun r c v hv => by
    unfold darkAt at hv
    split at hv
    · omega
    · cases hv) r c

end

/-- Steps 1 to 6 of `MTX_BUILD` (44_matrix.md R205). -/
def structural (s : State) : State := mtxReserve (mtxDark (mtxTiming (mtxAlign (mtxSeparator (mtxFinder s)))))

/-- The cells that steps 1 to 6 take (44_matrix.md R184 to R192). -/
def structuralAt (version align r c : Nat) : Bool :=
  (finderAt (Config.symbolSize version) r c).isSome || (separatorAt (Config.symbolSize version) r c).isSome ||
    (alignAt align r c).isSome || (timingAt (Config.symbolSize version) r c).isSome || (darkAt version r c).isSome ||
    inBand (Config.symbolSize version) r c

@[simp] theorem stampedCell_taken (v : Option Bool) (m : QrModule) : (stampedCell v m).taken = (v.isSome || m.taken) := by
  cases v <;> rfl

@[simp] theorem stampedCell_isData (v : Option Bool) (m : QrModule) : (stampedCell v m).isData = m.isData := by
  cases v <;> rfl

theorem kind_mtxReserve {s : State} (h : 9 ≤ s.size) (r c : Nat) :
    ((mtxReserve s).cell r c).kind = (inBand s.size r c || (s.cell r c).taken, (s.cell r c).isData) := by
  rw [cell_mtxReserve]
  by_cases hband : inBand s.size r c = true
  · rw [if_pos ((inBand_iff h).mp hband), hband]; rfl
  · rw [if_neg fun hin => hband ((inBand_iff h).mpr hin), Bool.eq_false_of_not_eq_true hband]; rfl

theorem Redraws.mtxVersion {s t : State} (h : Redraws s t) : t.mtxVersion = s.mtxVersion := h.keeps.2 .mtxVersion (by decide)

theorem Redraws.mtxAlign {s t : State} (h : Redraws s t) : t.mtxAlign = s.mtxAlign := h.keeps.2 .mtxAlign (by decide)

/-- Steps 1 to 6 take the structural cells and make no data. -/
theorem kind_structural {s : State} (hg : geometryLegal s) (hm : hasMatrix s) (r c : Nat) :
    ((structural s).cell r c).kind =
      (structuralAt s.mtxVersion.toNat s.mtxAlign.toNat r c || (s.cell r c).taken, (s.cell r c).isData) := by
  obtain ⟨-, hversion, -, hsize, halign, -⟩ := geometry_of_matrix hg hm
  have hsymbol : Config.symbolSize s.mtxVersion.toNat = s.size := hsize.symm
  have hfinder := redraws_mtxFinder s
  have hseparator := hfinder.trans (redraws_mtxSeparator _)
  have haligned := hseparator.trans (redraws_mtxAlign _)
  have htiming := haligned.trans (redraws_mtxTiming _)
  have hdark := htiming.trans (redraws_mtxDark _)
  rw [structural, kind_mtxReserve (by rw [hdark.size]; omega),
    cell_mtxDark (by rw [htiming.size, htiming.mtxVersion, hsize]) (by rwa [htiming.mtxVersion]),
    cell_mtxTiming (by rw [haligned.size]; omega), cell_mtxAlign (by rwa [hseparator.size, hseparator.mtxAlign]),
    cell_mtxSeparator (by rw [hfinder.size]; omega), cell_mtxFinder (by omega),
    hdark.size, htiming.mtxVersion, haligned.size, hseparator.mtxAlign, hfinder.size, structuralAt, hsymbol]
  simp only [stampedCell_taken, stampedCell_isData, Prod.mk.injEq, and_true]
  ac_rfl

/-- The free cells of a fresh symbol with its structure, by version and alignment centre (44_matrix.md R193). -/
def freeCounts : List (Nat × Nat × Nat) := [(1, 0, 208), (2, 18, 359), (3, 22, 567), (4, 26, 807), (5, 30, 1079)]

/-- 44_matrix.md R193: the free cells of the walk and of the symbol before placement. -/
theorem structuralAt_counts : ∀ e ∈ freeCounts,
    ((visitOrder (Config.symbolSize e.1)).filter fun cell => !structuralAt e.1 e.2.1 cell.1 cell.2).length = e.2.2 ∧
    ((symbolCells (Config.symbolSize e.1)).filter fun cell => !structuralAt e.1 e.2.1 cell.1 cell.2).length = e.2.2 := by
  decide +kernel

/-! ### The placement -/

/-- The free cells of the walk, in its order (44_matrix.md R197). -/
def freeOnWalk (s : State) : List (Nat × Nat) := (visitOrder s.size).filter fun cell => !(s.cell cell.1 cell.2).taken

theorem freeOnWalk_nodup {s : State} (h : SizeLegal s.size) : (freeOnWalk s).Nodup := (visitOrder_nodup h).filter _

theorem mem_symbolCells_of_mem_freeOnWalk {s : State} (h : SizeLegal s.size) {cell : Nat × Nat} (hc : cell ∈ freeOnWalk s) :
    cell ∈ symbolCells s.size ∧ (s.cell cell.1 cell.2).taken = false := by
  rw [freeOnWalk, List.mem_filter, visitOrder_cells h, List.mem_map] at hc
  obtain ⟨⟨p, -, rfl⟩, hfree⟩ := hc
  exact ⟨mem_symbolCells.mpr ⟨walkRow_lt h, walkCol_lt h⟩, by simpa using hfree⟩

/-- A whole stream that fits is placed on the first free cells of the walk, from its start (44_matrix.md R197, R199). -/
theorem mtxPlace_stream {s : State} (h : SizeLegal s.size) (hcursor : s.cursor = cursorAt s.size 0) (hpos : s.bitpos = 0)
    {k : Nat} (hk : k = 8 * s.cwTotalLen.toNat) (hfit : k ≤ (freeOnWalk s).length) :
    (mtxPlace k s).bitpos.toNat = k ∧ ∀ r c, ((mtxPlace k s).cell r c).kind =
      if (r, c) ∈ (freeOnWalk s).take k then (true, true) else (s.cell r c).kind := by
  have htotal := s.cwTotalLen.isLt
  have hzero : s.bitpos.toNat = 0 := by rw [hpos]; rfl
  obtain ⟨hbitpos, hbits, hother, -⟩ := placeBits_walk h (Nat.zero_le _) (limit := 8 * s.cwTotalLen.toNat) (by omega)
    s.streamBit k ⟨s.matrix, s.cursor, s.bitpos⟩ hcursor (free := freeOnWalk s) rfl (wanted := k) (k := k)
    (by rw [hzero]; omega) (by omega)
  have hplaced : ∀ r c, (r, c) ∈ (freeOnWalk s).take k → ((mtxPlace k s).cell r c).kind = (true, true) := by
    intro r c hin
    obtain ⟨i, hi, hcell⟩ := List.mem_iff_getElem.mp hin
    rw [List.length_take] at hi
    have hmodule := hbits i (by omega)
    rw [List.getD_eq_getElem _ _ (by omega), ← List.getElem_take (j := k) (h := by simp; omega), hcell] at hmodule
    exact congrArg QrModule.kind hmodule
  refine ⟨hbitpos.trans (by rw [hzero, Nat.zero_add]), fun r c => ?_⟩
  split
  next hin => exact hplaced r c hin
  next hin => exact congrArg QrModule.kind (hother r c hin)

/-! ### The counts -/

theorem length_filter_mem {l m : List (Nat × Nat)} (hl : l.Nodup) (hm : m.Nodup) (h : ∀ a ∈ m, a ∈ l) :
    (l.filter fun a => decide (a ∈ m)).length = m.length := by
  refine ((List.perm_ext_iff_of_nodup (hl.filter _) hm).mpr fun a => ?_).length_eq
  rw [List.mem_filter, decide_eq_true_iff]
  exact ⟨And.right, fun ha => ⟨h a ha, ha⟩⟩

/-- The data cells of the symbol (44_matrix.md R206). -/
def dataCells (s : State) : List (Nat × Nat) := (symbolCells s.size).filter fun cell => (s.cell cell.1 cell.2).isData

/-- The free cells of the symbol (44_matrix.md R193). -/
def freeCells (s : State) : List (Nat × Nat) := (symbolCells s.size).filter fun cell => !(s.cell cell.1 cell.2).taken

/-- Where the first `k` free cells of the walk have become data and all others are of the kind they were. -/
theorem counts_of_placed {s t : State} (h : SizeLegal s.size) (hsize : t.size = s.size) {k : Nat}
    (hk : k ≤ (freeOnWalk s).length) (hdata : ∀ r c, (s.cell r c).isData = false)
    (hkind : ∀ r c, (t.cell r c).kind = if (r, c) ∈ (freeOnWalk s).take k then (true, true) else (s.cell r c).kind) :
    (dataCells t).length = k ∧ (freeCells t).length = (freeCells s).length - k := by
  have hplaced : ((freeOnWalk s).take k).Nodup := (freeOnWalk_nodup h).sublist (List.take_sublist _ _)
  have hlength : ((freeOnWalk s).take k).length = k := by rw [List.length_take]; omega
  have hin : ∀ cell ∈ (freeOnWalk s).take k, cell ∈ symbolCells s.size ∧ (s.cell cell.1 cell.2).taken = false :=
    fun cell hc => mem_symbolCells_of_mem_freeOnWalk h (List.mem_of_mem_take hc)
  generalize (freeOnWalk s).take k = placed at *
  have hcell (cell : Nat × Nat) : (t.cell cell.1 cell.2).isData = decide (cell ∈ placed) ∧
      (!(t.cell cell.1 cell.2).taken) = (!decide (cell ∈ placed) && !(s.cell cell.1 cell.2).taken) := by
    have hc := hkind cell.1 cell.2
    split at hc
    next hin =>
      obtain ⟨htaken, hisData⟩ := Prod.mk.inj hc
      simp [htaken, hisData, hin]
    next hout =>
      obtain ⟨htaken, hisData⟩ := Prod.mk.inj hc
      simp [htaken, hisData, hdata, hout]
  constructor
  · rw [dataCells, hsize, List.filter_congr fun cell _ => (hcell cell).1,
      length_filter_mem (symbolCells_nodup _) hplaced fun cell hc => (hin cell hc).1, hlength]
  · have hmem : ((freeCells s).filter fun cell => decide (cell ∈ placed)).length = k :=
      (length_filter_mem ((symbolCells_nodup _).filter _) hplaced fun cell hc =>
        List.mem_filter.mpr ⟨(hin cell hc).1, by rw [(hin cell hc).2]; rfl⟩).trans hlength
    have hsplit := (freeCells s).length_eq_length_filter_add fun cell => decide (cell ∈ placed)
    have hfree : freeCells t = (freeCells s).filter fun cell => !decide (cell ∈ placed) := by
      simp only [freeCells]
      rw [hsize, List.filter_congr fun cell _ => (hcell cell).2, List.filter_filter]
    rw [hfree]; omega

/-! ### The symbol of a row -/

theorem redraws_structural (s : State) : Redraws s (structural s) :=
  (redraws_mtxFinder s).trans <| (redraws_mtxSeparator _).trans <| (redraws_mtxAlign _).trans <|
    (redraws_mtxTiming _).trans <| (redraws_mtxDark _).trans <| redraws_mtxReserve _

@[simp] theorem State.cell_setMtxDone (s : State) (b : Bool) (r c : Nat) : (s.setMtxDone b).cell r c = s.cell r c := rfl

@[simp] theorem State.cell_complete (s : State) (r c : Nat) : s.complete.cell r c = s.cell r c := rfl

theorem buildSteps_eq (s : State) :
    buildSteps s = mtxFormat (mtxMask (mtxPlace (8 * s.cwTotalLen.toNat) (structural s))) := rfl

theorem kind_built (s : State) (r c : Nat) : ((built s).cell r c).kind =
    ((mtxPlace (8 * s.cwTotalLen.toNat) (structural s.initialised)).cell r c).kind := by
  rw [built_eq, State.cell_setMtxDone, buildSteps_eq, kind_mtxFormat, kind_mtxMask]
  rfl

theorem built_bitpos (s : State) :
    (built s).bitpos = (mtxPlace (8 * s.cwTotalLen.toNat) (structural s.initialised)).bitpos := by
  rw [built_eq, State.setMtxDone_bitpos, buildSteps_eq]
  rfl

section
variable {s : State} (hok : Config.flavorOk s.flavor = true)
include hok

theorem initialised_size : s.initialised.size = Config.symbolSize s.flavor.version.toNat :=
  mtxInit_size (mtxInitLegal_of_flavorOk hok) _

theorem sizeLegal_initialised : SizeLegal s.initialised.size :=
  (geometry_of_matrix (geometryLegal_mtxInit (mtxInitLegal_of_flavorOk hok) _)
    (hasMatrix_mtxInit (mtxInitLegal_of_flavorOk hok) _)).1

theorem initialised_cursor : s.initialised.cursor = cursorAt s.initialised.size 0 := by
  rw [cursorAt_zero (sizeLegal_initialised hok), initialised_size hok]
  rfl

theorem kind_structural_initialised (r c : Nat) : ((structural s.initialised).cell r c).kind =
    (structuralAt s.flavor.version.toNat s.flavor.alignCenter.toNat r c, false) := by
  have hlegal := mtxInitLegal_of_flavorOk hok
  have hempty : s.initialised.cell r c = QrModule.zero := Grid.get_nil _ r c
  have hversion : s.initialised.mtxVersion = s.flavor.version := by
    rw [← built_mtxVersion s]; exact ((keeps_initialised_built s).2 .mtxVersion (by decide)).symm
  have halign : s.initialised.mtxAlign = s.flavor.alignCenter := by
    rw [← built_mtxAlign s]; exact ((keeps_initialised_built s).2 .mtxAlign (by decide)).symm
  rw [State.initialised, kind_structural (geometryLegal_mtxInit hlegal _) (hasMatrix_mtxInit hlegal _),
    ← State.initialised, hempty, hversion, halign]
  simp [QrModule.zero]

theorem taken_structural_initialised (cell : Nat × Nat) : ((structural s.initialised).cell cell.1 cell.2).taken =
    structuralAt s.flavor.version.toNat s.flavor.alignCenter.toNat cell.1 cell.2 :=
  congrArg Prod.fst (kind_structural_initialised hok cell.1 cell.2)

theorem structural_initialised_counts {free : Nat}
    (hfree : (s.flavor.version.toNat, s.flavor.alignCenter.toNat, free) ∈ freeCounts) :
    (freeOnWalk (structural s.initialised)).length = free ∧ (freeCells (structural s.initialised)).length = free := by
  obtain ⟨hwalk, hsymbol⟩ := structuralAt_counts _ hfree
  simp only [freeOnWalk, freeCells, taken_structural_initialised hok, (redraws_structural _).size, initialised_size hok]
  exact ⟨hwalk, hsymbol⟩

/-- A stream that fits the free cells is placed whole, one data cell a bit (44_matrix.md R199, R206). -/
theorem built_counts {free : Nat} (hfree : (s.flavor.version.toNat, s.flavor.alignCenter.toNat, free) ∈ freeCounts)
    (hfit : 8 * s.cwTotalLen.toNat ≤ free) :
    (built s).bitpos.toNat = 8 * s.cwTotalLen.toNat ∧ (dataCells (built s)).length = 8 * s.cwTotalLen.toNat ∧
      (freeCells (built s)).length = free - 8 * s.cwTotalLen.toNat := by
  have hredraws := redraws_structural s.initialised
  have hsize : (structural s.initialised).size = s.initialised.size := hredraws.size
  have hlegal : SizeLegal (structural s.initialised).size := by rw [hsize]; exact sizeLegal_initialised hok
  have hcursor : (structural s.initialised).cursor = cursorAt (structural s.initialised).size 0 := by
    rw [hsize, ← initialised_cursor hok]; exact hredraws.keeps.2 .cursor (by decide)
  have hpos : (structural s.initialised).bitpos = 0 := hredraws.keeps.2 .bitpos (by decide)
  have htotal : (structural s.initialised).cwTotalLen = s.cwTotalLen := hredraws.keeps.2 .cwTotalLen (by decide)
  obtain ⟨hwalk, hsymbol⟩ := structural_initialised_counts hok hfree
  obtain ⟨hbitpos, hkind⟩ :=
    mtxPlace_stream hlegal hcursor hpos (k := 8 * s.cwTotalLen.toNat) (by rw [htotal]) (by rwa [hwalk])
  have hbuiltSize : (built s).size = (structural s.initialised).size :=
    ((keeps_initialised_built s).size (by decide)).trans hsize.symm
  rw [← hsymbol, built_bitpos]
  refine ⟨hbitpos, counts_of_placed hlegal hbuiltSize (by rwa [hwalk]) (fun r c => ?_) fun r c => ?_⟩
  · exact congrArg Prod.snd (kind_structural_initialised hok r c)
  · rw [kind_built, hkind]

end

/-! ### ENCODE with the default table -/

/-- 43_msg.md R161 against 44_matrix.md R193: the stream of a row fills its symbol but for 0 cells in version 1 and 7 in the
others. -/
theorem defaultTable_freeCounts : ∀ i ≤ 10, ((flavorRow Config.defaultTable i).version.toNat,
    (flavorRow Config.defaultTable i).alignCenter.toNat,
    8 * ((flavorRow Config.defaultTable i).capacity.toNat + 2 + (flavorRow Config.defaultTable i).ecCount.toNat) +
      if (flavorRow Config.defaultTable i).version = 1 then 0 else 7) ∈ freeCounts := by decide

/-- Settles O60: the stream fits the free cells of the symbol of its row, so the placement of `MTX_BUILD` is whole
(`built_counts`). -/
theorem encodePlacesEveryStreamBit : Obligations.EncodePlacesEveryStreamBit := by
  intro s len h htable
  have hok := encodeStream_selected_flavorOk h s
  have hrow := encodeStream_selected_flavor s len.toNat
  have htotal : (s.encoded len.toNat).cwTotalLen = (encodeStream (s.selected len.toNat)).cwTotalLen :=
    (keeps_built _).2 .cwTotalLen (by decide)
  have hversion : (s.encoded len.toNat).mtxVersion = (encodeStream (s.selected len.toNat)).flavor.version :=
    built_mtxVersion _
  have hlength := (streamed_encoded h s).totalLen
  have hfree := defaultTable_freeCounts _ (leastRow_spec s.flavors h).1
  rw [State.selected_flavor, ← hrow] at hlength
  rw [← htable, ← hrow, ← hlength, htotal] at hfree
  obtain ⟨hbitpos, hdata, hremain⟩ := built_counts hok hfree (Nat.le_add_right _ _)
  rw [Nat.add_sub_cancel_left] at hremain
  refine ⟨_, exec_encode h s, ?_⟩
  simp only [State.complete_bitpos, State.complete_cwTotalLen, State.complete_mtxVersion, State.complete_size,
    State.cell_complete, htotal, hversion]
  exact ⟨hbitpos, hdata, hremain⟩

end Sys2Proof.Machine

/-! ## The matrix commands

A step command runs its body on the matrix (`matrixStep_runs`). What its body leaves in a cell is said by `cell_mtxFinder` and
its kin (44_matrix.md R185 to R192), `cell_mtxFormat` (R203), `cell_mtxMask` (R200) and `placeBits_walk` (R197); outside the
matrix it changes nothing but the walk. A build is its commands in a row, because no body reads `MTX_DONE` or `STATUS` (`Inner`). -/

namespace Sys2Proof.Machine
open Reference

/-! ### MTX_INIT -/

/-- `MTX_INIT` on legal operands; the flag it clears is named, as the step commands after it clear it again. -/
theorem exec_mtxInit {v a : Byte} (h : mtxInitLegal v.toNat a.toNat = true) (s : State) :
    exec (.mtxInit v a) s = .next ((mtxInit v.toNat a.toNat s).setMtxDone false).complete := if_pos h

theorem exec_mtxInit_illegal {v a : Byte} (h : ¬mtxInitLegal v.toNat a.toNat = true) (s : State) :
    exec (.mtxInit v a) s = .next (s.raise .invalidParameter) := if_neg h

/-- The operand check as 44_matrix.md R181 words it. -/
theorem mtxInitLegal_iff_inSymbol (v a : Byte) : mtxInitLegal v.toNat a.toNat = true ↔
    1 ≤ v.toNat ∧ v.toNat ≤ 5 ∧ (a.toNat = 0 ∨ 2 ≤ a.toNat ∧ a.toNat ≤ 21 + 4 * (v.toNat - 1) - 3) := by
  rw [mtxInitLegal_iff, Config.symbolSize]; omega

/-- Settles O41: an empty matrix has no cell but zero, and the registers hold what the operands say; the check refuses the
other operands. -/
theorem initClearsTheGridAndTheWalk : Obligations.InitClearsTheGridAndTheWalk := by
  intro s v a
  split
  next h =>
    have hcorner : Config.symbolSize v.toNat - 1 = 20 + 4 * (v.toNat - 1) := by unfold Config.symbolSize; omega
    refine ⟨_, exec_mtxInit ((mtxInitLegal_iff_inSymbol v a).mpr h) s, fun r c => Grid.get_nil _ r c, ?_⟩
    rw [← hcorner, ← BitVec.ofNat_toNat, ← BitVec.ofNat_toNat]
    rfl
  next h => exact exec_mtxInit_illegal (fun hlegal => h ((mtxInitLegal_iff_inSymbol v a).mp hlegal)) s

/-! ### The step commands, cell by cell -/

/-- A step command whose body writes the matrix alone, and leaves `f` in each cell (44_matrix.md R183). -/
theorem completedWithCells_of_body {i : Instr} {body : State → State} {s : State} {f : Nat → Nat → QrModule → QrModule}
    (hexec : exec i s = matrixStep body s) (hm : hasMatrix s) (hframe : ∀ u, body u = { u with matrix := (body u).matrix })
    (hcell : ∀ r c, (body (s.setMtxDone false)).cell r c = f r c (s.cell r c)) : completedWithCells i s f :=
  ⟨_, hexec.trans (matrixStep_runs hm), congrArg State.complete (hframe (s.setMtxDone false)), hcell⟩

theorem SizeLegal.twentyOne_le {size : Nat} (h : SizeLegal size) : 21 ≤ size := by unfold SizeLegal at h; omega

/-- Settles O42: the stamps are the cells of the three finders (`cell_mtxFinder`). -/
theorem finderStampsThreeCorners : Obligations.FinderStampsThreeCorners := by
  intro s hg hm
  obtain ⟨hsize, -⟩ := geometry_of_matrix hg hm
  have hbound := hsize.twentyOne_le
  exact completedWithCells_of_body rfl hm (fun _ => rfl) fun r c =>
    cell_mtxFinder (s := s.setMtxDone false) (by rw [State.setMtxDone_size]; omega) r c

/-- Settles O43: the stamps are the cells of the separators (`cell_mtxSeparator`). -/
theorem separatorStampsTheInnerBorders : Obligations.SeparatorStampsTheInnerBorders := by
  intro s hg hm
  obtain ⟨hsize, -⟩ := geometry_of_matrix hg hm
  have hbound := hsize.twentyOne_le
  exact completedWithCells_of_body rfl hm (fun _ => rfl) fun r c =>
    cell_mtxSeparator (s := s.setMtxDone false) (by rw [State.setMtxDone_size]; omega) r c

/-- Settles O44: the stamps are the square around the centre, none for the centre 0 (`cell_mtxAlign`). -/
theorem alignStampsAroundTheCenter : Obligations.AlignStampsAroundTheCenter := by
  intro s hg hm
  obtain ⟨-, -, -, -, halign, -⟩ := geometry_of_matrix hg hm
  exact completedWithCells_of_body rfl hm (fun _ => rfl) fun r c => cell_mtxAlign (s := s.setMtxDone false) halign r c

/-- Settles O45: the stamps are the timing cells (`cell_mtxTiming`) and the dark module (`cell_mtxDark`). -/
theorem timingAndDarkStampTheirCells : Obligations.TimingAndDarkStampTheirCells := by
  intro s hg hm
  obtain ⟨hlegal, hversion, -, hsize, -, -⟩ := geometry_of_matrix hg hm
  have hbound := hlegal.twentyOne_le
  constructor
  · exact completedWithCells_of_body rfl hm (fun _ => rfl) fun r c =>
      cell_mtxTiming (s := s.setMtxDone false) (by rw [State.setMtxDone_size]; omega) r c
  · exact completedWithCells_of_body rfl hm (fun _ => rfl) fun r c =>
      cell_mtxDark (s := s.setMtxDone false) hsize hversion r c

/-- Settles O46: the cells reserved are the bands inside the symbol (`cell_mtxReserve`). -/
theorem reserveTakesTheBandsOnly : Obligations.ReserveTakesTheBandsOnly := by
  intro s hg hm
  obtain ⟨hsize, -⟩ := geometry_of_matrix hg hm
  have hbound := hsize.twentyOne_le
  refine completedWithCells_of_body rfl hm (fun _ => rfl) fun r c => ?_
  simp only [cell_mtxReserve, State.setMtxDone_size, State.cell_setMtxDone, ← inBand_iff (show 9 ≤ s.size by omega)]

/-- What `MTX_FORMAT` leaves in a cell (44_matrix.md R203). -/
theorem cell_mtxFormat {s : State} (h : 17 ≤ s.size) (r c : Nat) : (mtxFormat s).cell r c =
    (formatBitAt s.size r c).elim (s.cell r c) fun i => { s.cell r c with value := s.format.getLsbD i } := by
  by_cases hin : r < s.size ∧ c < s.size
  · have hwritten := get_writeFormat s.size_le s.format (f := formatBitAt s.size) 15 0 s.matrix hin.1 hin.2
      fun j _ hj => formatCell_iff h (by omega)
    refine Eq.trans hwritten ?_
    cases hbit : formatBitAt s.size r c with
    | none => rfl
    | some i =>
      obtain ⟨hi, -⟩ := formatBitAt_lt h hbit
      exact if_pos ⟨Nat.zero_le i, by omega⟩
  · have hnone : formatBitAt s.size r c = none := Option.eq_none_iff_forall_ne_some.mpr fun i hbit =>
      hin (formatBitAt_lt h hbit).2
    rw [hnone, s.cell_outside (by omega)]
    exact Grid.get_outside _ hin

/-- Settles O55: bit by bit the two cells written are those whose entry in the printed table is that bit (`formatCell_iff`). -/
theorem formatWritesBothCopies : Obligations.FormatWritesBothCopies := by
  intro s hg hm
  obtain ⟨hsize, -⟩ := geometry_of_matrix hg hm
  have hbound := hsize.twentyOne_le
  refine completedWithCells_of_body rfl hm (fun _ => rfl) fun r c => ?_
  rw [cell_mtxFormat (by rw [State.setMtxDone_size]; omega), State.setMtxDone_size]
  cases formatBitAt s.size r c <;> rfl

/-! ### The mask -/

/-- Masking one module (44_matrix.md R200, R201). -/
theorem maskModule_eq (r c : Nat) (m : QrModule) : maskModule (r, c) m =
    if (m.isData = true ∨ m.taken = false) ∧ ((r * c) % 2 + (r * c) % 3) % 2 = 0 then { m with value := !m.value } else m := by
  have hbit : maskbit r c = true ↔ ((r * c) % 2 + (r * c) % 3) % 2 = 0 := decide_eq_true_iff
  simp only [maskModule, ← hbit]
  cases maskbit r c <;> simp

/-- Settles O53: every cell of the symbol is masked once (`cell_mtxMask`), and outside it a cell is zero before and after. -/
theorem maskFlipsDataAndFreeCells : Obligations.MaskFlipsDataAndFreeCells := by
  intro s hm
  refine completedWithCells_of_body rfl hm (fun _ => rfl) fun r c => ?_
  rw [cell_mtxMask, State.setMtxDone_size, State.cell_setMtxDone]
  by_cases hin : r < s.size ∧ c < s.size
  · simp only [hin, maskModule_eq, and_self, true_and, if_true]
  · rw [if_neg hin, if_neg fun h => hin ⟨h.1, h.2.1⟩, s.cell_outside (by omega)]

/-- Masking twice restores a canonical matrix: cell by cell the mask is its own inverse (44_matrix.md R202). -/
theorem mtxMask_mtxMask {s : State} (h : Grid.wf s.size s.matrix = true) : mtxMask (mtxMask s) = s := by
  have htwice := (redraws_mtxMask s).trans (redraws_mtxMask _)
  have hmatrix : (mtxMask (mtxMask s)).matrix = s.matrix := by
    refine Grid.ext (htwice.wf h) h fun r c => ?_
    show (mtxMask (mtxMask s)).cell r c = s.cell r c
    rw [cell_mtxMask, cell_mtxMask, (redraws_mtxMask s).size]
    by_cases hin : r < s.size ∧ c < s.size
    · rw [if_pos hin, if_pos hin, maskModule_maskModule]
    · rw [if_neg hin, s.cell_outside (by omega)]
  calc mtxMask (mtxMask s) = { s with matrix := (mtxMask (mtxMask s)).matrix } := rfl
    _ = s := by rw [hmatrix]

/-- Settles O54: the second mask restores the matrix of the first (`mtxMask_mtxMask`); `MTX_DONE` is cleared by both. -/
theorem maskTwiceRestoresTheMatrix : Obligations.MaskTwiceRestoresTheMatrix := by
  intro s hi hm
  refine ⟨_, matrixStep_runs hm, ?_⟩
  refine (matrixStep_runs (body := mtxMask) (by exact hm)).trans ?_
  exact congrArg (fun u : State => Host.Outcome.next u.complete) (mtxMask_mtxMask (s := s.setMtxDone false) hi.grid)

/-! ### The walk and the placement -/

theorem sizeLegal_of_version {v : Nat} (h1 : 1 ≤ v) (h5 : v ≤ 5) : SizeLegal (21 + 4 * (v - 1)) := by
  unfold SizeLegal; omega

/-- Settles O48: the walk stands at one position of the visiting order after the other (`advance_iterate`). -/
theorem advanceFollowsTheVisitingOrder : Obligations.AdvanceFollowsTheVisitingOrder := by
  intro version h1 h5 size start
  have hsize : SizeLegal size := sizeLegal_of_version h1 h5
  have hwalk (k : Nat) (hk : k ≤ walkLength size) : (Cursor.advance size)^[k] start = cursorAt size k := by
    rw [← Nat.zero_add k, ← advance_iterate hsize (by omega), Nat.zero_add]
    exact congrArg _ (cursorAt_zero hsize).symm
  refine ⟨fun k hk => ?_, ?_⟩
  · simp only
    rw [hwalk k (Nat.le_of_lt hk), cursorAt_row hsize hk, cursorAt_col hsize hk, visitOrder_getElem? hsize hk]
  · exact (hwalk _ (Nat.le_refl _)).trans (if_neg (Nat.lt_irrefl _))

/-- Settles O49: a cell a placement changes was free and is then a taken data cell (`placeBits_cells`), in every state. -/
theorem placementWritesOnlyFreeCells : Obligations.PlacementWritesOnlyFreeCells := by
  intro s nbits hm
  refine ⟨_, matrixStep_runs hm, rfl, fun r c => ?_⟩
  have hcell : (mtxPlace nbits.toNat (s.setMtxDone false)).cell r c = s.cell r c ∨ (s.cell r c).taken = false ∧
      ∃ b, (mtxPlace nbits.toNat (s.setMtxDone false)).cell r c = ⟨b, true, true⟩ :=
    placeBits_cells s.size_le _ _ nbits.toNat ⟨s.matrix, s.cursor, s.bitpos⟩ r c
  rw [State.cell_complete]
  rcases hcell with hsame | ⟨hfree, b, hplaced⟩
  · exact ⟨fun _ => hsame, fun hne => absurd hsame hne⟩
  · rw [hplaced]
    exact ⟨fun htaken => absurd htaken (by simp [hfree]), fun _ => ⟨hfree, rfl, rfl⟩⟩

/-- Settles O50: the second placement goes on where the first ended (`mtxPlace_mtxPlace`), and reads neither `MTX_DONE` nor
`STATUS`. -/
theorem placementInPartsIsPlacementAtOnce : Obligations.PlacementInPartsIsPlacementAtOnce := by
  intro s m n hi hm hsum
  obtain ⟨hsize, -, -, -, -, hcursor⟩ := geometry_of_matrix hi.geometry hm
  obtain ⟨p, hp, hat⟩ := Cursor.legal_position hsize hcursor
  have hadd : (m + n).toNat = m.toNat + n.toNat := by rw [BitVec.toNat_add, Nat.mod_eq_of_lt hsum]
  refine ⟨_, (mtxPlace (m + n).toNat (s.setMtxDone false)).complete, matrixStep_runs hm, ?_, matrixStep_runs hm, rfl⟩
  have htwice := mtxPlace_mtxPlace (s := s.setMtxDone false) hsize hp hat m.toNat n.toNat
  rw [hadd, ← htwice]
  exact matrixStep_runs (body := mtxPlace n.toNat) (by exact hm)

/-- Entries that come to pass a test, counted. -/
theorem length_filter_added {l added : List (Nat × Nat)} {p q : Nat × Nat → Bool} (hl : l.Nodup) (hadded : added.Nodup)
    (hnew : ∀ a ∈ added, a ∈ l ∧ p a = false) (hq : ∀ a, q a = (p a || decide (a ∈ added))) :
    (l.filter q).length = (l.filter p).length + added.length := by
  rw [← List.length_append]
  have hdisjoint : (l.filter p).Disjoint added := fun a hold hin => by
    simp [List.mem_filter, (hnew a hin).2] at hold
  refine ((List.perm_ext_iff_of_nodup (hl.filter _) ((hl.filter _).append hadded hdisjoint)).mpr fun a => ?_).length_eq
  rw [List.mem_append, List.mem_filter, List.mem_filter, hq, Bool.or_eq_true, decide_eq_true_iff]
  exact ⟨fun ⟨hin, h⟩ => h.imp (fun hp => ⟨hin, hp⟩) id,
    fun h => h.elim (fun h => ⟨h.1, .inl h.2⟩) fun h => ⟨(hnew a h).1, .inr h⟩⟩

/-- The data cells a placement adds: free cells of the walk, each once, one for each bit it consumes. -/
theorem exists_placed {s : State} (hi : Inv s) (hm : hasMatrix s) (n : Nat) :
    ∃ placed : List (Nat × Nat), placed.Nodup ∧ (∀ cell ∈ placed, cell ∈ freeOnWalk s) ∧
      (mtxPlace n s).bitpos.toNat = s.bitpos.toNat + placed.length ∧
      ∀ r c, ((mtxPlace n s).cell r c).isData = ((s.cell r c).isData || decide ((r, c) ∈ placed)) := by
  obtain ⟨hsize, -, -, -, -, hcursor⟩ := geometry_of_matrix hi.geometry hm
  obtain ⟨-, -, hmax, -, -⟩ := hi.lengths
  obtain ⟨p, hp, hat⟩ := Cursor.legal_position hsize hcursor
  obtain ⟨free, hfree⟩ : ∃ free, free =
      ((visitOrder s.size).drop p).filter fun cell => !(s.cell cell.1 cell.2).taken := ⟨_, rfl⟩
  obtain ⟨k, hk⟩ : ∃ k, k = min (min n (8 * s.cwTotalLen.toNat - s.bitpos.toNat)) free.length := ⟨_, rfl⟩
  obtain ⟨hbitpos, hplaced, hother, -⟩ := placeBits_walk hsize hp (limit := 8 * s.cwTotalLen.toNat) (by omega)
    s.streamBit n ⟨s.matrix, s.cursor, s.bitpos⟩ hat hfree rfl hk
  have hlength : (free.take k).length = k := by rw [List.length_take]; omega
  have hsublist : (free.take k).Sublist (freeOnWalk s) :=
    (List.take_sublist _ _).trans (hfree ▸ (List.drop_sublist p _).filter _)
  refine ⟨free.take k, (freeOnWalk_nodup hsize).sublist hsublist, fun _ h => hsublist.subset h, hlength.symm ▸ hbitpos,
    fun r c => ?_⟩
  by_cases hin : (r, c) ∈ free.take k
  · obtain ⟨i, hi, hcell⟩ := List.mem_iff_getElem.mp hin
    have hmodule := hplaced i (by omega)
    rw [List.getElem_take] at hcell
    rw [List.getD_eq_getElem _ _ (by omega), hcell] at hmodule
    have hdata : ((mtxPlace n s).cell r c).isData = true := congrArg QrModule.isData hmodule
    simp [hdata, hin]
  · have hsame : (mtxPlace n s).cell r c = s.cell r c := hother r c hin
    simp [hsame, hin]

/-- Settles O52: the cells that receive bits are free cells of the walk, each once (`exists_placed`), and no free cell was
data. -/
theorem everyPlacedBitMakesOneDataCell : Obligations.EveryPlacedBitMakesOneDataCell := by
  intro s nbits hi hm count
  obtain ⟨hsize, -⟩ := geometry_of_matrix hi.geometry hm
  obtain ⟨placed, hnodup, hfree, hbitpos, hdata⟩ := exists_placed (inv_setMtxDone_false hi) hm nbits.toNat
  refine ⟨_, matrixStep_runs hm, ?_⟩
  rw [State.complete_bitpos, hbitpos, State.setMtxDone_bitpos, Nat.add_sub_cancel_left]
  refine ⟨Nat.le_add_right _ _, length_filter_added (symbolCells_nodup _) hnodup (fun cell hin => ?_) fun cell => ?_⟩
  · obtain ⟨hsymbol, htaken⟩ := mem_symbolCells_of_mem_freeOnWalk (s := s.setMtxDone false) hsize (hfree cell hin)
    exact ⟨hsymbol, Bool.eq_false_of_not_eq_true fun h => by simp [hi.cells _ _ h] at htaken⟩
  · exact hdata cell.1 cell.2

/-! ### The commands of a build in a row -/

/-- `i` is a step command with the body `f` (44_matrix.md R183). -/
structure StepCommand (i : Instr) (f : State → State) : Prop where
  inner : Inner f
  runs  : ∀ s, exec i s = matrixStep f s

/-- The effect of bodies one after another. -/
def runBodies (steps : List (Instr × (State → State))) (s : State) : State := steps.foldl (fun t step => step.2 t) s

/-- Step commands in a row run their bodies in a row. -/
theorem execAll_stepCommands {steps : List (Instr × (State → State))}
    (hsteps : steps.Forall fun step => StepCommand step.1 step.2) {s : State} (hm : hasMatrix s) :
    execAll (steps.map Prod.fst) (s.setMtxDone false).complete = .next ((runBodies steps s).setMtxDone false).complete := by
  induction steps generalizing s with
  | nil => rfl
  | cons step rest ih =>
    obtain ⟨hstep, hrest⟩ := (List.forall_cons _ _ _).mp hsteps
    have hm' : hasMatrix (step.2 s) := by rwa [hasMatrix, hstep.inner.mtxSize]
    exact (hstep.inner.execAll hstep.runs hm _).trans (ih hrest hm')

theorem execAll_init_stepCommands {steps : List (Instr × (State → State))}
    (hsteps : steps.Forall fun step => StepCommand step.1 step.2) {v a : Byte} (h : mtxInitLegal v.toNat a.toNat = true)
    (s : State) : execAll (.mtxInit v a :: steps.map Prod.fst) s =
      .next ((runBodies steps (mtxInit v.toNat a.toNat s)).setMtxDone false).complete := by
  rw [execAll_cons (exec_mtxInit h s), execAll_stepCommands hsteps (hasMatrix_mtxInit h s)]

/-- Steps 1 to 6 of 44_matrix.md R180 with their bodies. -/
def structuralSteps : List (Instr × (State → State)) :=
  [(.mtxFinder, mtxFinder), (.mtxSeparator, mtxSeparator), (.mtxAlign, mtxAlign), (.mtxTiming, mtxTiming),
    (.mtxDark, mtxDark), (.mtxReserve, mtxReserve)]

/-- Steps 1 to 9 of 44_matrix.md R180 with their bodies. -/
def symbolSteps (n : BitVec 16) : List (Instr × (State → State)) :=
  structuralSteps ++ [(.mtxPlace n, mtxPlace n.toNat), (.mtxMask, mtxMask), (.mtxFormat, mtxFormat)]

theorem stepCommand_structuralSteps : structuralSteps.Forall fun step => StepCommand step.1 step.2 :=
  ⟨⟨inner_mtxFinder, fun _ => rfl⟩, ⟨inner_mtxSeparator, fun _ => rfl⟩, ⟨inner_mtxAlign, fun _ => rfl⟩,
    ⟨inner_mtxTiming, fun _ => rfl⟩, ⟨inner_mtxDark, fun _ => rfl⟩, ⟨inner_mtxReserve, fun _ => rfl⟩⟩

theorem stepCommand_symbolSteps (n : BitVec 16) : (symbolSteps n).Forall fun step => StepCommand step.1 step.2 :=
  List.forall_append.mpr ⟨stepCommand_structuralSteps, ⟨inner_mtxPlace _, fun _ => rfl⟩, ⟨inner_mtxMask, fun _ => rfl⟩,
    ⟨inner_mtxFormat, fun _ => rfl⟩⟩

theorem runBodies_structuralSteps (s : State) : runBodies structuralSteps s = structural s := rfl

theorem runBodies_symbolSteps {n : BitVec 16} {s : State} (h : n.toNat = 8 * s.cwTotalLen.toNat) :
    runBodies (symbolSteps n) s = buildSteps s := by
  rw [buildSteps_eq, ← h]; rfl

theorem exec_mtxBuild {s : State} (hv : s.flags.flavorValid = true) (hok : Config.flavorOk s.flavor = true) :
    exec .mtxBuild s = .next (built s).complete := by
  show execMtxBuild s = _
  simp only [execMtxBuild, hv, buildSymbol_eq_built hok]
  rfl

/-- Settles O56: `FMT_GENERATE` and `MTX_INIT` make the state `MTX_BUILD` stamps in (`State.initialised`), and steps 1 to 9 make
of it what the body of `MTX_BUILD` does (`runBodies_symbolSteps`), but for `MTX_DONE`. -/
theorem buildIsTheNineSteps : Obligations.BuildIsTheNineSteps := by
  intro s hi hv
  obtain ⟨hok, -⟩ := hi.flavor hv
  obtain ⟨⟨hv1, hv5⟩, -⟩ := (flavorOk_iff _).mp hok
  have hversion : (s.flavor.version.setWidth 8).toNat = s.flavor.version.toNat := BitVec.toNat_setWidth_of_le (by decide)
  have hlevel : (s.flavor.ecLevel.setWidth 8).toNat = s.flavor.ecLevel.toNat := BitVec.toNat_setWidth_of_le (by decide)
  have hcenter : (s.flavor.alignCenter.setWidth 8).toNat = s.flavor.alignCenter.toNat :=
    BitVec.toNat_setWidth_of_le (by decide)
  have hstream : (BitVec.ofNat 16 (8 * s.cwTotalLen.toNat)).toNat = 8 * s.cwTotalLen.toNat := by
    rw [BitVec.toNat_ofNat]; omega
  have hlegal : mtxInitLegal (s.flavor.version.setWidth 8).toNat (s.flavor.alignCenter.setWidth 8).toNat = true := by
    rw [hversion, hcenter]; exact mtxInitLegal_of_flavorOk hok
  obtain ⟨format, hformat⟩ : ∃ format,
      fmtGenerate s.flavor.version.toNat s.flavor.ecLevel.toNat Config.maskId = some format :=
    ⟨_, fmtGenerate_eq_formatString (by omega) (by omega) (by decide)⟩
  have hinit : mtxInit (s.flavor.version.setWidth 8).toNat (s.flavor.alignCenter.setWidth 8).toNat
      (s.setFormat format).complete = s.initialised.complete := by
    rw [State.initialised, hformat, hversion, hcenter]; rfl
  have hfmt := exec_fmtGenerate_some (version := s.flavor.version.setWidth 8) (ecLevel := s.flavor.ecLevel.setWidth 8)
    (maskId := 6) (by rw [hversion, hlevel]; exact hformat) s
  have hsteps := execAll_init_stepCommands (stepCommand_symbolSteps (BitVec.ofNat 16 (8 * s.cwTotalLen.toNat))) hlegal
    (s.setFormat format).complete
  rw [hinit, runBodies_symbolSteps (s := s.initialised.complete) hstream, buildSteps_complete] at hsteps
  have hbuild := exec_mtxBuild hv hok
  rw [built_eq] at hbuild
  generalize buildSteps s.initialised = u at hsteps hbuild
  exact ⟨(u.setMtxDone false).complete, (execAll_cons hfmt _).trans hsteps, rfl, hbuild⟩

/-! ### The cells a fresh symbol leaves free -/

theorem taken_init_structural {v a : Nat} (h : mtxInitLegal v a = true) (s : State) (cell : Nat × Nat) :
    ((structural (mtxInit v a s)).cell cell.1 cell.2).taken = structuralAt v a cell.1 cell.2 := by
  obtain ⟨⟨hv1, hv5⟩, ha⟩ := (mtxInitLegal_iff v a).mp h
  have hversion : (mtxInit v a s).mtxVersion.toNat = v := Nat.mod_eq_of_lt (by omega)
  have halign : (mtxInit v a s).mtxAlign.toNat = a := Nat.mod_eq_of_lt (by rw [Config.symbolSize] at ha; omega)
  have hempty : (mtxInit v a s).cell cell.1 cell.2 = QrModule.zero := Grid.get_nil _ _ _
  have hkind := kind_structural (geometryLegal_mtxInit h s) (hasMatrix_mtxInit h s) cell.1 cell.2
  rw [hversion, halign, hempty] at hkind
  exact (congrArg Prod.fst hkind).trans (Bool.or_false _)

theorem length_symbolCells (size : Nat) : (symbolCells size).length = size * size := by simp [symbolCells]

/-- The table of 44_matrix.md R193 against `freeCounts`: what is not free is taken. -/
theorem takenCounts : ∀ e ∈ [(1, 0, 21, 233, 208), (2, 18, 25, 266, 359), (3, 22, 29, 274, 567), (4, 26, 33, 282, 807),
      (5, 30, 37, 290, 1079)], mtxInitLegal e.1 e.2.1 = true ∧ e.2.2.1 = Config.symbolSize e.1 ∧
      (e.1, e.2.1, e.2.2.2.2) ∈ freeCounts ∧ e.2.2.1 * e.2.2.1 = e.2.2.2.1 + e.2.2.2.2 := by decide

/-- Settles O47: in an empty matrix the structural steps take the structural cells of the reference, which are counted
(`structuralAt_counts`). -/
theorem freeCellsBeforePlacement : Obligations.FreeCellsBeforePlacement := by
  intro s v a size taken free hrow
  obtain ⟨hlegal, hsize, hfree, htotal⟩ := takenCounts _ hrow
  obtain ⟨-, hcount⟩ := structuralAt_counts _ hfree
  dsimp only at hlegal hsize hcount htotal
  subst hsize
  have hsplit := (symbolCells (Config.symbolSize v.toNat)).length_eq_length_filter_add
    fun cell => structuralAt v.toNat a.toNat cell.1 cell.2
  rw [length_symbolCells] at hsplit
  have hsteps := execAll_init_stepCommands stepCommand_structuralSteps hlegal s
  rw [runBodies_structuralSteps] at hsteps
  refine ⟨_, hsteps, rfl, ?_, ?_⟩
  · rw [State.complete_size, State.setMtxDone_size, (redraws_structural _).size, mtxInit_size hlegal, Config.symbolSize]
  · simp only [State.cell_complete, State.cell_setMtxDone, taken_init_structural hlegal]
    omega

end Sys2Proof.Machine

/-! ## ENCODE as its commands, and as a function of the text

`ENCODE` runs the bodies of five commands (45_pipeline.md R230), none of which reads `STATUS`. What it leaves depends on the
row, the text and the tables alone: the codeword and the generator by the division's own statement (O31), the symbol because
the steps of `MTX_BUILD` read nothing but the matrix registers and the bits of the stream (`built_withSymbol`). -/

namespace Sys2Proof.Machine
open Reference

/-! ### A text too long -/

theorem exec_flavorSelect_tooLong {len : BitVec 16} (h : 106 < len.toNat) (s : State) :
    exec (.flavorSelect len) s = .next (s.raise .textTooLong) := by
  show execFlavorSelect len s = _
  rw [execFlavorSelect, flavorSelect_none h]

theorem exec_encode_tooLong {len : BitVec 16} (h : 106 < len.toNat) (s : State) :
    exec (.encode len) s = .next (s.raise .textTooLong) := by
  show execEncode len s = _
  rw [execEncode, flavorSelect_none h]

/-- Settles O38: the last row of an admissible table holds 106 bytes, so the selection has no row (`flavorSelect_none`). -/
theorem overlongTextIsRefused : Obligations.OverlongTextIsRefused := fun s _ h =>
  ⟨exec_flavorSelect_tooLong h s, exec_encode_tooLong h s⟩

/-! ### ENCODE as its commands -/

/-- After `MSG_PACK`, `RS_GENERATE` on the row completes the stream of `ENCODE`. -/
theorem exec_rsGenerate_packed {s : State} (hv : s.flags.gfValid = true)
    (hec : 7 ≤ s.flavor.ecCount.toNat ∧ s.flavor.ecCount.toNat ≤ 254) (hcap : s.flavor.capacity.toNat ≤ 106) :
    exec (.rsGenerate s.flavor.ecCount (BitVec.ofNat 16 (s.flavor.capacity.toNat + 2))) (msgPack s).complete =
      .next (streamOf s).complete := by
  have hlen : (BitVec.ofNat 16 (s.flavor.capacity.toNat + 2)).toNat = s.flavor.capacity.toNat + 2 := by
    rw [BitVec.toNat_ofNat]; omega
  rw [exec_rsGenerate (s := (msgPack s).complete) hv hec (by omega), hlen, genpoly_complete, rsDivide_complete, streamOf]
  generalize rsDivide _ _ _ = t
  rfl

theorem exec_gfBuild_complete (s : State) : exec .gfBuild s.complete = .next (gfBuild s).setGfValid.complete := by
  rw [exec_gfBuild, gfBuild_complete]
  generalize gfBuild s = t
  rfl

@[simp] theorem State.complete_complete (s : State) : s.complete.complete = s.complete := rfl

theorem exec_mtxBuild_complete {s : State} (hv : s.flags.flavorValid = true) (hok : Config.flavorOk s.flavor = true) :
    exec .mtxBuild s.complete = .next (built s).complete := by
  rw [exec_mtxBuild (s := s.complete) hv hok, built_complete, State.complete_complete]

/-- Where tables and selection stand, packing, division and build leave the symbol of the stream. -/
theorem execAll_stream {s : State} (hv : s.flags.gfValid = true) (hsel : s.flags.flavorValid = true)
    (hok : Config.flavorOk s.flavor = true) (hcap : s.flavor.capacity.toNat ≤ 106) :
    execAll [.msgPack, .rsGenerate s.flavor.ecCount (BitVec.ofNat 16 (s.flavor.capacity.toNat + 2)), .mtxBuild] s.complete =
      .next (built (streamOf s)).complete := by
  obtain ⟨-, -, hec, -⟩ := (flavorOk_iff _).mp hok
  have hstream := keeps_streamOf s
  have hselected : (streamOf s).flags.flavorValid = s.flags.flavorValid := hstream.2 .flavorValid (by decide)
  have hrow : (streamOf s).flavor = s.flavor := hstream.2 .flavorRow (by decide)
  have hpack : exec .msgPack s.complete = .next (msgPack s).complete := exec_msgPack hsel
  have hbuild := exec_mtxBuild_complete (s := streamOf s) (hselected.trans hsel) (by rw [hrow, hok])
  rw [execAll_cons hpack, execAll_cons (exec_rsGenerate_packed hv hec hcap), execAll_cons hbuild, execAll]

/-- Settles O57: each command of the row runs the body that `ENCODE` runs, and none refuses. -/
theorem encodeIsTheSequenceOfItsCommands : Obligations.EncodeIsTheSequenceOfItsCommands := by
  intro s len h f
  have hok : Config.flavorOk f = true := leastRow_flavorOk h s
  have hcap : f.capacity.toNat ≤ 106 := flavorRow_capacity_le _ (leastRow_spec s.flavors h).1
  have hkept := keeps_gfBuildValid (s.selected len.toNat)
  have hrow : (gfBuild (s.selected len.toNat)).setGfValid.flavor = f := hkept.2 .flavorRow (by decide)
  have hselected : (gfBuild (s.selected len.toNat)).setGfValid.flags.flavorValid = true := hkept.2 .flavorValid (by decide)
  have hrest := execAll_stream (s := (gfBuild (s.selected len.toNat)).setGfValid) rfl hselected (by rw [hrow, hok])
    (by rw [hrow]; exact hcap)
  rw [hrow, ← encodeStream_eq] at hrest
  refine ⟨(s.encoded len.toNat).complete, ?_, rfl, exec_encode h s⟩
  rw [execAll_cons (exec_flavorSelect h s), execAll_cons (exec_gfBuild_complete _), hrest, State.encoded]

/-! ### The symbol is that of the row and the stream -/

/-- `u` with the matrix, its registers, the format and the stream length of `s`: what the steps of `MTX_BUILD` read and
write (44_matrix.md R205), but for the bits of the stream. -/
def State.withSymbol (u s : State) : State :=
  { u with
    format := s.format, cwTotalLen := s.cwTotalLen, mtxVersion := s.mtxVersion, mtxSize := s.mtxSize,
    mtxAlign := s.mtxAlign, cursor := s.cursor, bitpos := s.bitpos, matrix := s.matrix }

/-- The parts `withSymbol` takes over. -/
def symbolParts : List Part :=
  [.format, .cwTotalLen, .mtxVersion, .mtxSize, .mtxAlign, .cursor, .bitpos, .matrix]

theorem same_withSymbol (u s : State) {p : Part} (hp : p ∈ symbolParts) : p.same s (u.withSymbol s) := by
  cases p with
  | format | cwTotalLen | mtxVersion | mtxSize | mtxAlign | cursor | bitpos | matrix => rfl
  | _ => exact absurd hp (by decide)

/-- A body reads and writes nothing but the symbol. -/
def OnSymbol (f : State → State) : Prop := ∀ u s : State, f (u.withSymbol s) = u.withSymbol (f s)

theorem onSymbol_mtxMask : OnSymbol mtxMask := fun _ _ => rfl

theorem onSymbol_mtxFormat : OnSymbol mtxFormat := fun _ _ => rfl

theorem onSymbol_structuralSteps : structuralSteps.Forall fun step => OnSymbol step.2 :=
  ⟨fun _ _ => rfl, fun _ _ => rfl, fun _ _ => rfl, fun _ _ => rfl, fun _ _ => rfl, fun _ _ => rfl⟩

theorem onSymbol_runBodies {steps : List (Instr × (State → State))} (h : steps.Forall fun step => OnSymbol step.2) :
    OnSymbol (runBodies steps) := by
  induction steps with
  | nil => exact fun _ _ => rfl
  | cons step rest ih =>
    obtain ⟨hstep, hrest⟩ := (List.forall_cons _ _ _).mp h
    exact fun u s => (congrArg (runBodies rest) (hstep u s)).trans (ih hrest u (step.2 s))

theorem onSymbol_structural : OnSymbol structural := onSymbol_runBodies onSymbol_structuralSteps

/-- A placement reads no bit beyond the stream. -/
theorem placeBits_congr {size limit : Nat} {bit bit' : Nat → Bool} (h : ∀ p, p < limit → bit p = bit' p) (n : Nat)
    (w : Walk) : placeBits size limit bit n w = placeBits size limit bit' n w := by
  induction n generalizing w with
  | zero => rfl
  | succ n ih =>
    by_cases hused : limit ≤ w.bitpos.toNat
    · rw [placeBits_used hused, placeBits_used hused]
    · rcases hnext : nextFree size w.grid walkBound w.cursor with ⟨_ | cell, c⟩
      · rw [placeBits_none hused hnext, placeBits_none hused hnext]
      · rw [placeBits_some hused hnext, placeBits_some hused hnext, h _ (Nat.lt_of_not_le hused), ih]

/-- Where the stream is the same, so is the walk. -/
theorem walked_withSymbol {u s : State} (h : ∀ k, k < s.cwTotalLen.toNat → u.read .cw k = s.read .cw k) (n : Nat) :
    (u.withSymbol s).walked n = s.walked n := by
  refine placeBits_congr (fun p hp => ?_) n ⟨s.matrix, s.cursor, s.bitpos⟩
  have hread : (u.withSymbol s).read .cw (p / 8) = u.read .cw (p / 8) := State.read_congr rfl rfl _
  have hp : p < 8 * s.cwTotalLen.toNat := hp
  rw [State.streamBit, State.streamBit, hread, h _ (by omega)]

theorem mtxPlace_withSymbol {u s : State} (h : ∀ k, k < s.cwTotalLen.toNat → u.read .cw k = s.read .cw k) (n : Nat) :
    mtxPlace n (u.withSymbol s) = u.withSymbol (mtxPlace n s) := by
  rw [mtxPlace_eq, walked_withSymbol h]
  rfl

/-- The steps of `MTX_BUILD` read of a state its symbol and its stream. -/
theorem buildSteps_withSymbol {u s : State} (h : ∀ k, k < s.cwTotalLen.toNat → u.read .cw k = s.read .cw k) :
    buildSteps (u.withSymbol s) = u.withSymbol (buildSteps s) := by
  have htotal : (structural s).cwTotalLen = s.cwTotalLen := (redraws_structural s).keeps.2 .cwTotalLen (by decide)
  have hread (k : Nat) : (structural s).read .cw k = s.read .cw k :=
    (redraws_structural s).keeps.read (sp := .cw) (by decide) (by decide) k
  have hplace := mtxPlace_withSymbol (u := u) (s := structural s) (fun k hk => by rw [hread, h k (htotal ▸ hk)])
    (8 * s.cwTotalLen.toNat)
  calc buildSteps (u.withSymbol s)
    _ = mtxFormat (mtxMask (mtxPlace (8 * s.cwTotalLen.toNat) (structural (u.withSymbol s)))) := buildSteps_eq _
    _ = u.withSymbol (buildSteps s) := by
      rw [onSymbol_structural, hplace, onSymbol_mtxMask, onSymbol_mtxFormat, buildSteps_eq]

/-- `MTX_INIT` writes the whole symbol but the format and the stream length. -/
theorem mtxInit_withSymbol {u s : State} (htotal : u.cwTotalLen = s.cwTotalLen) (v a : Nat) (format : BitVec 18) :
    mtxInit v a (u.setFormat format) =
      (mtxInit v a (u.setFormat format)).withSymbol (mtxInit v a (s.setFormat format)) := by
  have hsame : (mtxInit v a (s.setFormat format)).cwTotalLen = u.cwTotalLen := htotal.symm
  rw [State.withSymbol, hsame]
  rfl

/-- The symbol of `MTX_BUILD` is that of the row and the stream. -/
theorem built_withSymbol {u s : State} (hrow : u.flavor = s.flavor) (htotal : u.cwTotalLen = s.cwTotalLen)
    (h : ∀ k, k < s.cwTotalLen.toNat → u.read .cw k = s.read .cw k) : built u = (built u).withSymbol (built s) := by
  have hinit : u.initialised = u.initialised.withSymbol s.initialised := by
    rw [State.initialised, State.initialised, hrow]
    exact mtxInit_withSymbol htotal _ _ _
  have hstream : ∀ k, k < s.initialised.cwTotalLen.toNat → u.initialised.read .cw k = s.initialised.read .cw k := h
  have hsteps := buildSteps_withSymbol hstream
  rw [← hinit] at hsteps
  rw [built_eq, built_eq, hsteps]
  generalize buildSteps s.initialised = t
  rfl

/-! ### The stream is that of the row and the text -/

theorem tablesReady_gfBuild (s : State) : tablesReady (gfBuild s).setGfValid :=
  ⟨rfl, fun _ i => by rw [State.read_setGfValid, State.read_setGfValid]; exact tablesBuilt_gfBuild s i⟩

theorem tablesReady_msgPack {s : State} (h : tablesReady s) : tablesReady (msgPack s) :=
  ⟨h.1, (keeps_msgPack s).tablesBuilt (by decide) h.2⟩

/-- `t` and `t'` hold the same codeword and the same generator, of the lengths of the row `f` (45_pipeline.md R230). -/
structure SameStream (f : Flavor) (t t' : State) : Prop where
  cw : t.block .cw 0 (f.capacity.toNat + 2 + f.ecCount.toNat) = t'.block .cw 0 (f.capacity.toNat + 2 + f.ecCount.toNat)
  gen : t.block .gen 0 (f.ecCount.toNat + 1) = t'.block .gen 0 (f.ecCount.toNat + 1)

/-- With the tables built, codeword and generator are those of the row and the data codewords. -/
theorem sameStream_streamOf {s s' : State} (hs : tablesReady s) (hs' : tablesReady s') (hrow : s'.flavor = s.flavor)
    (hec : 7 ≤ s.flavor.ecCount.toNat ∧ s.flavor.ecCount.toNat ≤ 254) (hcap : s.flavor.capacity.toNat ≤ 106)
    (hdata : (msgPack s).block .cw 0 (s.flavor.capacity.toNat + 2) =
      (msgPack s').block .cw 0 (s.flavor.capacity.toNat + 2)) : SameStream s.flavor (streamOf s) (streamOf s') := by
  have hlen : (BitVec.ofNat 16 (s.flavor.capacity.toNat + 2)).toNat = s.flavor.capacity.toNat + 2 := by
    rw [BitVec.toNat_ofNat]; omega
  have hexec := exec_rsGenerate_packed hs.1 hec hcap
  have hexec' := exec_rsGenerate_packed (s := s') hs'.1 (by rwa [hrow]) (by rwa [hrow])
  rw [hrow] at hexec'
  obtain ⟨hcw, hgen⟩ := checkBytesDependOnTheMessageAlone _ _ _ _ _ _ (tablesReady_complete (tablesReady_msgPack hs))
    (tablesReady_complete (tablesReady_msgPack hs')) hec.1 hec.2 (by omega)
    (by rw [hlen, State.block_complete, State.block_complete, hdata]) hexec hexec'
  simp only [hlen, State.block_complete] at hcw hgen
  exact ⟨hcw, hgen⟩

/-- What `MSG_PACK` leaves in `CW` after the tables are built. -/
theorem msgPack_gfBuild_block {s : State} (h : s.payloadLen.toNat ≤ s.flavor.capacity.toNat) :
    (msgPack (gfBuild s).setGfValid).block .cw 0 (s.flavor.capacity.toNat + 2) =
      packed s.flavor.capacity.toNat (s.block .payload 0 s.payloadLen.toNat) := by
  have hkept := keeps_gfBuildValid s
  have hrow : (gfBuild s).setGfValid.flavor = s.flavor := hkept.2 .flavorRow (by decide)
  have hlen : (gfBuild s).setGfValid.payloadLen = s.payloadLen := hkept.2 .payloadLen (by decide)
  have hblock := msgPack_block (s := (gfBuild s).setGfValid) (by rwa [hrow, hlen])
  rwa [hrow, hlen, hkept.block (sp := .payload) (by decide) (by decide)] at hblock

/-- The stream of `ENCODE` is that of the row and the text. -/
theorem sameStream_encodeStream {s s' : State} (hrow : s'.flavor = s.flavor) (hlen : s'.payloadLen = s.payloadLen)
    (hok : Config.flavorOk s.flavor = true) (hcap : s.flavor.capacity.toNat ≤ 106)
    (hfits : s.payloadLen.toNat ≤ s.flavor.capacity.toNat)
    (htext : s.block .payload 0 s.payloadLen.toNat = s'.block .payload 0 s.payloadLen.toNat) :
    SameStream s.flavor (encodeStream s) (encodeStream s') := by
  obtain ⟨-, -, hec, -⟩ := (flavorOk_iff _).mp hok
  have hg : (gfBuild s).setGfValid.flavor = s.flavor := (keeps_gfBuildValid s).2 .flavorRow (by decide)
  have hg' : (gfBuild s').setGfValid.flavor = s'.flavor := (keeps_gfBuildValid s').2 .flavorRow (by decide)
  have hpacked := msgPack_gfBuild_block hfits
  have hpacked' := msgPack_gfBuild_block (s := s') (by rwa [hrow, hlen])
  rw [hrow, hlen, ← htext, ← hpacked] at hpacked'
  have hsame := sameStream_streamOf (tablesReady_gfBuild s) (tablesReady_gfBuild s') (by rw [hg, hg', hrow])
  rw [hg, ← encodeStream_eq, ← encodeStream_eq] at hsame
  exact hsame hec hcap hpacked'.symm

/-! ### Two encodings of one text -/

/-- The parts in which two states may differ after one text was encoded in both: what `ENCODE` does not write, and the
memories, of which it writes a part. -/
def staleParts : List Part := [.result, .payload, .cw, .gen, .gfExp, .gfLog, .rem, .flavors, .resets, .inbox, .reads]

/-- The parts of the host's registers but `STATUS` and `RESULT` (10_state.md R44). -/
def registerParts : List Part :=
  flagParts ++ ([.payloadLen, .flavorIdx, .flavorRow, .cwDataLen, .cwTotalLen, .genLen, .format, .mtxVersion, .mtxSize,
    .mtxAlign, .cursor, .bitpos] : List Part)

theorem Keeps.csrRead {ps : List Part} {s t : State} (hk : Keeps ps s t) (hp : Avoids ps registerParts) {n : Nat}
    (hn : n ≠ 1) : csrRead t n = csrRead s n := by
  have hstatus := hk.1
  have hflags := hk.flags fun p h => hp p (List.mem_append_left _ h)
  have hpayloadLen : t.payloadLen = s.payloadLen := hk.2 .payloadLen (hp _ (by decide))
  have hflavorIdx : t.flavorIdx = s.flavorIdx := hk.2 .flavorIdx (hp _ (by decide))
  have hflavor : t.flavor = s.flavor := hk.2 .flavorRow (hp _ (by decide))
  have hdataLen : t.cwDataLen = s.cwDataLen := hk.2 .cwDataLen (hp _ (by decide))
  have htotalLen : t.cwTotalLen = s.cwTotalLen := hk.2 .cwTotalLen (hp _ (by decide))
  have hgenLen : t.genLen = s.genLen := hk.2 .genLen (hp _ (by decide))
  have hformat : t.format = s.format := hk.2 .format (hp _ (by decide))
  have hversion : t.mtxVersion = s.mtxVersion := hk.2 .mtxVersion (hp _ (by decide))
  have hsize : t.mtxSize = s.mtxSize := hk.2 .mtxSize (hp _ (by decide))
  have halign : t.mtxAlign = s.mtxAlign := hk.2 .mtxAlign (hp _ (by decide))
  have hcursor : t.cursor = s.cursor := hk.2 .cursor (hp _ (by decide))
  have hbitpos : t.bitpos = s.bitpos := hk.2 .bitpos (hp _ (by decide))
  unfold Machine.csrRead
  rw [hstatus, hflags, hpayloadLen, hflavorIdx, hflavor, hdataLen, htotalLen, hgenLen, hformat, hversion, hsize, halign,
    hcursor, hbitpos]
  split
  case h_2 => exact absurd rfl hn
  all_goals rfl

/-- The parts that hold the selection (10_state.md R26, R27). -/
def selectedParts : List Part := [.payloadLen, .flavorIdx, .flavorRow]

theorem same_selected {s s' : State} (htable : s.flavors = s'.flavors) (len : Nat) {p : Part} (hp : p ∈ selectedParts) :
    p.same (s.selected len) (s'.selected len) := by
  cases p with
  | payloadLen => rfl
  | flavorIdx => exact congrArg (fun t => BitVec.ofNat 4 (leastRow t len)) htable.symm
  | flavorRow => exact congrArg (fun t => flavorRow t (leastRow t len)) htable.symm
  | _ => exact absurd hp (by decide)

theorem Part.same_symm {s t : State} {p : Part} (h : p.same s t) : p.same t s := by
  cases p <;> exact Eq.symm h

theorem Part.same_complete_complete {s t : State} {p : Part} (h : p.same s t) : p.same s.complete t.complete := by
  cases p <;> exact h

section
variable {s s' : State} {len : Nat} (h : len ≤ 106) (htable : s.flavors = s'.flavors)
include h htable

theorem encoded_lengths_eq : (s'.encoded len).cwDataLen = (s.encoded len).cwDataLen ∧
    (s'.encoded len).cwTotalLen = (s.encoded len).cwTotalLen ∧ (s'.encoded len).genLen = (s.encoded len).genLen := by
  have hstream := streamed_encoded h s
  have hstream' := streamed_encoded h s'
  have hrow : (s'.selected len).flavor = (s.selected len).flavor := same_selected htable len (p := .flavorRow) (by decide)
  refine ⟨BitVec.eq_of_toNat_eq ?_, BitVec.eq_of_toNat_eq ?_, BitVec.eq_of_toNat_eq ?_⟩
  · rw [hstream'.dataLen, hstream.dataLen, hrow]
  · rw [hstream'.totalLen, hstream.totalLen, hrow]
  · rw [hstream'.genLen, hstream.genLen, hrow]

variable (htext : s.block .payload 0 len = s'.block .payload 0 len)
include htext

/-- Two encodings of one text leave the same stream and the same generator. -/
theorem encoded_blocks_eq :
    (s.encoded len).block .cw 0 (s.encoded len).cwTotalLen.toNat =
        (s'.encoded len).block .cw 0 (s.encoded len).cwTotalLen.toNat ∧
      (s.encoded len).block .gen 0 (s.encoded len).genLen.toNat =
        (s'.encoded len).block .gen 0 (s.encoded len).genLen.toNat := by
  obtain ⟨hidx, hfits, -⟩ := leastRow_spec s.flavors h
  have hstream := streamed_encoded h s
  have hblock (u : State) (sp : Space) (hsp : sp.part ∉ .format :: matrixParts) (n : Nat) :
      (u.encoded len).block sp 0 n = (encodeStream (u.selected len)).block sp 0 n :=
    (keeps_built _).block hsp (by decide) 0 n
  have htext' (u : State) : (u.selected len).block .payload 0 len = u.block .payload 0 len :=
    (keeps_selected u len).block (by decide) (by decide) 0 len
  rw [hstream.totalLen, hstream.genLen, hblock s .cw (by decide), hblock s' .cw (by decide), hblock s .gen (by decide),
    hblock s' .gen (by decide)]
  have hrow : (s'.selected len).flavor = (s.selected len).flavor := same_selected htable len (p := .flavorRow) (by decide)
  have hsame := sameStream_encodeStream hrow rfl (leastRow_flavorOk h s) (flavorRow_capacity_le _ hidx)
    (by rwa [s.selected_payloadLen h]) (by rw [s.selected_payloadLen h, htext', htext', htext])
  exact ⟨hsame.cw, hsame.gen⟩

/-- Two encodings of one text leave the same symbol, because the row and the stream are the same. -/
theorem encoded_withSymbol : s'.encoded len = (s'.encoded len).withSymbol (s.encoded len) := by
  obtain ⟨-, htotal, -⟩ := encoded_lengths_eq h htable
  obtain ⟨hcw, -⟩ := encoded_blocks_eq h htable htext
  have hkept (u : State) : Keeps (.format :: matrixParts) (encodeStream (u.selected len)) (u.encoded len) := keeps_built _
  have hlen (u : State) : (u.encoded len).cwTotalLen = (encodeStream (u.selected len)).cwTotalLen :=
    (hkept u).2 .cwTotalLen (by decide)
  have hrow : (encodeStream (s'.selected len)).flavor = (encodeStream (s.selected len)).flavor := by
    rw [encodeStream_selected_flavor, encodeStream_selected_flavor, htable]
  refine built_withSymbol hrow (by rw [← hlen, ← hlen, htotal]) fun k hk => ?_
  rw [← hlen] at hk
  have hread := congrArg (·.getD k 0) hcw
  simp only [block_getD _ _ _ hk, Nat.zero_add] at hread
  rw [← (hkept s).read (sp := .cw) (by decide) (by decide), hread, (hkept s').read (sp := .cw) (by decide) (by decide)]

/-- Two encodings of one text differ in stale parts alone. -/
theorem keeps_encoded_of_text : Keeps staleParts (s.encoded len).complete (s'.encoded len).complete := by
  have hsymbol : ∀ p ∈ symbolParts, p.same (s.encoded len) (s'.encoded len) := fun p hp => by
    rw [encoded_withSymbol h htable htext]; exact same_withSymbol _ _ hp
  have havoids : Avoids (([.gfExp, .gfLog, .gfValid, .format] : List Part) ++ divisionParts ++ matrixParts) selectedParts := by
    decide
  have hselected : ∀ p ∈ selectedParts, p.same (s.encoded len) (s'.encoded len) := fun p hp =>
    Part.same_trans (Part.same_symm ((keeps_selected_encoded s len).2 p (havoids p hp)))
      (Part.same_trans (same_selected htable len hp) ((keeps_selected_encoded s' len).2 p (havoids p hp)))
  have hflags : (s'.encoded len).flags = (s.encoded len).flags := by rw [encoded_flags, encoded_flags]
  obtain ⟨hdataLen, -, hgenLen⟩ := encoded_lengths_eq h htable
  generalize s.encoded len = t at hsymbol hselected hflags hdataLen hgenLen ⊢
  generalize s'.encoded len = t' at hsymbol hselected hflags hdataLen hgenLen ⊢
  refine ⟨rfl, fun p hp => Part.same_complete_complete ?_⟩
  cases p with
  | gfValid => exact congrArg Flags.gfValid hflags
  | flavorValid => exact congrArg Flags.flavorValid hflags
  | mtxDone => exact congrArg Flags.mtxDone hflags
  | payloadLen | flavorIdx | flavorRow => exact hselected _ (by decide)
  | cwDataLen => exact hdataLen
  | genLen => exact hgenLen
  | cwTotalLen | format | mtxVersion | mtxSize | mtxAlign | cursor | bitpos | matrix => exact hsymbol _ (by decide)
  | _ => exact absurd (by decide) hp

end

/-- Settles O59: the registers are among the parts that are the same (`keeps_encoded_of_text`), and so is the matrix;
stream and generator are the same up to their lengths (`encoded_blocks_eq`). -/
theorem encodeDependsOnTheTextAlone : Obligations.EncodeDependsOnTheTextAlone := by
  intro s s' len h htable htext
  have hkept := keeps_encoded_of_text h htable htext
  obtain ⟨hcw, hgen⟩ := encoded_blocks_eq h htable htext
  refine ⟨_, _, exec_encode h s, exec_encode h s', fun n hn => (hkept.csrRead (by decide) hn).symm, ?_, ?_, ?_⟩
  · simp only [State.block_complete, State.complete_cwTotalLen, hcw]
  · simp only [State.block_complete, State.complete_genLen, hgen]
  · exact (hkept.2 .matrix (by decide)).symm

end Sys2Proof.Machine

/-! ## How a command ends

A command ends in one of three ways (60_exceptions.md R241, R244, R248): refused for its precondition, refused for an operand,
or completed. Which one is settled by `precondition` and `Instr.wellFormed` alone; only the completion of `MTX_BUILD` leans on
the invariant, because its refusals past `FLAVOR_VALID` need a row the flavor table cannot hold. -/

namespace Sys2Proof.Machine
open Reference

section
variable {i : Instr} {s : State}

/-! ### The three ways -/

/-- The precondition is looked at before any operand (60_exceptions.md R248). -/
theorem exec_without_precondition (hp : precondition i s = false) : exec i s = .next (s.raise .invalidParameter) := by
  cases i with
  | gfExp | gfLog | msgPack => exact if_neg (Bool.eq_false_iff.mp hp)
  | rsGenpoly | rsGenerate | mtxBuild => exact if_pos (congrArg (!·) hp)
  | mtxFinder | mtxSeparator | mtxAlign | mtxTiming | mtxDark | mtxReserve | mtxPlace | mtxMask | mtxFormat =>
    exact matrixStep_refused (bne_eq_false_iff_eq.mp hp)
  | gfBuild | gfExpadd | fmtGenerate | flavorSelect | mtxInit | encode => cases hp

theorem exec_illegal_operand (hp : precondition i s = true) (hw : i.wellFormed = false) :
    exec i s = .next (s.raise (operandStatus i)) := by
  cases i with
  | rsGenpoly n =>
    show execRsGenpoly n s = _
    have hn : ecCountLegal n.toNat = false := hw
    rw [execRsGenpoly, show s.flags.gfValid = true from hp, hn]; rfl
  | rsGenerate n len =>
    show execRsGenerate n len s = _
    rw [execRsGenerate, show s.flags.gfValid = true from hp]
    rcases Bool.and_eq_false_iff.mp hw with hn | hl
    · rw [show ecCountLegal n.toNat = false from hn]; rfl
    · rw [show msgLenLegal len.toNat = false from hl]
      cases ecCountLegal n.toNat <;> rfl
  | fmtGenerate v e m =>
    refine exec_fmtGenerate_none (fmtGenerate_illegal fun hlegal => ?_) s
    obtain ⟨hv, he, hm⟩ := hlegal
    simp [Instr.wellFormed, hv, he, hm] at hw
  | flavorSelect len => exact exec_flavorSelect_tooLong (Nat.lt_of_not_le (of_decide_eq_false hw)) s
  | mtxInit v a => exact exec_mtxInit_illegal (by rw [mtxInitLegal_wellFormed, hw]; decide) s
  | encode len => exact exec_encode_tooLong (Nat.lt_of_not_le (of_decide_eq_false hw)) s
  | _ => cases hw

theorem exec_completes (hi : Inv s) (hp : precondition i s = true) (hw : i.wellFormed = true) :
    exec i s = .next (commandBody i s).complete := by
  cases i with
  | gfBuild | gfExpadd => rfl
  | gfExp | gfLog | msgPack => exact if_pos hp
  | rsGenpoly n => exact exec_rsGenpoly hp (of_decide_eq_true hw)
  | rsGenerate n len =>
    obtain ⟨hn, hl⟩ := (Bool.and_eq_true _ _).mp hw
    exact exec_rsGenerate hp (of_decide_eq_true hn) (of_decide_eq_true hl)
  | fmtGenerate v e m =>
    rcases fmtGenerate_cases v.toNat e.toNat m.toNat with ⟨hillegal, -⟩ | ⟨-, hformat⟩
    · exact absurd (by simpa [Instr.wellFormed, and_assoc] using hw) hillegal
    · exact exec_fmtGenerate_some hformat s
  | flavorSelect len => exact exec_flavorSelect (of_decide_eq_true hw) s
  | mtxInit v a => exact exec_mtxInit ((mtxInitLegal_wellFormed v a).trans hw) s
  | mtxFinder | mtxSeparator | mtxAlign | mtxTiming | mtxDark | mtxReserve | mtxPlace | mtxMask | mtxFormat =>
    exact matrixStep_runs (bne_iff_ne.mp hp)
  | mtxBuild =>
    obtain ⟨hok, -⟩ := hi.flavor hp
    exact exec_mtxBuild hp hok
  | encode len => exact exec_encode (of_decide_eq_true hw) s

end

/-- Settles O15: precondition and operands decide between the three ways, and each writes the status it is expected to. -/
theorem commandEndsWithTheStatusOfTheRules : Obligations.CommandEndsWithTheStatusOfTheRules := by
  intro i s hi
  unfold expectedStatus
  cases hp : precondition i s with
  | false => exact ⟨_, exec_without_precondition hp, rfl⟩
  | true =>
    cases hw : i.wellFormed with
    | false => exact ⟨_, exec_illegal_operand hp hw, rfl⟩
    | true => exact ⟨_, exec_completes hi hp hw, rfl⟩

/-! ### Refused commands and illegal words -/

/-- Whatever the word, `STATUS` alone is written with a code that is not `OK`, or a command has run to its end. -/
theorem runWord_cases {w : Word} {s t : State} (h : runWord w s = .next t) :
    (∃ code, t = s.raise code) ∨ t.status = .ok := by
  cases hd : decode w with
  | error e =>
    rw [runWord_error hd] at h; cases h
    exact .inl ⟨_, rfl⟩
  | ok i =>
    rw [runWord_ok hd] at h
    rcases exec_cases h with ⟨code, -, rfl⟩ | ⟨-, -, rfl⟩
    · exact .inl ⟨code, rfl⟩
    · exact .inr rfl

/-- Settles O14: a step that takes a word runs it (`step_action`), and without `OK` it has written `STATUS` alone. -/
theorem refusedCommandChangesOnlyStatus : Obligations.RefusedCommandChangesOnlyStatus := by
  intro s t w rest hbox hstep hstatus
  rw [step_action hbox] at hstep
  rcases runWord_cases hstep with ⟨code, rfl⟩ | hok
  · rfl
  · exact absurd hok hstatus

/-- A word that no row of the opcode table accepts does not decode: the row of a command accepts the command's word. -/
theorem decode_error_of_no_row {w : Word} (h : ∀ r ∈ opcodeRows, r.accepts w = false) : ∃ e, decode w = .error e := by
  cases hd : decode w with
  | error e => exact ⟨e, rfl⟩
  | ok i =>
    have hw : encode i = w := encodeOfDecodeGivesTheWordBack w i hd
    have haccepts : (rowOf i).accepts w = true := by rw [rowOf_accepts_iff, ← hw, withOperandsOf_encode]
    rw [h _ (rowOf_mem i)] at haccepts
    cases haccepts

/-- Settles O6: the word does not decode, and `IllegalCommand` is read as 5. -/
theorem illegalWordIsRefusedWithCodeFive : Obligations.IllegalWordIsRefusedWithCodeFive := by
  intro s w rest hbox hnone
  obtain ⟨e, hd⟩ := decode_error_of_no_row hnone
  exact ⟨_, (step_action hbox).trans (runWord_error hd _), rfl, rfl⟩

end Sys2Proof.Machine

/-! ## Reset, whenever it comes -/

namespace Sys2Proof.Machine

/-- 10_state.md R43: what nothing was written to since the last reset holds the free byte of that reset. -/
theorem State.read_unwritten {s : State} {sp : Space} {i : Nat} (hbank : s.bank sp = []) (h : i < sp.elements) :
    s.read sp i = Config.freeByte s.resets sp.number i := by
  rw [State.read, if_pos h, hbank]; rfl

/-! A reset, from any state, leaves registers, memories and symbol size as the reset state has them. -/

section
variable (s : State)

theorem csrRead_resetAgain (n : Nat) : csrRead (resetAgain s) n = csrRead State.reset n := rfl

theorem resetAgain_bank (sp : Space) : (resetAgain s).bank sp = [] := by cases sp <;> rfl

theorem resetAgain_size : (resetAgain s).size = 0 := rfl

end

/-- Settles O12: the step is `resetAgain`. Each register is that of the reset state, no index of `MATRIX` is in a symbol of
size 0, and no element is written, so each memory shows the free bytes of the new reset. -/
theorem resetPutsTheResetState : Obligations.ResetPutsTheResetState := by
  intro s rest hbox
  refine ⟨resetAgain { s with inbox := rest }, step_action hbox, csrRead_resetAgain _, fun i => ?_, fun sp i h => ?_,
    rfl, rfl, rfl⟩
  · exact matrixRead_outside _ (.inl (by rw [resetAgain_size]; exact Nat.zero_le _))
  · exact State.read_unwritten (resetAgain_bank _ sp) h

end Sys2Proof.Machine
